-- ==== Sys2Proof/Word.lean ====
section
/-! DEFINITION. The words of the core: the cell word of 30_encoding.md R81 and the byte a host moves it in. -/

namespace Sys2Proof

/-- A byte of the host's transfer of a cell word (20_memory.md R55). -/
abbrev Byte := BitVec 8

/-- A cell word: 16 + 2W bits, W the width of a field (30_encoding.md R81). -/
abbrev CellWord (W : Nat) := BitVec (16 + 2 * W)

end Sys2Proof
end

