-- ==== Sys2Proof/Config.lean ====
section
/-! DEFINITION. The implementation parameters of 00_scope.md R6. Every operation of the model takes them as an
argument; `Params.hardware` holds the values of the column "this hardware", which the machine's step uses. -/

namespace Sys2Proof

/-- `SKIP_TARGET`: where a taken skip goes (44_skips.md R210, 92_eei_decisions.md D12). -/
inductive SkipTarget
  | pcPlus2
  | srcPlus1
deriving DecidableEq, Repr

/-- `DEAD_DISPATCH`: what the dispatch of a dead entry does (60_exceptions.md R253, R254, R256; D16). -/
inductive DeadDispatch
  | execute
  | idle
  | prune
deriving DecidableEq, Repr

/-- The parameters of 00_scope.md R6. -/
structure Params where
  /-- `CORESIZE`, S: the number of cells. -/
  coresize : Nat
  /-- `FIELD_BITS`, W: the width of a signed field. -/
  fieldBits : Nat
  /-- `QUEUE_CAP`: the most entries the process queue holds. -/
  queueCap : Nat
  /-- `PLACE_RETRIES`: resamples allowed for a warrior after its first candidate. -/
  placeRetries : Nat
  /-- `INCDEC_MUTATE`: the four increment and decrement modes write the pointer field. -/
  incdecMutate : Bool
  /-- `DJN_DECREMENT`: DJN performs its decrement. -/
  djnDecrement : Bool
  /-- `SKIP_TARGET`. -/
  skipTarget : SkipTarget
  /-- `DEAD_DISPATCH`. -/
  deadDispatch : DeadDispatch
  /-- `CYCLE_BITS`: the width of the step counter. -/
  cycleBits : Nat
deriving DecidableEq, Repr

/-- This hardware's values (00_scope.md R6). -/
def Params.hardware : Params where
  coresize := 8000
  fieldBits := 32
  queueCap := 8000
  placeRetries := 1000
  incdecMutate := true
  djnDecrement := true
  skipTarget := .pcPlus2
  deadDispatch := .execute
  cycleBits := 64

/-- `ADDR_BITS` = ceil(log2(S)), at least 1 (00_scope.md R6). -/
def Params.addrBits (P : Params) : Nat := max 1 (if P.coresize ≤ 1 then 1 else Nat.log2 (P.coresize - 1) + 1)

/-- `FMIN` = -2^(W-1) (00_scope.md R6). -/
def Params.fmin (P : Params) : Int := -((2 ^ (P.fieldBits - 1) : Nat) : Int)

/-- `FMAX` = 2^(W-1) - 1 (00_scope.md R6). -/
def Params.fmax (P : Params) : Int := ((2 ^ (P.fieldBits - 1) : Nat) : Int) - 1

/-- `fits(x)`: FMIN <= x <= FMAX (00_scope.md R8). -/
abbrev Params.Fits (P : Params) (x : Int) : Prop := P.fmin ≤ x ∧ x ≤ P.fmax

end Sys2Proof
end

