-- ==== Sys2Proof/Syntax.lean ====
section
/-! DEFINITION. The instruction: an opcode, a modifier and two operands, each an addressing mode and a signed field
(30_encoding.md R80), and the cell of the arena that holds one (00_scope.md R9). -/

namespace Sys2Proof

/-- The 20 opcodes, in the order of their codes (30_encoding.md R82). -/
inductive Opcode
  | dat | mov | add | sub | mul | div | mod | jmp | jmz | jmn
  | djz | djn | cmp | seq | sne | slt | ldp | stp | nop | spl
deriving DecidableEq, Repr

/-- The 7 modifiers, in the order of their codes (30_encoding.md R83). -/
inductive Modifier
  | a | b | ab | ba | f | x | i
deriving DecidableEq, Repr

/-- The 8 addressing modes, in the order of their codes (30_encoding.md R84). -/
inductive Mode
  | immediate
  | direct
  | aIndirect
  | bIndirect
  | aPreDecrement
  | aPostIncrement
  | bPreDecrement
  | bPostIncrement
deriving DecidableEq, Repr

/-- The two fields of a cell, as the modifiers name them (30_encoding.md R89). -/
inductive Field
  | a
  | b
deriving DecidableEq, Repr

/-- An operand: its addressing mode and its signed field, a mathematical integer (30_encoding.md R85, 00_scope.md R8). -/
structure Operand where
  mode : Mode
  field : Int
deriving DecidableEq, Repr

/-- The instructions: one constructor for each row of spec/opcode_table.json, with its modifier, its A-operand and its
B-operand. -/
inductive Instr
  | dat (m : Modifier) (a b : Operand)
  | mov (m : Modifier) (a b : Operand)
  | add (m : Modifier) (a b : Operand)
  | sub (m : Modifier) (a b : Operand)
  | mul (m : Modifier) (a b : Operand)
  | div (m : Modifier) (a b : Operand)
  | mod (m : Modifier) (a b : Operand)
  | jmp (m : Modifier) (a b : Operand)
  | jmz (m : Modifier) (a b : Operand)
  | jmn (m : Modifier) (a b : Operand)
  | djz (m : Modifier) (a b : Operand)
  | djn (m : Modifier) (a b : Operand)
  | cmp (m : Modifier) (a b : Operand)
  | seq (m : Modifier) (a b : Operand)
  | sne (m : Modifier) (a b : Operand)
  | slt (m : Modifier) (a b : Operand)
  | ldp (m : Modifier) (a b : Operand)
  | stp (m : Modifier) (a b : Operand)
  | nop (m : Modifier) (a b : Operand)
  | spl (m : Modifier) (a b : Operand)
deriving DecidableEq, Repr

/-- What the 16-bit control half of a cell word says of the operation: a legal opcode and modifier, or the reserved
space, which the decoder calls ILLEGAL, kept as its codes (30_encoding.md R86). -/
inductive Head
  | legal (op : Opcode) (m : Modifier)
  | illegal (op : BitVec 5) (m : BitVec 3) (rsv : BitVec 2)
deriving DecidableEq, Repr

/-- One cell of the arena (00_scope.md R9): the six parts `{op, mod, am, af, bm, bf}`. Every mode code is valid, so the
operands of an ILLEGAL word are read as those of any other (30_encoding.md R84; log entry 3). -/
structure Cell where
  head : Head
  a : Operand
  b : Operand
deriving DecidableEq, Repr

/-- The instruction with a given opcode, modifier and operands. -/
def Opcode.instr (o : Opcode) (m : Modifier) (a b : Operand) : Instr :=
  match o with
  | .dat => .dat m a b
  | .mov => .mov m a b
  | .add => .add m a b
  | .sub => .sub m a b
  | .mul => .mul m a b
  | .div => .div m a b
  | .mod => .mod m a b
  | .jmp => .jmp m a b
  | .jmz => .jmz m a b
  | .jmn => .jmn m a b
  | .djz => .djz m a b
  | .djn => .djn m a b
  | .cmp => .cmp m a b
  | .seq => .seq m a b
  | .sne => .sne m a b
  | .slt => .slt m a b
  | .ldp => .ldp m a b
  | .stp => .stp m a b
  | .nop => .nop m a b
  | .spl => .spl m a b

/-- The cell that holds an instruction: "a cell holds exactly one instruction" (30_encoding.md R80). -/
def Instr.cell (i : Instr) : Cell :=
  match i with
  | .dat m a b => ⟨.legal .dat m, a, b⟩
  | .mov m a b => ⟨.legal .mov m, a, b⟩
  | .add m a b => ⟨.legal .add m, a, b⟩
  | .sub m a b => ⟨.legal .sub m, a, b⟩
  | .mul m a b => ⟨.legal .mul m, a, b⟩
  | .div m a b => ⟨.legal .div m, a, b⟩
  | .mod m a b => ⟨.legal .mod m, a, b⟩
  | .jmp m a b => ⟨.legal .jmp m, a, b⟩
  | .jmz m a b => ⟨.legal .jmz m, a, b⟩
  | .jmn m a b => ⟨.legal .jmn m, a, b⟩
  | .djz m a b => ⟨.legal .djz m, a, b⟩
  | .djn m a b => ⟨.legal .djn m, a, b⟩
  | .cmp m a b => ⟨.legal .cmp m, a, b⟩
  | .seq m a b => ⟨.legal .seq m, a, b⟩
  | .sne m a b => ⟨.legal .sne m, a, b⟩
  | .slt m a b => ⟨.legal .slt m, a, b⟩
  | .ldp m a b => ⟨.legal .ldp m, a, b⟩
  | .stp m a b => ⟨.legal .stp m, a, b⟩
  | .nop m a b => ⟨.legal .nop m, a, b⟩
  | .spl m a b => ⟨.legal .spl m, a, b⟩

/-- The instruction a cell holds; none where the cell is ILLEGAL. -/
def Cell.instr (c : Cell) : Option Instr :=
  match c.head with
  | .legal o m => some (o.instr m c.a c.b)
  | .illegal _ _ _ => none

end Sys2Proof
end

