-- ==== Sys2Proof/WellFormed.lean ====
section
/-! DEFINITION. Which instructions and cells are well formed: each field of W bits (30_encoding.md R85), and no cell of
the arena ILLEGAL (30_encoding.md R87). Modifiers and modes need no check: every opcode accepts every modifier (R83)
and every mode (R84). -/

namespace Sys2Proof

/-- An operand whose field fits W bits (30_encoding.md R85). -/
abbrev Operand.WellFormed (P : Params) (o : Operand) : Prop := P.Fits o.field

/-- A valid cell: not ILLEGAL, and both its fields fit (30_encoding.md R85, R87). -/
abbrev Cell.WellFormed (P : Params) (c : Cell) : Prop :=
  c.instr.isSome = true ∧ c.a.WellFormed P ∧ c.b.WellFormed P

/-- An instruction whose two fields fit W bits (30_encoding.md R85). -/
abbrev Instr.WellFormed (P : Params) (i : Instr) : Prop :=
  i.cell.a.WellFormed P ∧ i.cell.b.WellFormed P

end Sys2Proof
end

