-- ==== Sys2Proof/Decode.lean ====
section
/-! DEFINITION. The decoder of 30_encoding.md R86, total on every word and rejecting the reserved space by name, and the
encoder of R87, written from the same tables. -/

namespace Sys2Proof

/-! ## The code points (30_encoding.md R82, R83, R84) -/

/-- The opcode's code (30_encoding.md R82). -/
def Opcode.code (o : Opcode) : BitVec 5 :=
  match o with
  | .dat => 0
  | .mov => 1
  | .add => 2
  | .sub => 3
  | .mul => 4
  | .div => 5
  | .mod => 6
  | .jmp => 7
  | .jmz => 8
  | .jmn => 9
  | .djz => 10
  | .djn => 11
  | .cmp => 12
  | .seq => 13
  | .sne => 14
  | .slt => 15
  | .ldp => 16
  | .stp => 17
  | .nop => 18
  | .spl => 19

/-- The opcode a code stands for; codes 20 to 31 are reserved (30_encoding.md R82). -/
def Opcode.ofCode (c : BitVec 5) : Option Opcode :=
  match c.toNat with
  | 0 => some .dat
  | 1 => some .mov
  | 2 => some .add
  | 3 => some .sub
  | 4 => some .mul
  | 5 => some .div
  | 6 => some .mod
  | 7 => some .jmp
  | 8 => some .jmz
  | 9 => some .jmn
  | 10 => some .djz
  | 11 => some .djn
  | 12 => some .cmp
  | 13 => some .seq
  | 14 => some .sne
  | 15 => some .slt
  | 16 => some .ldp
  | 17 => some .stp
  | 18 => some .nop
  | 19 => some .spl
  | _ => none

/-- The modifier's code (30_encoding.md R83). -/
def Modifier.code (m : Modifier) : BitVec 3 :=
  match m with
  | .a => 0
  | .b => 1
  | .ab => 2
  | .ba => 3
  | .f => 4
  | .x => 5
  | .i => 6

/-- The modifier a code stands for; code 7 is reserved (30_encoding.md R83). -/
def Modifier.ofCode (c : BitVec 3) : Option Modifier :=
  match c.toNat with
  | 0 => some .a
  | 1 => some .b
  | 2 => some .ab
  | 3 => some .ba
  | 4 => some .f
  | 5 => some .x
  | 6 => some .i
  | _ => none

/-- The addressing mode's code (30_encoding.md R84). -/
def Mode.code (m : Mode) : BitVec 3 :=
  match m with
  | .immediate => 0
  | .direct => 1
  | .aIndirect => 2
  | .bIndirect => 3
  | .aPreDecrement => 4
  | .aPostIncrement => 5
  | .bPreDecrement => 6
  | .bPostIncrement => 7

/-- The addressing mode a code stands for: all eight codes are valid (30_encoding.md R84). -/
def Mode.ofCode (c : BitVec 3) : Mode :=
  match c.toNat with
  | 0 => .immediate
  | 1 => .direct
  | 2 => .aIndirect
  | 3 => .bIndirect
  | 4 => .aPreDecrement
  | 5 => .aPostIncrement
  | 6 => .bPreDecrement
  | _ => .bPostIncrement

/-! ## The fields of a cell word (30_encoding.md R81) -/

/-- Bits 4:0. -/
def CellWord.op (W : Nat) (w : CellWord W) : BitVec 5 := w.extractLsb' 0 5

/-- Bits 7:5. -/
def CellWord.modifier (W : Nat) (w : CellWord W) : BitVec 3 := w.extractLsb' 5 3

/-- Bits 10:8. -/
def CellWord.am (W : Nat) (w : CellWord W) : BitVec 3 := w.extractLsb' 8 3

/-- Bits 13:11. -/
def CellWord.bm (W : Nat) (w : CellWord W) : BitVec 3 := w.extractLsb' 11 3

/-- Bits 15:14, reserved. -/
def CellWord.rsv (W : Nat) (w : CellWord W) : BitVec 2 := w.extractLsb' 14 2

/-- Bits 16+W-1:16. -/
def CellWord.af (W : Nat) (w : CellWord W) : BitVec W := w.extractLsb' 16 W

/-- Bits 16+2W-1:16+W. -/
def CellWord.bf (W : Nat) (w : CellWord W) : BitVec W := w.extractLsb' (16 + W) W

/-! ## Decoder (30_encoding.md R86) -/

/-- Why a word, or a run of bytes, is no instruction. The first three are the ILLEGAL of 30_encoding.md R86; the last is
the model's, for a transfer that is not one cell word (log entry 14). -/
inductive DecodeError
  | reservedBits (rsv : BitVec 2)
  | reservedOpcode (op : BitVec 5)
  | reservedModifier (m : BitVec 3)
  | wrongLength (bytes : Nat)
deriving DecidableEq, Repr

/-- The head of a cell word: legal exactly when the opcode code is below 20, the modifier code is not 7 and the reserved
bits are 00 (30_encoding.md R86). -/
def decodeHead (op : BitVec 5) (m : BitVec 3) (rsv : BitVec 2) : Head :=
  if rsv = 0 then
    match Opcode.ofCode op, Modifier.ofCode m with
    | some o, some k => .legal o k
    | _, _ => .illegal op m rsv
  else .illegal op m rsv

/-- The cell a word stands for, ILLEGAL words included: the fields are two's complement (30_encoding.md R85, R86). -/
def decodeCell (W : Nat) (w : CellWord W) : Cell where
  head := decodeHead (CellWord.op W w) (CellWord.modifier W w) (CellWord.rsv W w)
  a := ⟨Mode.ofCode (CellWord.am W w), (CellWord.af W w).toInt⟩
  b := ⟨Mode.ofCode (CellWord.bm W w), (CellWord.bf W w).toInt⟩

/-- Why an ILLEGAL head is one. -/
def Head.error (op : BitVec 5) (m : BitVec 3) (rsv : BitVec 2) : DecodeError :=
  if rsv ≠ 0 then .reservedBits rsv
  else if (Opcode.ofCode op).isNone then .reservedOpcode op
  else .reservedModifier m

/-- The decoder (30_encoding.md R86): total, and ILLEGAL words are rejected by name. -/
def decode (W : Nat) (w : CellWord W) : Except DecodeError Instr :=
  let c := decodeCell W w
  match c.head with
  | .legal o m => .ok (o.instr m c.a c.b)
  | .illegal op m rsv => .error (Head.error op m rsv)

/-! ## Encoder (30_encoding.md R87) -/

/-- The opcode code of a cell: bits 4:0 of its word, of an ILLEGAL one too (40_execution_cycle.md R136). -/
def Head.opCode (h : Head) : BitVec 5 :=
  match h with
  | .legal o _ => o.code
  | .illegal op _ _ => op

/-- The modifier code of a cell. -/
def Head.modifierCode (h : Head) : BitVec 3 :=
  match h with
  | .legal _ m => m.code
  | .illegal _ m _ => m

/-- The reserved bits of a cell: 00 where it is valid (30_encoding.md R87). -/
def Head.reserved (h : Head) : BitVec 2 :=
  match h with
  | .legal _ _ => 0
  | .illegal _ _ rsv => rsv

/-- The word of a cell, its parts placed as 30_encoding.md R81 says (R87). -/
def encodeCell (W : Nat) (c : Cell) : CellWord W :=
  (BitVec.ofInt W c.b.field ++ (BitVec.ofInt W c.a.field ++ (c.head.reserved ++ (c.b.mode.code ++ (c.a.mode.code ++
    (c.head.modifierCode ++ c.head.opCode)))))).cast (by omega)

/-- The word of an instruction (30_encoding.md R87). -/
def encode (W : Nat) (i : Instr) : CellWord W := encodeCell W i.cell

/-! ## Bytes: the host's transfer of a cell word, little-endian (20_memory.md R55) -/

/-- How many bytes a cell word takes. -/
def wordBytes (W : Nat) : Nat := (16 + 2 * W + 7) / 8

/-- Byte k of a cell word holds word bits 8k+7..8k (20_memory.md R55). -/
def bytesOfWord (W : Nat) (w : CellWord W) : List Byte :=
  (List.range (wordBytes W)).map fun k => w.extractLsb' (8 * k) 8

/-- The number a little-endian run of bytes spells. -/
def natOfBytes : List Byte → Nat
  | [] => 0
  | b :: bs => b.toNat + 256 * natOfBytes bs

/-- The decoder on bytes: total on any bytes; a run that is not one cell word long is rejected (log entry 14). -/
def decodeBytes (W : Nat) (bs : List Byte) : Except DecodeError Instr :=
  if bs.length = wordBytes W then decode W (BitVec.ofNat (16 + 2 * W) (natOfBytes bs))
  else .error (.wrongLength bs.length)

/-- The cell word whose low `nbits` bits are those of `w` and whose other bits are 0. -/
def tableWord (nbits w : Nat) : CellWord Params.hardware.fieldBits := BitVec.ofNat _ (w % 2 ^ nbits)

/-- The instruction the decoder reads from a word numbered as spec/opcode_table.json numbers it, laid out as the bytes
of one cell word. -/
def decodeTableWord (nbits w : Nat) : Option Instr :=
  match decodeBytes Params.hardware.fieldBits (bytesOfWord _ (tableWord nbits w)) with
  | .ok i => some i
  | .error _ => none

end Sys2Proof
end

