-- ==== Sys2Proof/Machine/Sparse.lean ====
section
/-! DEFINITION. Arrays indexed by cell address, held as plain data: a list of (address, value) pairs in one canonical
form, addresses strictly rising and no entry equal to the value an unlisted address reads as (log entry 2). The arena,
the occupancy bitmap and the activity signal are such arrays. -/

namespace Sys2Proof.Machine

/-- The value at an address; `d` where the address is not listed. -/
def Sparse.get {α : Type} (d : α) (m : List (Nat × α)) (a : Nat) : α :=
  match m with
  | [] => d
  | (k, v) :: rest => if k = a then v else Sparse.get d rest a

/-- No entry for the address. -/
def Sparse.erase {α : Type} (m : List (Nat × α)) (a : Nat) : List (Nat × α) :=
  m.filter fun kv => kv.1 != a

/-- An entry more, before the first larger address. -/
def Sparse.insert {α : Type} (m : List (Nat × α)) (a : Nat) (v : α) : List (Nat × α) :=
  match m with
  | [] => [(a, v)]
  | (k, w) :: rest => if a < k then (a, v) :: (k, w) :: rest else (k, w) :: Sparse.insert rest a v

/-- The array with one value replaced; writing the value an unlisted address reads as removes the entry. -/
def Sparse.set {α : Type} [DecidableEq α] (d : α) (m : List (Nat × α)) (a : Nat) (v : α) : List (Nat × α) :=
  if v = d then Sparse.erase m a else Sparse.insert (Sparse.erase m a) a v

/-- Addresses strictly rising from `lo` on, and no entry equal to `d`. -/
def Sparse.canonicalFrom {α : Type} [DecidableEq α] (d : α) (lo : Nat) (m : List (Nat × α)) : Bool :=
  match m with
  | [] => true
  | (k, v) :: rest => decide (lo ≤ k) && decide (v ≠ d) && Sparse.canonicalFrom d (k + 1) rest

/-- The canonical form. -/
def Sparse.wf {α : Type} [DecidableEq α] (d : α) (m : List (Nat × α)) : Bool := Sparse.canonicalFrom d 0 m

/-- Every listed address is below `n`. -/
def Sparse.below {α : Type} (n : Nat) (m : List (Nat × α)) : Bool := m.all fun kv => decide (kv.1 < n)

end Sys2Proof.Machine
end

