-- ==== Sys2Proof/Machine/State.lean ====
section
/-! DEFINITION. Every piece of state the spec gives the core (10_state.md R22-R30), as plain data, the reasons a step can
stop, and the state at power-on. -/

namespace Sys2Proof.Machine

/-! ## Registers and tables -/

/-- A process queue entry (10_state.md R22). -/
structure Entry where
  /-- The id of the warrior that owns the process. -/
  wid : Nat
  /-- The process id within the warrior. -/
  pid : Nat
  /-- The warrior still has a live process (10_state.md R25). -/
  programAlive : Bool
  /-- This process has not executed DAT or faulted (10_state.md R25). -/
  processAlive : Bool
  /-- The program counter (10_state.md R23). -/
  pc : Nat
deriving DecidableEq, Repr

/-- A record of the warrior table (10_state.md R26). -/
structure Warrior where
  id : Nat
  /-- Opaque, stored and never read (10_state.md R26; log entry 11). -/
  title : String
  /-- Opaque, stored and never read (10_state.md R26; log entry 11). -/
  tag : String
  /-- The instruction sequence (10_state.md R26; log entry 12). -/
  code : List Cell
  start : Nat
deriving DecidableEq, Repr

/-- The outcome codes of the last Step (10_state.md R28). -/
inductive StatusCode
  | none
  | ok
  | killedDat
  | arithDivZero
  | arithOverflow
  | unsupportedOpcode
  | emptyQueue
  | fatalIndex
  | idleDead
  | notRun
deriving DecidableEq, Repr

/-- The STATUS register (10_state.md R27). -/
structure Status where
  code : StatusCode
  wid : Nat
  pid : Nat
  pc : Nat
  op : BitVec 5
deriving DecidableEq, Repr

/-- The REMAINING register: the `UNBOUNDED` bit or a count (10_state.md R27). -/
inductive Budget
  | unbounded
  | count (n : Nat)
deriving DecidableEq, Repr

/-- The arena: the listed cells, in the canonical form of Machine/Sparse.lean; an unlisted address reads as the default
cell (20_memory.md R51). -/
abbrev Memory := List (Nat × Cell)

/-- The state of the core. -/
structure State where
  /-- The arena M (20_memory.md R50). -/
  arena : Memory
  /-- The process queue Q (10_state.md R22). -/
  queue : List Entry
  /-- The scheduler cursor (10_state.md R24). -/
  cur : Nat
  /-- The warrior table Wt (10_state.md R26). -/
  warriors : List Warrior
  /-- RUNNING (10_state.md R27). -/
  running : Bool
  /-- REMAINING (10_state.md R27). -/
  remaining : Budget
  /-- CYCLES (10_state.md R27). -/
  cycles : Nat
  /-- STATUS (10_state.md R27, R28). -/
  status : Status
  /-- FATAL (10_state.md R27, 60_exceptions.md R247). -/
  fatal : Bool
  /-- The occupancy bitmap OCC: an unlisted address is not occupied (10_state.md R29). -/
  occ : List (Nat × Bool)
  /-- The activity signal ACT: an unlisted address reads NONE (10_state.md R30). -/
  act : List (Nat × Option Nat)
  /-- TOUCHED: the addresses the last Step touched, in order of first touch (10_state.md R30). -/
  touched : List Nat
deriving DecidableEq, Repr

/-! ## How a step can end -/

/-- Why the machine stops. -/
inductive Fault
  /-- Raised by Step and by every instruction when the cursor names no entry of the queue: for Step, of a non-empty
  queue. 10_state.md R24 excludes it ("0 ≤ cursor < length whenever the queue is non-empty"), so no run of the core
  reaches it. Safe: the model stops (log entry 4). -/
  | noActingEntry
deriving DecidableEq, Repr

/-- Why an instruction has no meaning. -/
inductive Refusal
  /-- The instruction is not modelled. No arm of exec answers it: every instruction has its meaning. Safe. -/
  | notModelled (mnemonic : String)
deriving DecidableEq, Repr

/-- What a step answers. -/
abbrev Answer := Host.Outcome State Fault Refusal

/-! ## What the phases of a Step pass on -/

/-- The faults a Step can raise (00_scope.md R10, 60_exceptions.md R241, R242). -/
inductive Raise
  | divZero
  | overflow
  | unsupported
deriving DecidableEq, Repr

/-- How a phase of a Step ends: with a value, with a raised fault (60_exceptions.md R243), or with FATAL latched, which
ends the Step with no commit (60_exceptions.md R247). The state holds what the phase has written by then. -/
inductive Phase (α : Type)
  | done (v : α) (s : State)
  | raised (r : Raise) (s : State)
  | fatal (s : State)
deriving DecidableEq, Repr

/-- A resolved operand: an address and a snapshot of the cell there (40_execution_cycle.md R116). -/
structure Resolved where
  addr : Nat
  cell : Cell
deriving DecidableEq, Repr

/-- The outcome of the execute phase (40_execution_cycle.md R129). -/
structure Result where
  /-- Where a jump or skip goes; none where none was taken. -/
  target : Option Nat
  /-- The acting process dies. -/
  killed : Bool
  code : StatusCode
deriving DecidableEq, Repr

/-! ## Power-on -/

/-- Every field of STATUS 0, code NONE (10_state.md R33). -/
def Status.zero : Status := ⟨.none, 0, 0, 0, 0⟩

/-- The core at power-on: what Reset produces, with REMAINING = UNBOUNDED (10_state.md R33, 70_reset_and_hazards.md R281;
log entry 7). The arena lists nothing: every cell is the default cell. -/
def State.reset : State where
  arena := []
  queue := []
  cur := 0
  warriors := []
  running := false
  remaining := .unbounded
  cycles := 0
  status := Status.zero
  fatal := false
  occ := []
  act := []
  touched := []

end Sys2Proof.Machine
end

