-- ==== Sys2Proof/Machine/Flags.lean ====
section
/-! DEFINITION. The only flags of the core: the two liveness bits of each queue entry (10_state.md R25). There are no
condition codes. -/

namespace Sys2Proof.Machine

/-- Some process of the warrior is alive (10_state.md R25). -/
def warriorAlive (wid : Nat) (q : List Entry) : Bool := q.any fun e => e.wid == wid && e.processAlive

/-- `programAlive` of every entry of one warrior, computed again from the queue as it stands (10_state.md R25,
40_execution_cycle.md R132). -/
def refreshProgramAlive (wid : Nat) (q : List Entry) : List Entry :=
  q.map fun e => if e.wid = wid then { e with programAlive := warriorAlive wid q } else e

/-- `kill()` (00_scope.md R10): the acting process dies; `processAlive` is never set again (10_state.md R25). -/
def Entry.killIf (e : Entry) (killed : Bool) : Entry := { e with processAlive := e.processAlive && !killed }

end Sys2Proof.Machine
end

