-- ==== Sys2Proof/Machine/Ops.lean ====
section
/-! DEFINITION. The named operations every Step is made of: the modular address unit, the accesses to the arena, the
commit, and the taking of a fault. -/

namespace Sys2Proof.Machine

/-! ## The modular address unit -/

/-- `wrap(addr, delta)` = (addr + delta) mod S, Euclidean and on the exact sum (20_memory.md R52, R53). -/
def wrap (P : Params) (addr : Nat) (delta : Int) : Nat := (((addr : Int) + delta) % (P.coresize : Int)).toNat

/-! ## The arena -/

/-- The default cell `DAT.F $0, $0` (20_memory.md R51). -/
def defaultCell : Cell := ⟨.legal .dat .f, ⟨.direct, 0⟩, ⟨.direct, 0⟩⟩

/-- The cell at an address: an unlisted address reads as the default cell. -/
def Memory.read (m : Memory) (a : Nat) : Cell := Sparse.get defaultCell m a

/-- The arena with one cell replaced. -/
def Memory.write (m : Memory) (a : Nat) (c : Cell) : Memory := Sparse.set defaultCell m a c

/-- The arena is in canonical form. -/
def Memory.wf (m : Memory) : Bool := Sparse.wf defaultCell m

/-- One field of a cell (00_scope.md R9: `c.af`, `c.bf`). -/
def cellField (c : Cell) (f : Field) : Int :=
  match f with
  | .a => c.a.field
  | .b => c.b.field

/-- `c with af := v`, `c with bf := v` (00_scope.md R9): the other five parts stay. -/
def withCellField (c : Cell) (f : Field) (v : Int) : Cell :=
  match f with
  | .a => { c with a := { c.a with field := v } }
  | .b => { c with b := { c.b with field := v } }

/-- Several fields of one cell replaced in one update (20_memory.md R57). -/
def withCellFields (c : Cell) (ws : List (Field × Int)) : Cell := ws.foldl (fun c w => withCellField c w.1 w.2) c

/-! ## The activity signal -/

/-- A touch of address a by a process of warrior `wid`: `ACT[a] <- wid`, and a joins TOUCHED unless it is in it
(60_exceptions.md R262). -/
def touch (wid : Nat) (a : Nat) (s : State) : State :=
  { s with
    act := Sparse.set none s.act a (some wid)
    touched := if a ∈ s.touched then s.touched else s.touched ++ [a] }

/-! ## Accesses (00_scope.md R10) -/

/-- IndexError: no access is made, FATAL is latched and reported (60_exceptions.md R247). -/
def latchFatal (s : State) : State := { s with fatal := true, status := { s.status with code := .fatalIndex } }

/-- `MemRead(a, 1)` by the acting entry e: the whole cell, and a touch (00_scope.md R10). -/
def memRead (P : Params) (e : Entry) (a : Nat) (s : State) : Phase Cell :=
  if a < P.coresize then .done (s.arena.read a) (touch e.wid a s) else .fatal (latchFatal s)

/-- `MemWrite(a, 1, c)` by the acting entry e: the whole cell, and a touch (00_scope.md R10). -/
def memWrite (P : Params) (e : Entry) (a : Nat) (c : Cell) (s : State) : Phase Unit :=
  if a < P.coresize then .done () (touch e.wid a { s with arena := s.arena.write a c }) else .fatal (latchFatal s)

/-- `FieldWrite` by the acting entry e of one or two fields of one cell in one indivisible update: the cell as it stands
with those fields replaced, and a touch (00_scope.md R10, 20_memory.md R57). That each value fits is the caller's
to establish. -/
def fieldWrite (P : Params) (e : Entry) (a : Nat) (ws : List (Field × Int)) (s : State) : Phase Unit :=
  memWrite P e a (withCellFields (s.arena.read a) ws) s

/-! ## Phases in sequence -/

/-- The next phase runs where this one is done; a raised fault and a latched FATAL end the Step's phases
(60_exceptions.md R243, R247). -/
def Phase.andThen {α β : Type} (p : Phase α) (k : α → State → Phase β) : Phase β :=
  match p with
  | .done v s => k v s
  | .raised r s => .raised r s
  | .fatal s => .fatal s

/-! ## Commit (40_execution_cycle.md R131-R134) -/

/-- The cursor moves to the next entry (60_exceptions.md R251). -/
def advanceCursor (s : State) : State := { s with cur := (s.cur + 1) % s.queue.length }

/-- `Remove(e)` for the entry at the cursor (60_exceptions.md R256): the later entries move down one index; the cursor
goes to 0 where the entry was the last or the queue is now empty, and otherwise stays. -/
def removeActing (s : State) : State :=
  let q := s.queue.eraseIdx s.cur
  { s with queue := q, cur := if s.cur + 1 = s.queue.length ∨ q = [] then 0 else s.cur }

/-- `CYCLES <- (CYCLES + 1) mod 2^CYCLE_BITS` (40_execution_cycle.md R133). -/
def countCycle (P : Params) (s : State) : State := { s with cycles := (s.cycles + 1) % 2 ^ P.cycleBits }

/-- The acting entry after its Step: the program counter at the target, or at the next cell (40_execution_cycle.md R131),
and dead where the Step killed it (R132). -/
def Entry.after (P : Params) (e : Entry) (r : Result) : Entry :=
  { e.killIf r.killed with pc := r.target.getD (wrap P e.pc 1) }

/-- The commit of a Step of the entry e, which is the one at the cursor, whose instruction has the opcode code `op`
(40_execution_cycle.md R131-R134, R136). -/
def commit (P : Params) (e : Entry) (op : BitVec 5) (r : Result) (s : State) : State :=
  let s1 := { s with
    queue := refreshProgramAlive e.wid (s.queue.set s.cur (e.after P r))
    status := ⟨r.code, e.wid, e.pid, e.pc, op⟩ }
  let s2 := countCycle P s1
  if P.deadDispatch = .prune ∧ (e.after P r).processAlive = false then removeActing s2 else advanceCursor s2

/-! ## Taking a fault (60_exceptions.md R243) -/

/-- `code_of` (40_execution_cycle.md R136). -/
def Raise.code (r : Raise) : StatusCode :=
  match r with
  | .divZero => .arithDivZero
  | .overflow => .arithOverflow
  | .unsupported => .unsupportedOpcode

/-- What a raised fault makes of the execute phase: `(none, true, code)` (40_execution_cycle.md R129). -/
def Raise.result (r : Raise) : Result := ⟨none, true, r.code⟩

/-- Taking ArithmeticError or UnsupportedOpcodeError (60_exceptions.md R243): the acting process dies, its pc goes to the
next cell, STATUS names it, CYCLES counts, the cursor moves. Nothing is saved and control goes to no handler, so there
is no return from it (60_exceptions.md R248). -/
def takeFault (P : Params) (e : Entry) (op : BitVec 5) (r : Raise) (s : State) : State := commit P e op r.result s

/-- The end of a Step (40_execution_cycle.md R136): a commit of the outcome, a commit of the fault raised, or, with FATAL
latched, no commit (60_exceptions.md R247). -/
def endStep (P : Params) (e : Entry) (op : BitVec 5) (p : Phase Result) : State :=
  match p with
  | .done r s => commit P e op r s
  | .raised r s => takeFault P e op r s
  | .fatal s => s

end Sys2Proof.Machine
end

