-- ==== Sys2Proof/Machine/Operands.lean ====
section
/-! DEFINITION. The operand-resolution unit (40_execution_cycle.md R116-R127), the fields the modifiers select
(30_encoding.md R89), and the run of one instruction from its operands to its commit (40_execution_cycle.md R136). -/

namespace Sys2Proof.Machine

/-! ## Modifiers (30_encoding.md R89) -/

/-- `pairs(mod)`: the (source field, destination field) pairs. The entry of I is used only where a rule says that I acts
as F. -/
def pairs (m : Modifier) : List (Field × Field) :=
  match m with
  | .a => [(.a, .a)]
  | .b => [(.b, .b)]
  | .ab => [(.a, .b)]
  | .ba => [(.b, .a)]
  | .f => [(.a, .a), (.b, .b)]
  | .x => [(.a, .b), (.b, .a)]
  | .i => [(.a, .a), (.b, .b)]

/-- `tfields(mod)`: the fields of one cell that JMZ, JMN and DJN test. -/
def tfields (m : Modifier) : List Field :=
  match m with
  | .a => [.a]
  | .ba => [.a]
  | .b => [.b]
  | .ab => [.b]
  | .f => [.a, .b]
  | .x => [.a, .b]
  | .i => [.a, .b]

/-! ## Resolution -/

/-- The snapshot at an address (40_execution_cycle.md R116). -/
def snapshot (P : Params) (e : Entry) (addr : Nat) (s : State) : Phase Resolved :=
  (memRead P e addr s).andThen fun c s => .done ⟨addr, c⟩ s

/-- A-Indirect and B-Indirect (40_execution_cycle.md R119), `sel` the pointer field. -/
def resolveIndirect (P : Params) (e : Entry) (sel : Field) (f : Int) (s : State) : Phase Resolved :=
  (memRead P e (wrap P e.pc f) s).andThen fun ptr s => snapshot P e (wrap P e.pc (f + cellField ptr sel)) s

/-- A write of a pointer field, checked for range first (40_execution_cycle.md R126). -/
def writePointer (P : Params) (e : Entry) (ptr : Nat) (sel : Field) (p : Int) (s : State) : Phase Unit :=
  if P.Fits p then fieldWrite P e ptr [(sel, p)] s else .raised .overflow s

/-- The pre-decrement modes (40_execution_cycle.md R121, R122): the pointer is decremented and written, then used; the
snapshot sees it. -/
def resolvePreDecrement (P : Params) (e : Entry) (sel : Field) (f : Int) (s : State) : Phase Resolved :=
  (memRead P e (wrap P e.pc f) s).andThen fun ptr s =>
    (writePointer P e (wrap P e.pc f) sel (cellField ptr sel - 1) s).andThen fun _ s =>
      snapshot P e (wrap P e.pc (f + (cellField ptr sel - 1))) s

/-- The post-increment modes (40_execution_cycle.md R123, R124): the pointer is used and the snapshot taken, then the
pointer is incremented and written. -/
def resolvePostIncrement (P : Params) (e : Entry) (sel : Field) (f : Int) (s : State) : Phase Resolved :=
  (memRead P e (wrap P e.pc f) s).andThen fun ptr s =>
    (snapshot P e (wrap P e.pc (f + cellField ptr sel)) s).andThen fun r s =>
      (writePointer P e (wrap P e.pc f) sel (cellField ptr sel + 1) s).andThen fun _ s => .done r s

/-- `resolveOperand(mode, fieldValue, pc)` (40_execution_cycle.md R116-R125), pc the acting entry's. With
`INCDEC_MUTATE` = false the four increment and decrement modes resolve as the plain indirect ones (R125). -/
def resolveOperand (P : Params) (e : Entry) (o : Operand) (s : State) : Phase Resolved :=
  match o.mode with
  | .immediate => snapshot P e e.pc s
  | .direct => snapshot P e (wrap P e.pc o.field) s
  | .aIndirect => resolveIndirect P e .a o.field s
  | .bIndirect => resolveIndirect P e .b o.field s
  | .aPreDecrement =>
    if P.incdecMutate then resolvePreDecrement P e .a o.field s else resolveIndirect P e .a o.field s
  | .aPostIncrement =>
    if P.incdecMutate then resolvePostIncrement P e .a o.field s else resolveIndirect P e .a o.field s
  | .bPreDecrement =>
    if P.incdecMutate then resolvePreDecrement P e .b o.field s else resolveIndirect P e .b o.field s
  | .bPostIncrement =>
    if P.incdecMutate then resolvePostIncrement P e .b o.field s else resolveIndirect P e .b o.field s

/-- Source and Destination (40_execution_cycle.md R120): the A-operand completely, any post-increment included, and then
the B-operand; for every opcode. -/
def resolveOperands (P : Params) (e : Entry) (a b : Operand) (s : State) : Phase (Resolved × Resolved) :=
  (resolveOperand P e a s).andThen fun src s =>
    (resolveOperand P e b s).andThen fun dst s => .done (src, dst) s

/-! ## One instruction -/

/-- The execute phase of an instruction: from the acting entry, Source and Destination (40_execution_cycle.md R128,
R129). -/
abbrev Execute := Entry → Resolved → Resolved → State → Phase Result

/-- One instruction after its fetch (40_execution_cycle.md R136): both operands resolved, the execute phase, the commit.
`op` is the opcode code STATUS reports. A cursor that names no entry is the model's fault (log entry 4). -/
def runInstr (P : Params) (op : BitVec 5) (a b : Operand) (execute : Execute) (s : State) : Answer :=
  match s.queue[s.cur]? with
  | none => .fault .noActingEntry
  | some e =>
    .next (endStep P e op ((resolveOperands P e a b s).andThen fun sd s => execute e sd.1 sd.2 s))

end Sys2Proof.Machine
end

