-- ==== Sys2Proof/Machine/Arithmetic.lean ====
section
/-! DEFINITION. ADD, SUB, MUL, DIV, MOD (42_arithmetic.md). -/

namespace Sys2Proof.Machine

/-- The results of an arithmetic instruction: for each pair the modifier selects, the destination field and
op(destination value, source value), exact (42_arithmetic.md R170, R176). -/
def arithResults (op : Int → Int → Int) (m : Modifier) (src dst : Cell) : List (Field × Int) :=
  (pairs m).map fun p => (p.2, op (cellField dst p.2) (cellField src p.1))

/-- A selected source field is 0 (42_arithmetic.md R170). -/
def zeroDivisor (m : Modifier) (src : Cell) : Bool := (pairs m).any fun p => cellField src p.1 == 0

/-- `Arith(op)` (42_arithmetic.md R170): the divisor check, where the opcode has one, before the range check, and both
before the one write. `divides` says that the opcode is DIV or MOD. -/
def arith (P : Params) (divides : Bool) (op : Int → Int → Int) (m : Modifier) : Execute := fun e src dst s =>
  if divides && zeroDivisor m src.cell then .raised .divZero s
  else if (arithResults op m src.cell dst.cell).all fun w => decide (P.Fits w.2) then
    (fieldWrite P e dst.addr (arithResults op m src.cell dst.cell) s).andThen fun _ s => .done ⟨none, false, .ok⟩ s
  else .raised .overflow s

/-- `tdiv(a, b)`: division truncated toward zero (00_scope.md R8). -/
def tdiv (a b : Int) : Int := Int.tdiv a b

/-- `trem(a, b)` = a - b * tdiv(a, b) (00_scope.md R8). -/
def trem (a b : Int) : Int := a - b * tdiv a b

/-- The execute phase of ADD (42_arithmetic.md R171). -/
def addEffect (P : Params) (m : Modifier) : Execute := arith P false (fun x y => x + y) m

/-- The execute phase of SUB: Destination - Source (42_arithmetic.md R172). -/
def subEffect (P : Params) (m : Modifier) : Execute := arith P false (fun x y => x - y) m

/-- The execute phase of MUL (42_arithmetic.md R173). -/
def mulEffect (P : Params) (m : Modifier) : Execute := arith P false (fun x y => x * y) m

/-- The execute phase of DIV: destination divided by source (42_arithmetic.md R174). -/
def divEffect (P : Params) (m : Modifier) : Execute := arith P true tdiv m

/-- The execute phase of MOD (42_arithmetic.md R175). -/
def modEffect (P : Params) (m : Modifier) : Execute := arith P true trem m

/-- ADD (42_arithmetic.md R171). -/
def execAdd (m : Modifier) (a b : Operand) (s : State) : Answer :=
  runInstr .hardware Opcode.add.code a b (addEffect .hardware m) s

/-- SUB (42_arithmetic.md R172). -/
def execSub (m : Modifier) (a b : Operand) (s : State) : Answer :=
  runInstr .hardware Opcode.sub.code a b (subEffect .hardware m) s

/-- MUL (42_arithmetic.md R173). -/
def execMul (m : Modifier) (a b : Operand) (s : State) : Answer :=
  runInstr .hardware Opcode.mul.code a b (mulEffect .hardware m) s

/-- DIV (42_arithmetic.md R174). -/
def execDiv (m : Modifier) (a b : Operand) (s : State) : Answer :=
  runInstr .hardware Opcode.div.code a b (divEffect .hardware m) s

/-- MOD (42_arithmetic.md R175). -/
def execMod (m : Modifier) (a b : Operand) (s : State) : Answer :=
  runInstr .hardware Opcode.mod.code a b (modEffect .hardware m) s

end Sys2Proof.Machine
end

