-- ==== Sys2Proof/Machine/Jumps.lean ====
section
/-! DEFINITION. JMP, JMZ, JMN, DJN (43_jumps.md). -/

namespace Sys2Proof.Machine

/-- A jump to the Source address where the condition holds, and no jump otherwise (40_execution_cycle.md R131). -/
def jumpIf (cond : Bool) (src : Resolved) : Result := ⟨if cond then some src.addr else none, false, .ok⟩

/-- All tested fields are zero (43_jumps.md R191). -/
def allZero (m : Modifier) (c : Cell) : Bool := (tfields m).all fun f => cellField c f == 0

/-- All tested fields are non-zero (43_jumps.md R192). -/
def allNonzero (m : Modifier) (c : Cell) : Bool := (tfields m).all fun f => cellField c f != 0

/-- The tested fields, each less one (43_jumps.md R193). -/
def decremented (m : Modifier) (c : Cell) : List (Field × Int) := (tfields m).map fun f => (f, cellField c f - 1)

/-- The execute phase of JMP (43_jumps.md R190). -/
def jmpEffect (_P : Params) (_m : Modifier) : Execute := fun _ src _ s => .done (jumpIf true src) s

/-- The execute phase of JMZ (43_jumps.md R191). -/
def jmzEffect (_P : Params) (m : Modifier) : Execute := fun _ src _ s => .done (jumpIf (allZero m src.cell) src) s

/-- The execute phase of JMN (43_jumps.md R192). -/
def jmnEffect (_P : Params) (m : Modifier) : Execute := fun _ src _ s => .done (jumpIf (allNonzero m src.cell) src) s

/-- The execute phase of DJN (43_jumps.md R193); with `DJN_DECREMENT` = false it is JMN's (R194). -/
def djnEffect (P : Params) (m : Modifier) : Execute := fun e src dst s =>
  if P.djnDecrement then
    if (decremented m src.cell).all fun w => decide (P.Fits w.2) then
      (fieldWrite P e src.addr (decremented m src.cell) s).andThen fun _ s =>
        .done (jumpIf ((decremented m src.cell).all fun w => w.2 != 0) src) s
    else .raised .overflow s
  else jmnEffect P m e src dst s

/-- JMP (43_jumps.md R190). -/
def execJmp (m : Modifier) (a b : Operand) (s : State) : Answer :=
  runInstr .hardware Opcode.jmp.code a b (jmpEffect .hardware m) s

/-- JMZ (43_jumps.md R191). -/
def execJmz (m : Modifier) (a b : Operand) (s : State) : Answer :=
  runInstr .hardware Opcode.jmz.code a b (jmzEffect .hardware m) s

/-- JMN (43_jumps.md R192). -/
def execJmn (m : Modifier) (a b : Operand) (s : State) : Answer :=
  runInstr .hardware Opcode.jmn.code a b (jmnEffect .hardware m) s

/-- DJN (43_jumps.md R193). -/
def execDjn (m : Modifier) (a b : Operand) (s : State) : Answer :=
  runInstr .hardware Opcode.djn.code a b (djnEffect .hardware m) s

end Sys2Proof.Machine
end

