-- ==== Sys2Proof/Machine/Move.lean ====
section
/-! DEFINITION. DAT and MOV (41_dat_mov.md). -/

namespace Sys2Proof.Machine

/-- The execute phase of DAT (41_dat_mov.md R150): the acting process dies; no jump, no write. -/
def datEffect (_P : Params) (_m : Modifier) : Execute := fun _ _ _ s => .done ⟨none, true, .killedDat⟩ s

/-- The execute phase of MOV (41_dat_mov.md R151): with I the whole snapshot cell, otherwise the fields the modifier
pairs, into the cell at the Destination address. -/
def movEffect (P : Params) (m : Modifier) : Execute := fun e src dst s =>
  (if m = .i then memWrite P e dst.addr src.cell s
   else fieldWrite P e dst.addr ((pairs m).map fun p => (p.2, cellField src.cell p.1)) s).andThen
    fun _ s => .done ⟨none, false, .ok⟩ s

/-- DAT (41_dat_mov.md R150). -/
def execDat (m : Modifier) (a b : Operand) (s : State) : Answer :=
  runInstr .hardware Opcode.dat.code a b (datEffect .hardware m) s

/-- MOV (41_dat_mov.md R151). -/
def execMov (m : Modifier) (a b : Operand) (s : State) : Answer :=
  runInstr .hardware Opcode.mov.code a b (movEffect .hardware m) s

end Sys2Proof.Machine
end

