-- ==== Sys2Proof/Machine/Skips.lean ====
section
/-! DEFINITION. CMP, SEQ, SNE, SLT (44_skips.md). -/

namespace Sys2Proof.Machine

/-- `skip_target` (44_skips.md R210; 90_conflicts.md C2). -/
def skipAddress (P : Params) (e : Entry) (src : Resolved) : Nat :=
  match P.skipTarget with
  | .pcPlus2 => wrap P e.pc 2
  | .srcPlus1 => wrap P src.addr 1

/-- A skip where the condition holds, and none otherwise (44_skips.md R210). -/
def skipIf (P : Params) (e : Entry) (cond : Bool) (src : Resolved) : Result :=
  ⟨if cond then some (skipAddress P e src) else none, false, .ok⟩

/-- `Same(mod)` (44_skips.md R211, 92_eei_decisions.md D32): with I the whole cells are equal, otherwise every selected
pair is. DESIGN CHOICE, unsafe (log entry 21): R211 holds with `sa = da` too, so AB, BA and X on one cell with unlike
fields are not the same, nor are two snapshots with a pointer update between them, against R212's "With `sa = da` every
modifier skips". -/
def same (m : Modifier) (src dst : Cell) : Bool :=
  if m = .i then decide (src = dst) else (pairs m).all fun p => cellField src p.1 == cellField dst p.2

/-- `Less(mod)` (44_skips.md R215, 92_eei_decisions.md D32): every selected pair is strictly less, signed; I acts as F.
DESIGN CHOICE, unsafe (log entry 21): the pseudocode holds with `sa = da` too, so AB or BA on one cell with unlike fields
can be less, against R215's "with `sa = da` SLT never skips". -/
def less (m : Modifier) (src dst : Cell) : Bool :=
  (pairs m).all fun p => decide (cellField src p.1 < cellField dst p.2)

/-- The execute phase of CMP (44_skips.md R212; with `sa = da`: log entry 21). -/
def cmpEffect (P : Params) (m : Modifier) : Execute := fun e src dst s =>
  .done (skipIf P e (same m src.cell dst.cell) src) s

/-- The execute phase of SEQ (44_skips.md R213; with `sa = da`: log entry 21). -/
def seqEffect (P : Params) (m : Modifier) : Execute := fun e src dst s =>
  .done (skipIf P e (same m src.cell dst.cell) src) s

/-- The execute phase of SNE (44_skips.md R214). DESIGN CHOICE, unsafe (log entry 21): it is "not `Same`" with `sa = da`
too, so AB, BA and X on one cell with unlike fields skip, against R214's "With `sa = da` SNE never skips". -/
def sneEffect (P : Params) (m : Modifier) : Execute := fun e src dst s =>
  .done (skipIf P e (!same m src.cell dst.cell) src) s

/-- The execute phase of SLT (44_skips.md R215; with `sa = da`: log entry 21). -/
def sltEffect (P : Params) (m : Modifier) : Execute := fun e src dst s =>
  .done (skipIf P e (less m src.cell dst.cell) src) s

/-- CMP (44_skips.md R212). -/
def execCmp (m : Modifier) (a b : Operand) (s : State) : Answer :=
  runInstr .hardware Opcode.cmp.code a b (cmpEffect .hardware m) s

/-- SEQ (44_skips.md R213). -/
def execSeq (m : Modifier) (a b : Operand) (s : State) : Answer :=
  runInstr .hardware Opcode.seq.code a b (seqEffect .hardware m) s

/-- SNE (44_skips.md R214). -/
def execSne (m : Modifier) (a b : Operand) (s : State) : Answer :=
  runInstr .hardware Opcode.sne.code a b (sneEffect .hardware m) s

/-- SLT (44_skips.md R215). -/
def execSlt (m : Modifier) (a b : Operand) (s : State) : Answer :=
  runInstr .hardware Opcode.slt.code a b (sltEffect .hardware m) s

end Sys2Proof.Machine
end

