-- ==== Sys2Proof/Machine/Unsupported.lean ====
section
/-! DEFINITION. NOP, the unsupported opcodes SPL, LDP, STP, DJZ, and ILLEGAL words (45_nop_unsupported.md). -/

namespace Sys2Proof.Machine

/-- The execute phase of NOP: no state change (45_nop_unsupported.md R230). -/
def nopEffect (_P : Params) (_m : Modifier) : Execute := fun _ _ _ s => .done ⟨none, false, .ok⟩ s

/-- `raise UnsupportedOpcodeError` (60_exceptions.md R242): nothing is written. -/
def raiseUnsupported : Execute := fun _ _ _ s => .raised .unsupported s

/-- The execute phase of SPL (45_nop_unsupported.md R231). -/
def splEffect (_P : Params) (_m : Modifier) : Execute := raiseUnsupported

/-- The execute phase of LDP (45_nop_unsupported.md R232). -/
def ldpEffect (_P : Params) (_m : Modifier) : Execute := raiseUnsupported

/-- The execute phase of STP (45_nop_unsupported.md R233). -/
def stpEffect (_P : Params) (_m : Modifier) : Execute := raiseUnsupported

/-- The execute phase of DJZ: no decrement is performed (45_nop_unsupported.md R234). -/
def djzEffect (_P : Params) (_m : Modifier) : Execute := raiseUnsupported

/-- NOP (45_nop_unsupported.md R230). -/
def execNop (m : Modifier) (a b : Operand) (s : State) : Answer :=
  runInstr .hardware Opcode.nop.code a b (nopEffect .hardware m) s

/-- SPL takes the UnsupportedOpcodeError fault (45_nop_unsupported.md R231). -/
def execSpl (m : Modifier) (a b : Operand) (s : State) : Answer :=
  runInstr .hardware Opcode.spl.code a b (splEffect .hardware m) s

/-- LDP takes the UnsupportedOpcodeError fault (45_nop_unsupported.md R232). -/
def execLdp (m : Modifier) (a b : Operand) (s : State) : Answer :=
  runInstr .hardware Opcode.ldp.code a b (ldpEffect .hardware m) s

/-- STP takes the UnsupportedOpcodeError fault (45_nop_unsupported.md R233). -/
def execStp (m : Modifier) (a b : Operand) (s : State) : Answer :=
  runInstr .hardware Opcode.stp.code a b (stpEffect .hardware m) s

/-- DJZ takes the UnsupportedOpcodeError fault (45_nop_unsupported.md R234). -/
def execDjz (m : Modifier) (a b : Operand) (s : State) : Answer :=
  runInstr .hardware Opcode.djz.code a b (djzEffect .hardware m) s

/-- An ILLEGAL word takes the UnsupportedOpcodeError fault; STATUS.op is the word's bits 4:0
(45_nop_unsupported.md R235; its operands: log entry 3). -/
def execIllegal (P : Params) (op : BitVec 5) (a b : Operand) (s : State) : Answer :=
  runInstr P op a b raiseUnsupported s

end Sys2Proof.Machine
end

