-- ==== Sys2Proof/Machine/Cycle.lean ====
section
/-! DEFINITION. A Step for any value of the parameters of 00_scope.md R6: the guards and the fetch, the execution of an
instruction, and the placing of an instruction where the next Step fetches it. Machine/Step.lean takes them at this
hardware's values. -/

namespace Sys2Proof.Machine

/-! ## Execution, for any parameters -/

/-- The execute phase the opcode selects (30_encoding.md R88). -/
def effectOf (P : Params) (i : Instr) : Execute :=
  match i with
  | .dat m _ _ => datEffect P m
  | .mov m _ _ => movEffect P m
  | .add m _ _ => addEffect P m
  | .sub m _ _ => subEffect P m
  | .mul m _ _ => mulEffect P m
  | .div m _ _ => divEffect P m
  | .mod m _ _ => modEffect P m
  | .jmp m _ _ => jmpEffect P m
  | .jmz m _ _ => jmzEffect P m
  | .jmn m _ _ => jmnEffect P m
  | .djz m _ _ => djzEffect P m
  | .djn m _ _ => djnEffect P m
  | .cmp m _ _ => cmpEffect P m
  | .seq m _ _ => seqEffect P m
  | .sne m _ _ => sneEffect P m
  | .slt m _ _ => sltEffect P m
  | .ldp m _ _ => ldpEffect P m
  | .stp m _ _ => stpEffect P m
  | .nop m _ _ => nopEffect P m
  | .spl m _ _ => splEffect P m

/-- The execution of an instruction after its fetch, for any parameters; at this hardware's values it is exec
(Laws.exec_eq_execWith). -/
def execWith (P : Params) (i : Instr) (s : State) : Answer :=
  runInstr P i.cell.head.opCode i.cell.a i.cell.b (effectOf P i) s

/-- The execution of a fetched cell (40_execution_cycle.md R115): the instruction it holds, by `run`, or the ILLEGAL arm
(45_nop_unsupported.md R235). -/
def execCell (P : Params) (run : Instr → State → Answer) (c : Cell) (s : State) : Answer :=
  match c.head with
  | .legal o m => run (o.instr m c.a c.b) s
  | .illegal op _ _ => execIllegal P op c.a c.b s

/-! ## Step (40_execution_cycle.md R110-R114, R136) -/

/-- `IdleDispatch(e)` (60_exceptions.md R254): STATUS, CYCLES and the cursor, and nothing else. -/
def idleDispatch (P : Params) (e : Entry) (s : State) : State :=
  advanceCursor (countCycle P { s with status := ⟨.idleDead, e.wid, e.pid, e.pc, 0⟩ })

/-- Fetch (40_execution_cycle.md R114): TOUCHED is emptied, then the cell at the entry's pc is read. -/
def fetch (P : Params) (e : Entry) (s : State) : Phase Cell := memRead P e e.pc { s with touched := [] }

/-- `Step()` (40_execution_cycle.md R136), `run` the execution of an instruction: the FATAL guard (R111), the
empty-queue guard (R112), the dead-entry guard (R113), the fetch (R114), and the execution of the fetched cell. -/
def stepBy (P : Params) (run : Instr → State → Answer) (s : State) : Answer :=
  if s.fatal then .next { s with status := { s.status with code := .fatalIndex } }
  else if s.queue = [] then .next { s with status := ⟨.emptyQueue, 0, 0, 0, 0⟩ }
  else match s.queue[s.cur]? with
    | none => .fault .noActingEntry
    | some e =>
      if e.processAlive = false ∧ P.deadDispatch = .idle then .next (idleDispatch P e s)
      else match fetch P e s with
        | .done c s' => execCell P run c s'
        | .raised _ s' => .next s'
        | .fatal s' => .next s'

/-- `Step()` for any parameters; at this hardware's values it is step (Laws.step_eq_stepWith). -/
def stepWith (P : Params) (s : State) : Answer := stepBy P (execWith P) s

/-! ## Placing an instruction (log entry 6) -/

/-- The cursor on an entry: where it names none, it goes to 0, and an empty queue gets the entry that LoadWarriors would
make first, its pc at 0 (70_reset_and_hazards.md R289). -/
def withActingEntry (s : State) : State :=
  match s.queue[s.cur]? with
  | some _ => s
  | none => { s with cur := 0, queue := if s.queue = [] then [⟨0, 0, true, true, 0⟩] else s.queue }

/-- The state with a cell stored where the next Step fetches, and nothing in the way of that fetch: FATAL clear, the
cursor on an entry, that entry's pc in the arena. -/
def placeCell (P : Params) (c : Cell) (s : State) : State :=
  let s1 := withActingEntry { s with fatal := false }
  match s1.queue[s1.cur]? with
  | none => s1
  | some e =>
    { s1 with
      queue := s1.queue.set s1.cur { e with pc := wrap P e.pc 0 }
      arena := s1.arena.write (wrap P e.pc 0) c }

end Sys2Proof.Machine
end

