-- ==== Sys2Proof/Machine/Step.lean ====
section
/-! DEFINITION. The machine's step, at this hardware's parameters, and the placing of an instruction where it fetches
next. -/

namespace Sys2Proof.Machine

/-- `Step()` (40_execution_cycle.md R110, R136). -/
def step (s : State) : Host.Outcome State Fault Refusal := stepBy .hardware exec s

/-- The state with a table word, the bits above `nbits` zero, stored where the next step fetches (log entry 6). -/
def State.withFetchWord (s : State) (nbits w : Nat) : State :=
  placeCell .hardware (decodeCell _ (tableWord nbits w)) s

end Sys2Proof.Machine
end

