-- ==== Sys2Proof/Machine/Loader.lean ====
section
/-! DEFINITION. The warrior loader, LoadWarriors (70_reset_and_hazards.md R284-R291). -/

namespace Sys2Proof.Machine

/-- Where a warrior may start (70_reset_and_hazards.md R284). -/
inductive StartMode
  | random
  | fixed (k : Int)
deriving DecidableEq, Repr

/-- One warrior to load, its code as cell words (70_reset_and_hazards.md R284). -/
structure WarriorSpec (W : Nat) where
  title : String
  tag : String
  code : List (CellWord W)
  start : StartMode
deriving DecidableEq, Repr

/-- Why LoadWarriors fails (70_reset_and_hazards.md R291). -/
inductive PlacementError
  | tooMany
  | emptyWarrior
  | invalidInstruction
  | tooLarge
  | retriesExhausted
deriving DecidableEq, Repr

/-- The reason's code (70_reset_and_hazards.md R291). -/
def PlacementError.code (e : PlacementError) : Nat :=
  match e with
  | .tooMany => 1
  | .emptyWarrior => 2
  | .invalidInstruction => 3
  | .tooLarge => 4
  | .retriesExhausted => 5

/-- `OCC[a]` (10_state.md R29). -/
def occupied (occ : List (Nat × Bool)) (a : Nat) : Bool := Sparse.get false occ a

/-- The number of addresses a with `OCC[a]` = 1 (70_reset_and_hazards.md R286). -/
def occupiedCount (P : Params) (occ : List (Nat × Bool)) : Nat :=
  (occ.filter fun kv => kv.2 && decide (kv.1 < P.coresize)).length

/-- The footprint `[start, start+len)`, wrapped (70_reset_and_hazards.md R288). -/
def footprint (P : Params) (start len : Nat) : List Nat := (List.range len).map fun (i : Nat) => wrap P start (i : Int)

/-- `candidate(j, t)` (70_reset_and_hazards.md R287); a random candidate is the draw for (j, t), taken into [0, S)
(log entry 10). -/
def candidate (P : Params) (draw : Nat → Nat → Nat) (j t : Nat) (mode : StartMode) : Nat :=
  match mode with
  | .fixed k => wrap P 0 k
  | .random => wrap P 0 (draw j t : Int)

/-- The first candidate from attempt t on, of at most `fuel`, whose footprint meets no occupied cell
(70_reset_and_hazards.md R285, R288, R290). -/
def place (P : Params) (draw : Nat → Nat → Nat) (j len : Nat) (mode : StartMode) (occ : List (Nat × Bool)) :
    (fuel t : Nat) → Option Nat
  | 0, _ => none
  | fuel + 1, t =>
    if (footprint P (candidate P draw j t mode) len).all fun a => !occupied occ a then some (candidate P draw j t mode)
    else place P draw j len mode occ fuel (t + 1)

/-- Marks a footprint (70_reset_and_hazards.md R285). -/
def mark (occ : List (Nat × Bool)) (fp : List Nat) : List (Nat × Bool) :=
  fp.foldl (fun o a => Sparse.set false o a true) occ

/-- Places the specs in order, j the index of the first: their starts and the bitmap with their footprints, or none
where one exhausts its budget of 1 + PLACE_RETRIES candidates (70_reset_and_hazards.md R285, R290). -/
def placeAll (P : Params) (draw : Nat → Nat → Nat) :
    (j : Nat) → List (WarriorSpec P.fieldBits) → List (Nat × Bool) → Option (List Nat × List (Nat × Bool))
  | _, [], occ => some ([], occ)
  | j, w :: ws, occ =>
    match place P draw j w.code.length w.start occ (1 + P.placeRetries) 0 with
    | none => none
    | some c =>
      match placeAll P draw (j + 1) ws (mark occ (footprint P c w.code.length)) with
      | none => none
      | some (cs, occ') => some (c :: cs, occ')

/-- The checks before any placement, in their order (70_reset_and_hazards.md R286). -/
def loadCheck (P : Params) (specs : List (WarriorSpec P.fieldBits)) (s : State) : Option PlacementError :=
  if P.queueCap < s.queue.length + specs.length then some .tooMany
  else if specs.any fun w => w.code.isEmpty then some .emptyWarrior
  else if specs.any fun w => w.code.any fun x => (decodeCell _ x).instr.isNone then some .invalidInstruction
  else if P.coresize < occupiedCount P s.occ + (specs.map fun w => w.code.length).sum then some .tooLarge
  else none

/-- The cells of a warrior written from address `wrap(c, i)` on (70_reset_and_hazards.md R289). -/
def writeCode (P : Params) (c : Nat) : (i : Nat) → List Cell → Memory → Memory
  | _, [], m => m
  | i, x :: xs, m => writeCode P c (i + 1) xs (m.write (wrap P c (i : Int)) x)

/-- `Commit(j, c)` (70_reset_and_hazards.md R289): the warrior record, its cells and their ACT, and its entry. -/
def commitWarrior (P : Params) (w : WarriorSpec P.fieldBits) (c : Nat) (s : State) : State :=
  { s with
    warriors := s.warriors ++ [⟨s.warriors.length, w.title, w.tag, w.code.map (decodeCell _), c⟩]
    arena := writeCode P c 0 (w.code.map (decodeCell _)) s.arena
    act := (footprint P c w.code.length).foldl (fun m a => Sparse.set none m a (some s.warriors.length)) s.act
    queue := s.queue ++ [⟨s.warriors.length, 0, true, true, c⟩] }

/-- The commits of all placed specs, in order (70_reset_and_hazards.md R285). -/
def commitAll (P : Params) : List (WarriorSpec P.fieldBits) → List Nat → State → State
  | w :: ws, c :: cs, s => commitAll P ws cs (commitWarrior P w c s)
  | _, _, s => s

/-- `LoadWarriors(specs)` (70_reset_and_hazards.md R285): the state, and the error where there is one; all or nothing.
`draw j t` is the random source's value for attempt t of spec j (R287). -/
def loadWarriors (P : Params) (draw : Nat → Nat → Nat) (specs : List (WarriorSpec P.fieldBits)) (s : State) :
    State × Option PlacementError :=
  if specs = [] then (s, none)
  else match loadCheck P specs s with
    | some e => (s, some e)
    | none =>
      match placeAll P draw 0 specs s.occ with
      | none => (s, some .retriesExhausted)
      | some (cs, occ') => ({ commitAll P specs cs s with occ := occ', touched := [] }, none)

end Sys2Proof.Machine
end

