-- ==== Sys2Proof/Machine/HostInterface.lean ====
section
/-! DEFINITION. The host interface: the eleven operations of 10_state.md R31. They are the only ways the outside reaches
the core, one at a time, between Steps (20_memory.md R66, 60_exceptions.md R267; log entry 16). -/

namespace Sys2Proof.Machine

/-! ## Reset and run control -/

/-- `Reset()` (70_reset_and_hazards.md R280): everything as at power-on but REMAINING, which stays. -/
def resetOp (s : State) : State := { State.reset with remaining := s.remaining }

/-- `SetRunning(flag)` (60_exceptions.md R257). -/
def setRunning (flag : Bool) (s : State) : State := { s with running := flag }

/-- `SetCycleBudget(n)` (60_exceptions.md R257): UNBOUNDED is none; a count is below 2^CYCLE_BITS by its type, since an
illegal value is not representable at the interface (10_state.md R27; log entry 15). -/
def setCycleBudget (P : Params) (n : Option (Fin (2 ^ P.cycleBits))) (s : State) : State :=
  { s with remaining := match n with
    | none => .unbounded
    | some k => .count k.val }

/-- The budget after a Step of RunStep (60_exceptions.md R258). -/
def spendBudget (s : State) : State :=
  match s.remaining with
  | .unbounded => s
  | .count n => { s with remaining := .count (n - 1), running := if n - 1 = 0 then false else s.running }

/-- `RunStep()` (60_exceptions.md R258). While FATAL is set it only reports it (60_exceptions.md R247; log entry 5). -/
def runStepBy (stepper : State → Answer) (s : State) : Answer :=
  if s.fatal then .next { s with status := { s.status with code := .fatalIndex } }
  else if s.running = false then .next { s with status := { s.status with code := .notRun } }
  else if s.remaining = .count 0 then .next { s with running := false, status := { s.status with code := .notRun } }
  else match stepper s with
    | .next t => .next (spendBudget t)
    | .fault r => .fault r
    | .refused r => .refused r

/-- `RunStep()` of this hardware. -/
def runStep (s : State) : Answer := runStepBy step s

/-! ## Reads -/

/-- `ReadCell(address)` (20_memory.md R58). -/
def readCell (P : Params) (address : Int) (s : State) : Cell := s.arena.read (wrap P 0 address)

/-- `ReadActivity(address)` (60_exceptions.md R263). -/
def readActivity (P : Params) (address : Int) (s : State) : Option Nat := Sparse.get none s.act (wrap P 0 address)

/-- `PopTouched()` (60_exceptions.md R264). -/
def popTouched (s : State) : State × Option Nat := ({ s with touched := s.touched.tail }, s.touched.head?)

/-- What `ReadState()` returns (60_exceptions.md R265). -/
structure StateView where
  length : Nat
  queue : List Entry
  cur : Nat
  warriors : List Warrior
  running : Bool
  remaining : Budget
  cycles : Nat
  status : Status
  fatal : Bool
deriving DecidableEq, Repr

/-- `ReadState()` (60_exceptions.md R265). -/
def readState (s : State) : StateView :=
  ⟨s.queue.length, s.queue, s.cur, s.warriors, s.running, s.remaining, s.cycles, s.status, s.fatal⟩

/-- The code of an outcome (10_state.md R28). -/
def StatusCode.number (c : StatusCode) : Nat :=
  match c with
  | .none => 0
  | .ok => 1
  | .killedDat => 2
  | .arithDivZero => 3
  | .arithOverflow => 4
  | .unsupportedOpcode => 5
  | .emptyQueue => 6
  | .fatalIndex => 7
  | .idleDead => 8
  | .notRun => 9

/-! ## FormatCell (30_encoding.md R91) -/

/-- `OPNAME`: the three-letter mnemonic (30_encoding.md R82). -/
def opName (o : Opcode) : List Char :=
  match o with
  | .dat => ['D', 'A', 'T']
  | .mov => ['M', 'O', 'V']
  | .add => ['A', 'D', 'D']
  | .sub => ['S', 'U', 'B']
  | .mul => ['M', 'U', 'L']
  | .div => ['D', 'I', 'V']
  | .mod => ['M', 'O', 'D']
  | .jmp => ['J', 'M', 'P']
  | .jmz => ['J', 'M', 'Z']
  | .jmn => ['J', 'M', 'N']
  | .djz => ['D', 'J', 'Z']
  | .djn => ['D', 'J', 'N']
  | .cmp => ['C', 'M', 'P']
  | .seq => ['S', 'E', 'Q']
  | .sne => ['S', 'N', 'E']
  | .slt => ['S', 'L', 'T']
  | .ldp => ['L', 'D', 'P']
  | .stp => ['S', 'T', 'P']
  | .nop => ['N', 'O', 'P']
  | .spl => ['S', 'P', 'L']

/-- `MODNAME` (30_encoding.md R83). -/
def modName (m : Modifier) : List Char :=
  match m with
  | .a => ['A']
  | .b => ['B']
  | .ab => ['A', 'B']
  | .ba => ['B', 'A']
  | .f => ['F']
  | .x => ['X']
  | .i => ['I']

/-- `SIGIL` (30_encoding.md R84); 123 and 125 are the codes of the opening and the closing brace. -/
def sigil (m : Mode) : Char :=
  match m with
  | .immediate => '#'
  | .direct => '$'
  | .aIndirect => '*'
  | .bIndirect => '@'
  | .aPreDecrement => Char.ofNat 123
  | .aPostIncrement => Char.ofNat 125
  | .bPreDecrement => '<'
  | .bPostIncrement => '>'

/-- The decimal digits of n, zeros before them up to the given width. -/
def padDigits (width n : Nat) : List Char :=
  List.replicate (width - (Nat.toDigits 10 n).length) '0' ++ Nat.toDigits 10 n

/-- `fmt6(x)`, the C conversion `%06d`: the width of 6 counts a leading minus (30_encoding.md R91). -/
def fmt6 (x : Int) : List Char := if x < 0 then '-' :: padDigits 5 x.natAbs else padDigits 6 x.natAbs

/-- An operand as text. -/
def operandChars (o : Operand) : List Char := sigil o.mode :: fmt6 o.field

/-- The characters of `FormatCell(address)` (30_encoding.md R91); none for an ILLEGAL cell, whose name the spec does not
give (log entry 19). -/
def formatChars (P : Params) (address : Int) (s : State) : Option (List Char) :=
  let c := s.arena.read (wrap P 0 address)
  match c.head with
  | .illegal _ _ _ => none
  | .legal o m => some (fmt6 (wrap P 0 address : Int) ++ [' '] ++ opName o ++ ['.'] ++ modName m ++ [' '] ++
      operandChars c.a ++ [','] ++ operandChars c.b)

/-- `FormatCell(address)` (30_encoding.md R91). -/
def formatCell (P : Params) (address : Int) (s : State) : Option String := (formatChars P address s).map String.ofList

/-! ## The interface as one relation -/

/-- A host operation (10_state.md R31). -/
inductive HostCall (P : Params)
  | step
  | runStep
  | setRunning (flag : Bool)
  | setCycleBudget (n : Option (Fin (2 ^ P.cycleBits)))
  | loadWarriors (specs : List (WarriorSpec P.fieldBits))
  | reset
  | readCell (address : Int)
  | formatCell (address : Int)
  | readState
  | popTouched
  | readActivity (address : Int)
deriving DecidableEq, Repr

/-- What a host operation returns (10_state.md R31). -/
inductive Reply
  | nothing
  | placed (error : Option PlacementError)
  | cell (c : Cell)
  | text (t : Option String)
  | view (v : StateView)
  | address (a : Option Nat)
  | activity (w : Option Nat)
deriving DecidableEq, Repr

/-- The state after a host operation, and its reply; `draw` is the loader's random source (10_state.md R31, R32). -/
def hostCall (P : Params) (stepper : State → Answer) (draw : Nat → Nat → Nat) (c : HostCall P) (s : State) :
    Answer × Reply :=
  match c with
  | .step => (stepper s, .nothing)
  | .runStep => (runStepBy stepper s, .nothing)
  | .setRunning flag => (.next (setRunning flag s), .nothing)
  | .setCycleBudget n => (.next (setCycleBudget P n s), .nothing)
  | .loadWarriors specs => (.next (loadWarriors P draw specs s).1, .placed (loadWarriors P draw specs s).2)
  | .reset => (.next (resetOp s), .nothing)
  | .readCell a => (.next s, .cell (readCell P a s))
  | .formatCell a => (.next s, .text (formatCell P a s))
  | .readState => (.next s, .view (readState s))
  | .popTouched => (.next (popTouched s).1, .address (popTouched s).2)
  | .readActivity a => (.next s, .activity (readActivity P a s))

/-- A host operation on this hardware. -/
def hardwareCall (draw : Nat → Nat → Nat) (c : HostCall .hardware) (s : State) : Answer × Reply :=
  hostCall .hardware step draw c s

end Sys2Proof.Machine
end

