-- ==== Sys2Proof/Safety.lean ====
section
/-! DEFINITION. The terms the statements use: the acting entry, what a commit leaves, the well-formed states of the core,
and the footprints of the loaded warriors. -/

namespace Sys2Proof

open Machine

/-- The entry the cursor names (10_state.md R24). -/
abbrev Acting (s : State) (e : Entry) : Prop := s.queue[s.cur]? = some e

/-- What the commit of a Step that e executes leaves in the queue, the cursor and the registers, on this hardware
(40_execution_cycle.md R131-R134, 10_state.md R25): from the state s to the state t, with e's program counter at `pc`
and e alive or not. The arena, ACT and TOUCHED are not its business. -/
structure Committed (s : State) (e : Entry) (op : BitVec 5) (code : StatusCode) (pc : Nat) (alive : Bool) (t : State) :
    Prop where
  queueLength : t.queue.length = s.queue.length
  acting : ∃ x, t.queue[s.cur]? = some x ∧ x.wid = e.wid ∧ x.pid = e.pid ∧ x.pc = pc ∧ x.processAlive = alive
  others : ∀ (i : Nat) (x : Entry), i ≠ s.cur → s.queue[i]? = some x → ∃ y, t.queue[i]? = some y ∧ y.wid = x.wid ∧ y.pid = x.pid ∧
    y.pc = x.pc ∧ y.processAlive = x.processAlive ∧ (x.wid ≠ e.wid → y.programAlive = x.programAlive)
  programs : ∀ x ∈ t.queue, x.wid = e.wid →
    (x.programAlive = true ↔ ∃ y ∈ t.queue, y.wid = e.wid ∧ y.processAlive = true)
  cursor : t.cur = (s.cur + 1) % s.queue.length
  status : t.status = ⟨code, e.wid, e.pid, e.pc, op⟩
  cycles : t.cycles = (s.cycles + 1) % 2 ^ 64
  fatal : t.fatal = s.fatal
  warriors : t.warriors = s.warriors
  running : t.running = s.running
  remaining : t.remaining = s.remaining
  occ : t.occ = s.occ

/-- The operands of an instruction resolve: Source, Destination, and the state after the operands' own writes
(40_execution_cycle.md R120). -/
abbrev Resolves (e : Entry) (a b : Operand) (s : State) (src dst : Resolved) (u : State) : Prop :=
  resolveOperands .hardware e a b s = .done (src, dst) u

/-- Everything but the arena, ACT and TOUCHED is as it was. -/
structure OnlyCells (s t : State) : Prop where
  queue : t.queue = s.queue
  cur : t.cur = s.cur
  warriors : t.warriors = s.warriors
  running : t.running = s.running
  remaining : t.remaining = s.remaining
  cycles : t.cycles = s.cycles
  status : t.status = s.status
  fatal : t.fatal = s.fatal
  occ : t.occ = s.occ

/-- The arena, ACT and TOUCHED are as they were: nothing was accessed. -/
structure SameCells (s t : State) : Prop where
  arena : t.arena = s.arena
  act : t.act = s.act
  touched : t.touched = s.touched

/-- One cell was written by the entry e, and nothing else accessed: that address reads `c` and is touched
(00_scope.md R10, 60_exceptions.md R262); every other address reads as before. -/
structure WroteCell (e : Entry) (s : State) (a : Nat) (c : Cell) (t : State) : Prop where
  arena : ∀ x, t.arena.read x = if x = a then c else s.arena.read x
  act : ∀ x, Sparse.get none t.act x = if x = a then some e.wid else Sparse.get none s.act x
  touched : t.touched = if a ∈ s.touched then s.touched else s.touched ++ [a]

/-- The acting process dies of a fault raised after the state u was reached: the whole of its effect
(60_exceptions.md R243). -/
structure Killed (s : State) (e : Entry) (op : BitVec 5) (code : StatusCode) (u t : State) : Prop where
  commit : Committed s e op code (wrap .hardware e.pc 1) false t
  cells : SameCells u t

/-- The well-formed states of the core, those its runs stay in (10_state.md R22-R30, 30_encoding.md R87). -/
structure Inv (P : Params) (s : State) : Prop where
  /-- The arena's list is canonical (log entry 2). -/
  arenaCanonical : s.arena.wf = true
  arenaRange : Sparse.below P.coresize s.arena = true
  /-- No cell of the arena is ILLEGAL and every field fits (30_encoding.md R87). -/
  cellsValid : ∀ kv ∈ s.arena, kv.2.WellFormed P
  /-- 10_state.md R23. -/
  pcInArena : ∀ e ∈ s.queue, e.pc < P.coresize
  /-- 10_state.md R22. -/
  queueCap : s.queue.length ≤ P.queueCap
  /-- 10_state.md R24. -/
  cursor : s.cur < s.queue.length ∨ (s.queue = [] ∧ s.cur = 0)
  /-- A warrior has at most one entry (10_state.md R22). -/
  oneEntry : (s.queue.map Entry.wid).Nodup
  widKnown : ∀ e ∈ s.queue, e.wid < s.warriors.length
  pidZero : ∀ e ∈ s.queue, e.pid = 0
  /-- 10_state.md R25. -/
  programAlive : ∀ e ∈ s.queue, e.programAlive = e.processAlive
  /-- 10_state.md R26. -/
  warriorRecords : ∀ (i : Nat) (w : Warrior), s.warriors[i]? = some w →
    w.id = i ∧ w.start < P.coresize ∧ w.code ≠ [] ∧ ∀ c ∈ w.code, c.WellFormed P
  /-- 10_state.md R27. -/
  cyclesWidth : s.cycles < 2 ^ P.cycleBits
  budgetWidth : ∀ n, s.remaining = .count n → n < 2 ^ P.cycleBits
  statusPc : s.status.pc < P.coresize
  statusOp : s.status.op.toNat < 20
  /-- IndexError never happens (20_memory.md R54). -/
  noFatal : s.fatal = false
  occCanonical : Sparse.wf false s.occ = true
  occRange : Sparse.below P.coresize s.occ = true
  actCanonical : Sparse.wf none s.act = true
  actRange : Sparse.below P.coresize s.act = true
  /-- ACT holds NONE or the id of a loaded warrior (10_state.md R30). -/
  actOwners : ∀ kv ∈ s.act, ∃ w, kv.2 = some w ∧ w < s.warriors.length
  touchedDistinct : s.touched.Nodup
  touchedRange : ∀ a ∈ s.touched, a < P.coresize

/-- The addresses of a loaded warrior's footprint (70_reset_and_hazards.md R288). -/
def Machine.Warrior.footprint (P : Params) (w : Warrior) : List Nat := Machine.footprint P w.start w.code.length

/-- The bitmap holds every footprint placed since Reset, and no two of them share an address
(70_reset_and_hazards.md R288). -/
structure FootprintsApart (P : Params) (s : State) : Prop where
  marked : ∀ w ∈ s.warriors, ∀ a ∈ w.footprint P, occupied s.occ a = true
  apart : s.warriors.Pairwise fun v w => ∀ a ∈ v.footprint P, a ∉ w.footprint P

end Sys2Proof
end

