-- ==== Sys2Proof/Certificates/Slice0/Obligations.lean ====
section
/-! DEFINITION. The statements for the provers, one for each entry of OBLIGATIONS.json, with the values they expect
written out from the rules of spec/. -/

namespace Sys2Proof.Expect

open Sys2Proof Sys2Proof.Machine

/-- The cell MOV leaves at the Destination address (41_dat_mov.md R151): S the Source snapshot, L the cell as it stands. -/
def moved (m : Modifier) (S L : Cell) : Cell :=
  match m with
  | .a => { L with a := { L.a with field := S.a.field } }
  | .b => { L with b := { L.b with field := S.b.field } }
  | .ab => { L with b := { L.b with field := S.a.field } }
  | .ba => { L with a := { L.a with field := S.b.field } }
  | .f => { L with a := { L.a with field := S.a.field }, b := { L.b with field := S.b.field } }
  | .x => { L with a := { L.a with field := S.b.field }, b := { L.b with field := S.a.field } }
  | .i => S

/-- A condition on every result of an arithmetic instruction (42_arithmetic.md R170): op(destination, source) of each
pair the modifier selects, S and D the snapshots; I acts as F. -/
def everyResult (p : Int → Prop) (op : Int → Int → Int) (m : Modifier) (S D : Cell) : Prop :=
  match m with
  | .a => p (op D.a.field S.a.field)
  | .b => p (op D.b.field S.b.field)
  | .ab => p (op D.b.field S.a.field)
  | .ba => p (op D.a.field S.b.field)
  | .f => p (op D.a.field S.a.field) ∧ p (op D.b.field S.b.field)
  | .x => p (op D.b.field S.a.field) ∧ p (op D.a.field S.b.field)
  | .i => p (op D.a.field S.a.field) ∧ p (op D.b.field S.b.field)

/-- The cell an arithmetic instruction leaves at the Destination address (42_arithmetic.md R170): L the cell as it
stands. -/
def combined (op : Int → Int → Int) (m : Modifier) (S D L : Cell) : Cell :=
  match m with
  | .a => { L with a := { L.a with field := op D.a.field S.a.field } }
  | .b => { L with b := { L.b with field := op D.b.field S.b.field } }
  | .ab => { L with b := { L.b with field := op D.b.field S.a.field } }
  | .ba => { L with a := { L.a with field := op D.a.field S.b.field } }
  | .f => { L with a := { L.a with field := op D.a.field S.a.field }, b := { L.b with field := op D.b.field S.b.field } }
  | .x => { L with a := { L.a with field := op D.a.field S.b.field }, b := { L.b with field := op D.b.field S.a.field } }
  | .i => { L with a := { L.a with field := op D.a.field S.a.field }, b := { L.b with field := op D.b.field S.b.field } }

/-- A selected source field is 0 (42_arithmetic.md R170). -/
def someDivisorZero (m : Modifier) (S : Cell) : Prop :=
  match m with
  | .a => S.a.field = 0
  | .b => S.b.field = 0
  | .ab => S.a.field = 0
  | .ba => S.b.field = 0
  | .f => S.a.field = 0 ∨ S.b.field = 0
  | .x => S.a.field = 0 ∨ S.b.field = 0
  | .i => S.a.field = 0 ∨ S.b.field = 0

/-- A condition on every field that JMZ, JMN and DJN test (30_encoding.md R89). -/
def everyTested (p : Int → Prop) (m : Modifier) (c : Cell) : Prop :=
  match m with
  | .a => p c.a.field
  | .ba => p c.a.field
  | .b => p c.b.field
  | .ab => p c.b.field
  | .f => p c.a.field ∧ p c.b.field
  | .x => p c.a.field ∧ p c.b.field
  | .i => p c.a.field ∧ p c.b.field

/-- The cell DJN leaves at the Source address (43_jumps.md R193): S the snapshot, L the cell as it stands. -/
def decremented (m : Modifier) (S L : Cell) : Cell :=
  match m with
  | .a => { L with a := { L.a with field := S.a.field - 1 } }
  | .ba => { L with a := { L.a with field := S.a.field - 1 } }
  | .b => { L with b := { L.b with field := S.b.field - 1 } }
  | .ab => { L with b := { L.b with field := S.b.field - 1 } }
  | .f => { L with a := { L.a with field := S.a.field - 1 }, b := { L.b with field := S.b.field - 1 } }
  | .x => { L with a := { L.a with field := S.a.field - 1 }, b := { L.b with field := S.b.field - 1 } }
  | .i => { L with a := { L.a with field := S.a.field - 1 }, b := { L.b with field := S.b.field - 1 } }

/-- `Same(mod)` (44_skips.md R211), with `sa = da` too (log entry 21). -/
def isSame (m : Modifier) (S D : Cell) : Prop :=
  match m with
  | .a => S.a.field = D.a.field
  | .b => S.b.field = D.b.field
  | .ab => S.a.field = D.b.field
  | .ba => S.b.field = D.a.field
  | .f => S.a.field = D.a.field ∧ S.b.field = D.b.field
  | .x => S.a.field = D.b.field ∧ S.b.field = D.a.field
  | .i => S.head = D.head ∧ S.a.mode = D.a.mode ∧ S.a.field = D.a.field ∧ S.b.mode = D.b.mode ∧ S.b.field = D.b.field

/-- `Less(mod)` (44_skips.md R215), with `sa = da` too (log entry 21). -/
def isLess (m : Modifier) (S D : Cell) : Prop :=
  match m with
  | .a => S.a.field < D.a.field
  | .b => S.b.field < D.b.field
  | .ab => S.a.field < D.b.field
  | .ba => S.b.field < D.a.field
  | .f => S.a.field < D.a.field ∧ S.b.field < D.b.field
  | .x => S.a.field < D.b.field ∧ S.b.field < D.a.field
  | .i => S.a.field < D.a.field ∧ S.b.field < D.b.field

/-- An instruction that goes to `target` where `taken` holds and to the next cell otherwise, and accesses nothing in its
execute phase (40_execution_cycle.md R131). -/
def Goes (s : State) (e : Entry) (op : BitVec 5) (taken : Prop) (target : Nat) (u t : State) : Prop :=
  (taken → Committed s e op .ok target e.processAlive t) ∧
  (¬taken → Committed s e op .ok (wrap .hardware e.pc 1) e.processAlive t) ∧ SameCells u t

/-- A pointer cell that the resolution of an operand may write: only the four increment and decrement modes do
(40_execution_cycle.md R116). -/
def pointerWritten (e : Entry) (o : Operand) (x : Nat) : Prop :=
  o.mode ∈ [Mode.aPreDecrement, .aPostIncrement, .bPreDecrement, .bPostIncrement] ∧ x = wrap .hardware e.pc o.field

/-- The address the execute phase of an instruction stores to, if it stores (20_memory.md R50). -/
def storesTo (i : Instr) (src dst : Resolved) : Option Nat :=
  match i with
  | .mov _ _ _ => some dst.addr
  | .add _ _ _ => some dst.addr
  | .sub _ _ _ => some dst.addr
  | .mul _ _ _ => some dst.addr
  | .div _ _ _ => some dst.addr
  | .mod _ _ _ => some dst.addr
  | .djn _ _ _ => some src.addr
  | .dat _ _ _ => none
  | .jmp _ _ _ => none
  | .jmz _ _ _ => none
  | .jmn _ _ _ => none
  | .djz _ _ _ => none
  | .cmp _ _ _ => none
  | .seq _ _ _ => none
  | .sne _ _ _ => none
  | .slt _ _ _ => none
  | .ldp _ _ _ => none
  | .stp _ _ _ => none
  | .nop _ _ _ => none
  | .spl _ _ _ => none

/-- The t-th candidate of the j-th spec (70_reset_and_hazards.md R287): the fixed start, or the draw, modulo S. -/
def candidateOf (draw : Nat → Nat → Nat) (j t : Nat) (w : WarriorSpec 32) : Nat :=
  match w.start with
  | .fixed k => (k % 8000).toNat
  | .random => draw j t % 8000

/-- An address of the footprint of a warrior of length `len` started at c (70_reset_and_hazards.md R288). -/
def covers (c len a : Nat) : Prop := ∃ i : Nat, i < len ∧ a = (c + i) % 8000

/-- The j-th spec at c meets a cell that was occupied before the call, or is of a spec before it
(70_reset_and_hazards.md R285, R288). -/
def collides (s : State) (specs : List (WarriorSpec 32)) (starts : Nat → Nat) (j : Nat) (w : WarriorSpec 32) (c : Nat) :
    Prop :=
  ∃ a, covers c w.code.length a ∧ (occupied s.occ a = true ∨
    ∃ (i : Nat) (v : WarriorSpec 32), i < j ∧ specs[i]? = some v ∧ covers (starts i) v.code.length a)

/-- The start of the j-th spec is its first candidate, of at most 1 + PLACE_RETRIES, that collides with nothing
(70_reset_and_hazards.md R285, R290). -/
def Chosen (draw : Nat → Nat → Nat) (s : State) (specs : List (WarriorSpec 32)) (starts : Nat → Nat) (j : Nat)
    (w : WarriorSpec 32) : Prop :=
  ∃ t : Nat, t ≤ 1000 ∧ starts j = candidateOf draw j t w ∧ ¬collides s specs starts j w (starts j) ∧
    ∀ t' : Nat, t' < t → collides s specs starts j w (candidateOf draw j t' w)

end Sys2Proof.Expect

open Sys2Proof Sys2Proof.Machine

/-! ## Encoding -/

/-- Decoding the word of a well-formed instruction gives it back (30_encoding.md R87). -/
def Obligations.DecodeGivesBackTheEncoded : Prop :=
  ∀ i : Instr, i.WellFormed .hardware → decode 32 (encode 32 i) = .ok i

/-- A word that decodes is the word of the instruction it decodes to, which is well formed (30_encoding.md R87): no two
words decode to one instruction. -/
def Obligations.EncodeGivesBackTheDecoded : Prop :=
  ∀ (w : CellWord 32) (i : Instr), decode 32 w = .ok i → encode 32 i = w ∧ i.WellFormed .hardware

/-- The decoder, bit slice by bit slice (30_encoding.md R81-R86): ILLEGAL exactly on the reserved space, and otherwise
the codes and the signed fields of the word. -/
def Obligations.DecoderReadsTheSlices : Prop :=
  ∀ w : CellWord 32,
    let op := w.extractLsb' 0 5
    let m := w.extractLsb' 5 3
    if 20 ≤ op.toNat ∨ m = 7 ∨ w.extractLsb' 14 2 ≠ 0 then ∃ err, decode 32 w = .error err
    else ∃ (o : Opcode) (k : Modifier) (am bm : Mode), o.code = op ∧ k.code = m ∧ am.code = w.extractLsb' 8 3 ∧
      bm.code = w.extractLsb' 11 3 ∧
      decode 32 w = .ok (o.instr k ⟨am, (w.extractLsb' 16 32).toInt⟩ ⟨bm, (w.extractLsb' 48 32).toInt⟩)

/-- Words of the table of 95_test_vectors.md L2.1 and the cells they stand for; every modifier code of 30_encoding.md R83
is in one of them. -/
def Obligations.WordsOfTheVectorsDecode : Prop :=
  decode 32 0x00000001_00000000_09C1 = .ok (.mov .i ⟨.direct, 0⟩ ⟨.direct, 1⟩) ∧
  decode 32 0x00000003_00000004_0842 = .ok (.add .ab ⟨.immediate, 4⟩ ⟨.direct, 3⟩) ∧
  decode 32 0x00000000_FFFFFFFE_0927 = .ok (.jmp .b ⟨.direct, -2⟩ ⟨.direct, 0⟩) ∧
  decode 32 0x00000008_00000007_3A6F = .ok (.slt .ba ⟨.aIndirect, 7⟩ ⟨.bPostIncrement, 8⟩) ∧
  decode 32 0x00000000_00000000_0933 = .ok (.spl .b ⟨.direct, 0⟩ ⟨.direct, 0⟩) ∧
  decode 32 0x00000000_00000000_0013 = .ok (.spl .a ⟨.immediate, 0⟩ ⟨.immediate, 0⟩) ∧
  decode 32 0x00000002_FFFFFFFF_34AC = .ok (.cmp .x ⟨.aPreDecrement, -1⟩ ⟨.bPreDecrement, 2⟩) ∧
  decode 32 0x7FFFFFFF_80000000_0080 = .ok (.dat .f ⟨.immediate, -2147483648⟩ ⟨.immediate, 2147483647⟩)

/-- A word is ten bytes, byte k its bits 8k+7..8k, and they decode as the word does (20_memory.md R55); a run of another
length is rejected, which is the model's choice (log entry 14). -/
def Obligations.BytesDecodeAsTheirWord : Prop :=
  (∀ w : CellWord 32, (bytesOfWord 32 w).length = 10 ∧
    (∀ k, k < 10 → (bytesOfWord 32 w)[k]? = some (w.extractLsb' (8 * k) 8)) ∧
    decodeBytes 32 (bytesOfWord 32 w) = decode 32 w) ∧
  ∀ bs : List Byte, bs.length ≠ 10 → decodeBytes 32 bs = .error (.wrongLength bs.length)

/-! ## The address unit -/

/-- `wrap(addr, delta)` is the one address of the arena congruent to addr + delta modulo S, for every size S, and the
source's own formula with a remainder that may be negative gives it; the source's two values (20_memory.md R52). -/
def Obligations.WrapIsTheResidue : Prop :=
  (∀ (P : Params) (a : Nat) (d : Int), a < P.coresize →
    wrap P a d < P.coresize ∧ (P.coresize : Int) ∣ ((wrap P a d : Int) - ((a : Int) + d)) ∧
    (∀ r : Nat, r < P.coresize → (P.coresize : Int) ∣ ((r : Int) - ((a : Int) + d)) → r = wrap P a d) ∧
    (wrap P a d : Int) = Int.tmod (Int.tmod ((a : Int) + d) P.coresize + P.coresize) P.coresize) ∧
  wrap .hardware 0 (-1) = 7999 ∧ wrap .hardware 7999 1 = 0

/-- Two deltas one after the other are their exact sum, in every arena, so a pointer is relative to its own cell; two
values at the ends of the field range (20_memory.md R53, 40_execution_cycle.md R119, 95_test_vectors.md T1). -/
def Obligations.WrapComposes : Prop :=
  (∀ (P : Params) (a : Nat) (x y : Int), 0 < P.coresize → wrap P (wrap P a x) y = wrap P a (x + y)) ∧
  wrap .hardware 0 (-2147483648) = 4352 ∧ wrap .hardware 7999 2147483647 = 3646

/-! ## Operand resolution -/

/-- Immediate and Direct (40_execution_cycle.md R117, R118). -/
def Obligations.ImmediateAndDirectResolve : Prop :=
  Mode.immediate.code = 0 ∧ Mode.direct.code = 1 ∧
  ∀ (s : State) (e : Entry) (f : Int),
    (e.pc < 8000 →
      resolveOperand .hardware e ⟨.immediate, f⟩ s = .done ⟨e.pc, s.arena.read e.pc⟩ (touch e.wid e.pc s)) ∧
    resolveOperand .hardware e ⟨.direct, f⟩ s =
      .done ⟨wrap .hardware e.pc f, s.arena.read (wrap .hardware e.pc f)⟩ (touch e.wid (wrap .hardware e.pc f) s)

/-- A-Indirect and B-Indirect (40_execution_cycle.md R119): the pointer cell is touched and then the target; the sum of
the fields is exact. -/
def Obligations.IndirectResolves : Prop :=
  Mode.aIndirect.code = 2 ∧ Mode.bIndirect.code = 3 ∧
  ∀ (s : State) (e : Entry) (f : Int) (sel : Field),
    let ptr := wrap .hardware e.pc f
    let p := cellField (s.arena.read ptr) sel
    let addr := wrap .hardware e.pc (f + p)
    resolveOperand .hardware e ⟨match sel with | .a => .aIndirect | .b => .bIndirect, f⟩ s =
      .done ⟨addr, s.arena.read addr⟩ (touch e.wid addr (touch e.wid ptr s))

/-- The pre-decrement modes (40_execution_cycle.md R121, R122, R126): the pointer field is decremented, then used, and
the snapshot sees it; where it would leave the range, OVERFLOW is raised and nothing is written. -/
def Obligations.PreDecrementResolves : Prop :=
  Mode.aPreDecrement.code = 4 ∧ Mode.bPreDecrement.code = 6 ∧
  ∀ (s : State) (e : Entry) (f : Int) (sel : Field),
    let ptr := wrap .hardware e.pc f
    let p := cellField (s.arena.read ptr) sel - 1
    let addr := wrap .hardware e.pc (f + p)
    let mode := match sel with | .a => Mode.aPreDecrement | .b => Mode.bPreDecrement
    (Params.hardware.Fits p → ∃ u, resolveOperand .hardware e ⟨mode, f⟩ s = .done ⟨addr, u.arena.read addr⟩ u ∧
      OnlyCells s u ∧
      (∀ x, u.arena.read x = if x = ptr then withCellField (s.arena.read ptr) sel p else s.arena.read x) ∧
      u.touched = (touch e.wid addr (touch e.wid ptr s)).touched) ∧
    (¬Params.hardware.Fits p → ∃ u, resolveOperand .hardware e ⟨mode, f⟩ s = .raised .overflow u ∧
      OnlyCells s u ∧ u.arena = s.arena)

/-- The post-increment modes (40_execution_cycle.md R123, R124, R126): the pointer field is used, the snapshot is taken,
then the field is incremented; where it would leave the range, OVERFLOW is raised and nothing is written. -/
def Obligations.PostIncrementResolves : Prop :=
  Mode.aPostIncrement.code = 5 ∧ Mode.bPostIncrement.code = 7 ∧
  ∀ (s : State) (e : Entry) (f : Int) (sel : Field),
    let ptr := wrap .hardware e.pc f
    let p := cellField (s.arena.read ptr) sel
    let addr := wrap .hardware e.pc (f + p)
    let mode := match sel with | .a => Mode.aPostIncrement | .b => Mode.bPostIncrement
    (Params.hardware.Fits (p + 1) → ∃ u, resolveOperand .hardware e ⟨mode, f⟩ s = .done ⟨addr, s.arena.read addr⟩ u ∧
      OnlyCells s u ∧
      (∀ x, u.arena.read x = if x = ptr then withCellField (s.arena.read ptr) sel (p + 1) else s.arena.read x) ∧
      u.touched = (touch e.wid addr (touch e.wid ptr s)).touched) ∧
    (¬Params.hardware.Fits (p + 1) → ∃ u, resolveOperand .hardware e ⟨mode, f⟩ s = .raised .overflow u ∧
      OnlyCells s u ∧ u.arena = s.arena ∧ u.touched = (touch e.wid addr (touch e.wid ptr s)).touched)

/-- `INCDEC_MUTATE` = false (40_execution_cycle.md R125): the four modes resolve as the plain indirect ones. -/
def Obligations.WithoutMutationTheModesAreIndirect : Prop :=
  ∀ (P : Params) (s : State) (e : Entry) (f : Int), P.incdecMutate = false →
    resolveOperand P e ⟨.aPreDecrement, f⟩ s = resolveOperand P e ⟨.aIndirect, f⟩ s ∧
    resolveOperand P e ⟨.aPostIncrement, f⟩ s = resolveOperand P e ⟨.aIndirect, f⟩ s ∧
    resolveOperand P e ⟨.bPreDecrement, f⟩ s = resolveOperand P e ⟨.bIndirect, f⟩ s ∧
    resolveOperand P e ⟨.bPostIncrement, f⟩ s = resolveOperand P e ⟨.bIndirect, f⟩ s

/-- The frame of the resolution of both operands (40_execution_cycle.md R116, R120): the two addresses are in the arena;
no cell is written but the pointer cells of increment and decrement modes, B's pointer computed from the same pc; the
queue and the registers are as before. -/
def Obligations.ResolutionFrame : Prop :=
  ∀ (s u : State) (e : Entry) (a b : Operand) (src dst : Resolved), Resolves e a b s src dst u →
    src.addr < 8000 ∧ dst.addr < 8000 ∧ OnlyCells s u ∧
    ∀ x, ¬Expect.pointerWritten e a x → ¬Expect.pointerWritten e b x → u.arena.read x = s.arena.read x

/-- How the two operands resolve (40_execution_cycle.md R120): Source is the A-operand, resolved completely, and
Destination the B-operand, resolved in the state that leaves; a fault of A ends the resolution, and one of B comes after
A is done (R126, 60_exceptions.md R245). And when they do, the pc being in the arena (R116, R126): always, or
OVERFLOW is raised; always where no mode is an increment or decrement mode; and always where every field of the arena
is at least 2 inside the field range, since each operand moves one pointer field by at most 1. -/
def Obligations.OperandsResolve : Prop :=
  (∀ (s u : State) (e : Entry) (a b : Operand) (src dst : Resolved), Resolves e a b s src dst u ↔
    ∃ v, resolveOperand .hardware e a s = .done src v ∧ resolveOperand .hardware e b v = .done dst u) ∧
  (∀ (s u : State) (e : Entry) (a b : Operand) (r : Raise), resolveOperands .hardware e a b s = .raised r u ↔
    resolveOperand .hardware e a s = .raised r u ∨
    ∃ src v, resolveOperand .hardware e a s = .done src v ∧ resolveOperand .hardware e b v = .raised r u) ∧
  ∀ (s : State) (e : Entry) (a b : Operand), e.pc < 8000 →
    let moving := [Mode.aPreDecrement, .aPostIncrement, .bPreDecrement, .bPostIncrement]
    ((∃ src dst u, Resolves e a b s src dst u) ∨ ∃ u, resolveOperands .hardware e a b s = .raised .overflow u) ∧
    (a.mode ∉ moving → b.mode ∉ moving → ∃ src dst u, Resolves e a b s src dst u) ∧
    ((∀ (x : Nat) (f : Field), Params.hardware.Fits (cellField (s.arena.read x) f - 2) ∧
      Params.hardware.Fits (cellField (s.arena.read x) f + 2)) → ∃ src dst u, Resolves e a b s src dst u)

/-! ## DAT and MOV -/

/-- DAT (41_dat_mov.md R150). -/
def Obligations.DatKillsTheActingProcess : Prop :=
  ∀ (s u : State) (e : Entry) (m : Modifier) (a b : Operand) (src dst : Resolved), Acting s e →
    Resolves e a b s src dst u → ∃ t, exec (.dat m a b) s = .next t ∧ Killed s e 0 .killedDat u t

/-- MOV (41_dat_mov.md R151). -/
def Obligations.MovCopies : Prop :=
  ∀ (s u : State) (e : Entry) (m : Modifier) (a b : Operand) (src dst : Resolved), Acting s e →
    Resolves e a b s src dst u → ∃ t, exec (.mov m a b) s = .next t ∧
      Committed s e 1 .ok (wrap .hardware e.pc 1) e.processAlive t ∧
      WroteCell e u dst.addr (Expect.moved m src.cell (u.arena.read dst.addr)) t

/-! ## Arithmetic -/

/-- ADD, SUB, MUL (42_arithmetic.md R171-R173): where every result fits, the exact results are stored; where one does
not, the acting process dies and the execute phase writes nothing. -/
def Obligations.AddSubMulStoreOrOverflow : Prop :=
  ∀ (s u : State) (e : Entry) (m : Modifier) (a b : Operand) (src dst : Resolved), Acting s e →
    Resolves e a b s src dst u →
    let fits := fun op => Expect.everyResult Params.hardware.Fits op m src.cell dst.cell
    let result := fun op => Expect.combined op m src.cell dst.cell (u.arena.read dst.addr)
    (fits (fun x y => x + y) →
      ∃ t, exec (.add m a b) s = .next t ∧ Committed s e 2 .ok (wrap .hardware e.pc 1) e.processAlive t ∧
        WroteCell e u dst.addr (result fun x y => x + y) t) ∧
    (¬fits (fun x y => x + y) → ∃ t, exec (.add m a b) s = .next t ∧ Killed s e 2 .arithOverflow u t) ∧
    (fits (fun x y => x - y) →
      ∃ t, exec (.sub m a b) s = .next t ∧ Committed s e 3 .ok (wrap .hardware e.pc 1) e.processAlive t ∧
        WroteCell e u dst.addr (result fun x y => x - y) t) ∧
    (¬fits (fun x y => x - y) → ∃ t, exec (.sub m a b) s = .next t ∧ Killed s e 3 .arithOverflow u t) ∧
    (fits (fun x y => x * y) →
      ∃ t, exec (.mul m a b) s = .next t ∧ Committed s e 4 .ok (wrap .hardware e.pc 1) e.processAlive t ∧
        WroteCell e u dst.addr (result fun x y => x * y) t) ∧
    (¬fits (fun x y => x * y) → ∃ t, exec (.mul m a b) s = .next t ∧ Killed s e 4 .arithOverflow u t)

/-- DIV and MOD (42_arithmetic.md R174, R175): a zero divisor in any selected pair kills the acting process, whatever the
other pair and whatever overflows; otherwise DIV stores the truncated quotients, or overflows, and MOD stores the
remainders, which always fit. A fault of the execute phase writes nothing. -/
def Obligations.DivModStoreOrFault : Prop :=
  ∀ (s u : State) (e : Entry) (m : Modifier) (a b : Operand) (src dst : Resolved), Acting s e →
    Resolves e a b s src dst u →
    let zero := Expect.someDivisorZero m src.cell
    let fits := Expect.everyResult Params.hardware.Fits Int.tdiv m src.cell dst.cell
    (zero → ∃ t, exec (.div m a b) s = .next t ∧ Killed s e 5 .arithDivZero u t) ∧
    (¬zero → fits →
      ∃ t, exec (.div m a b) s = .next t ∧ Committed s e 5 .ok (wrap .hardware e.pc 1) e.processAlive t ∧
        WroteCell e u dst.addr (Expect.combined Int.tdiv m src.cell dst.cell (u.arena.read dst.addr)) t) ∧
    (¬zero → ¬fits → ∃ t, exec (.div m a b) s = .next t ∧ Killed s e 5 .arithOverflow u t) ∧
    (zero → ∃ t, exec (.mod m a b) s = .next t ∧ Killed s e 6 .arithDivZero u t) ∧
    (¬zero → src.cell.WellFormed .hardware →
      ∃ t, exec (.mod m a b) s = .next t ∧ Committed s e 6 .ok (wrap .hardware e.pc 1) e.processAlive t ∧
        WroteCell e u dst.addr (Expect.combined Int.tmod m src.cell dst.cell (u.arena.read dst.addr)) t)

/-- `tdiv` and `trem` (00_scope.md R8, 42_arithmetic.md R174, R175): x = y tdiv + trem, the remainder is smaller than
the divisor and has the sign of the dividend, and of two fields only FMIN / -1 has a quotient out of range. -/
def Obligations.TruncatedDivisionLaws : Prop :=
  ∀ x y : Int, y ≠ 0 →
    x = y * tdiv x y + trem x y ∧ (trem x y).natAbs < y.natAbs ∧ (0 ≤ x → 0 ≤ trem x y) ∧ (x ≤ 0 → trem x y ≤ 0) ∧
    (Params.hardware.Fits y → Params.hardware.Fits (trem x y)) ∧
    (Params.hardware.Fits x → (¬Params.hardware.Fits (tdiv x y) ↔ x = -2147483648 ∧ y = -1))

/-! ## Jumps -/

/-- JMP, JMZ, JMN (43_jumps.md R190-R192): the target is the Source address, the tested cell the Source; neither zero
test is the negation of the other where two fields are tested. -/
def Obligations.JumpsGoToTheSourceAddress : Prop :=
  ∀ (s u : State) (e : Entry) (m : Modifier) (a b : Operand) (src dst : Resolved), Acting s e →
    Resolves e a b s src dst u →
    (∃ t, exec (.jmp m a b) s = .next t ∧ Expect.Goes s e 7 True src.addr u t) ∧
    (∃ t, exec (.jmz m a b) s = .next t ∧
      Expect.Goes s e 8 (Expect.everyTested (fun v => v = 0) m src.cell) src.addr u t) ∧
    (∃ t, exec (.jmn m a b) s = .next t ∧
      Expect.Goes s e 9 (Expect.everyTested (fun v => v ≠ 0) m src.cell) src.addr u t)

/-- DJN (43_jumps.md R193): the tested fields of the Source cell, each less one, are written, and the jump is taken
where all of them are non-zero; where one leaves the range the process dies and nothing is written. -/
def Obligations.DjnDecrementsAndJumps : Prop :=
  ∀ (s u : State) (e : Entry) (m : Modifier) (a b : Operand) (src dst : Resolved), Acting s e →
    Resolves e a b s src dst u →
    (Expect.everyTested (fun v => Params.hardware.Fits (v - 1)) m src.cell →
      ∃ t, exec (.djn m a b) s = .next t ∧
        (Expect.everyTested (fun v => v - 1 ≠ 0) m src.cell → Committed s e 11 .ok src.addr e.processAlive t) ∧
        (¬Expect.everyTested (fun v => v - 1 ≠ 0) m src.cell →
          Committed s e 11 .ok (wrap .hardware e.pc 1) e.processAlive t) ∧
        WroteCell e u src.addr (Expect.decremented m src.cell (u.arena.read src.addr)) t) ∧
    (¬Expect.everyTested (fun v => Params.hardware.Fits (v - 1)) m src.cell →
      ∃ t, exec (.djn m a b) s = .next t ∧ Killed s e 11 .arithOverflow u t)

/-- `DJN_DECREMENT` = false (43_jumps.md R194): the execute phase of DJN is that of JMN. -/
def Obligations.WithoutDecrementDjnIsJmn : Prop :=
  ∀ (P : Params) (m : Modifier) (a b : Operand) (e : Entry) (src dst : Resolved) (s : State), P.djnDecrement = false →
    effectOf P (.djn m a b) e src dst s = effectOf P (.jmn m a b) e src dst s

/-! ## Skips -/

/-- CMP and SEQ (44_skips.md R210-R213): a taken skip goes to `wrap(pc, 2)`. That the comparison of R211 holds with
`sa = da` too, against R212's sentence on that case, is the model's choice (log entry 21). -/
def Obligations.CmpAndSeqSkipWhereTheSame : Prop :=
  ∀ (s u : State) (e : Entry) (m : Modifier) (a b : Operand) (src dst : Resolved), Acting s e →
    Resolves e a b s src dst u →
    (∃ t, exec (.cmp m a b) s = .next t ∧
      Expect.Goes s e 12 (Expect.isSame m src.cell dst.cell) (wrap .hardware e.pc 2) u t) ∧
    (∃ t, exec (.seq m a b) s = .next t ∧
      Expect.Goes s e 13 (Expect.isSame m src.cell dst.cell) (wrap .hardware e.pc 2) u t)

/-- SNE and SLT (44_skips.md R214, R215). That their conditions hold with `sa = da` too, against the two rules' sentences
on that case, is the model's choice (log entry 21). -/
def Obligations.SneAndSltSkip : Prop :=
  ∀ (s u : State) (e : Entry) (m : Modifier) (a b : Operand) (src dst : Resolved), Acting s e →
    Resolves e a b s src dst u →
    (∃ t, exec (.sne m a b) s = .next t ∧
      Expect.Goes s e 14 (¬Expect.isSame m src.cell dst.cell) (wrap .hardware e.pc 2) u t) ∧
    (∃ t, exec (.slt m a b) s = .next t ∧
      Expect.Goes s e 15 (Expect.isLess m src.cell dst.cell) (wrap .hardware e.pc 2) u t)

/-- CMP and SEQ on the same operands do the same in every state, but for the opcode that STATUS names
(44_skips.md R213). -/
def Obligations.CmpAndSeqDifferOnlyInStatusOp : Prop :=
  ∀ (s t : State) (m : Modifier) (a b : Operand), exec (.cmp m a b) s = .next t →
    t.status.code ≠ .fatalIndex → exec (.seq m a b) s = .next { t with status := { t.status with op := 13 } }

/-- `SKIP_TARGET` (44_skips.md R210): for both its values, the execute phase of each of the four goes to `skip_target`
where its condition holds and nowhere otherwise, and changes nothing. With `sa = da` the conditions are the model's
choice (log entry 21). -/
def Obligations.SkipTargetFollowsTheParameter : Prop :=
  ∀ (P : Params) (m : Modifier) (a b : Operand) (e : Entry) (src dst : Resolved) (s : State) (i : Instr) (cond : Prop),
    (i, cond) ∈ [(Instr.cmp m a b, Expect.isSame m src.cell dst.cell), (.seq m a b, Expect.isSame m src.cell dst.cell),
      (.sne m a b, ¬Expect.isSame m src.cell dst.cell), (.slt m a b, Expect.isLess m src.cell dst.cell)] →
    (cond → P.skipTarget = .pcPlus2 → effectOf P i e src dst s = .done ⟨some (wrap P e.pc 2), false, .ok⟩ s) ∧
    (cond → P.skipTarget = .srcPlus1 → effectOf P i e src dst s = .done ⟨some (wrap P src.addr 1), false, .ok⟩ s) ∧
    (¬cond → effectOf P i e src dst s = .done ⟨none, false, .ok⟩ s)

/-! ## NOP, the unsupported opcodes, ILLEGAL words -/

/-- NOP (45_nop_unsupported.md R230). -/
def Obligations.NopOnlyAdvances : Prop :=
  ∀ (s u : State) (e : Entry) (m : Modifier) (a b : Operand) (src dst : Resolved), Acting s e →
    Resolves e a b s src dst u → ∃ t, exec (.nop m a b) s = .next t ∧
      Committed s e 18 .ok (wrap .hardware e.pc 1) e.processAlive t ∧ SameCells u t

/-- SPL, LDP, STP and DJZ take the UnsupportedOpcodeError fault, each named by its code in STATUS
(45_nop_unsupported.md R231-R234, 60_exceptions.md R242, R243). -/
def Obligations.UnsupportedOpcodesFault : Prop :=
  ∀ (s u : State) (e : Entry) (m : Modifier) (a b : Operand) (src dst : Resolved), Acting s e →
    Resolves e a b s src dst u →
    (∃ t, exec (.spl m a b) s = .next t ∧ Killed s e 19 .unsupportedOpcode u t) ∧
    (∃ t, exec (.ldp m a b) s = .next t ∧ Killed s e 16 .unsupportedOpcode u t) ∧
    (∃ t, exec (.stp m a b) s = .next t ∧ Killed s e 17 .unsupportedOpcode u t) ∧
    (∃ t, exec (.djz m a b) s = .next t ∧ Killed s e 10 .unsupportedOpcode u t)

/-- A Step that fetches an ILLEGAL cell takes the UnsupportedOpcodeError fault, STATUS.op its low five bits
(45_nop_unsupported.md R235). That its operands are the same slices of its word as any other's is the model's reading
(log entry 3). -/
def Obligations.IllegalWordFaults : Prop :=
  ∀ (s u : State) (e : Entry) (w : CellWord 32) (src dst : Resolved), s.fatal = false → Acting s e → e.pc < 8000 →
    s.arena.read e.pc = decodeCell 32 w → (∃ err, decode 32 w = .error err) →
    Resolves e (decodeCell 32 w).a (decodeCell 32 w).b
      { s with touched := [e.pc], act := Sparse.set none s.act e.pc (some e.wid) } src dst u →
    ∃ t, step s = .next t ∧ Killed s e (w.extractLsb' 0 5) .unsupportedOpcode u t

/-! ## Faults -/

/-- A fault raised while the operands resolve kills the acting process whatever the opcode: no later phase runs, and the
writes already made stay (40_execution_cycle.md R126, 60_exceptions.md R243, R245). -/
def Obligations.ResolutionFaultKillsWhateverTheOpcode : Prop :=
  ∀ (s u : State) (e : Entry) (i : Instr) (r : Raise), Acting s e →
    resolveOperands .hardware e i.cell.a i.cell.b s = .raised r u →
    r = .overflow ∧ ∃ t, exec i s = .next t ∧ Killed s e i.cell.head.opCode .arithOverflow u t

/-- An execute phase that raises a fault writes nothing (40_execution_cycle.md R130): the state is as it was before the
phase, for every instruction and every value of the parameters. -/
def Obligations.FaultingExecuteWritesNothing : Prop :=
  ∀ (P : Params) (i : Instr) (e : Entry) (src dst : Resolved) (s u : State) (r : Raise),
    effectOf P i e src dst s = .raised r u → u = s

/-- IndexError (60_exceptions.md R247): an access outside the arena makes no access and latches FATAL; a Step of an entry
whose pc is outside ends with no commit; and from then on Step and RunStep only report FATAL_INDEX. Two clauses are the
model's choice: what RunStep does with FATAL set (R247 over the pseudocode of R258, log entry 5), and that a Step which
latches FATAL at its fetch keeps TOUCHED emptied (log entry 18). -/
def Obligations.IndexErrorLatchesFatal : Prop :=
  (∀ (P : Params) (e : Entry) (a : Nat) (c : Cell) (ws : List (Field × Int)) (s : State), ¬a < P.coresize →
    memRead P e a s = .fatal { s with fatal := true, status := { s.status with code := .fatalIndex } } ∧
    memWrite P e a c s = .fatal { s with fatal := true, status := { s.status with code := .fatalIndex } } ∧
    fieldWrite P e a ws s = .fatal { s with fatal := true, status := { s.status with code := .fatalIndex } }) ∧
  (∀ (s : State) (e : Entry), s.fatal = false → Acting s e → ¬e.pc < 8000 →
    step s = .next { s with touched := [], fatal := true, status := { s.status with code := .fatalIndex } }) ∧
  (∀ s : State, s.fatal = true →
    step s = .next { s with status := { s.status with code := .fatalIndex } } ∧
    runStep s = .next { s with status := { s.status with code := .fatalIndex } })

/-- Only Reset clears FATAL (60_exceptions.md R247): every other host operation leaves it set. -/
def Obligations.OnlyResetClearsFatal : Prop :=
  ∀ (draw : Nat → Nat → Nat) (c : HostCall .hardware) (s t : State), s.fatal = true →
    (hardwareCall draw c s).1 = .next t → (t.fatal = false ↔ c = .reset)

/-- No instruction stops: for an acting entry every one of the 20 answers a next state, whatever its modifier, modes
and fields, the fail-soft faults being next states (60_exceptions.md R243); and a Step stops only where the cursor names
no entry of a non-empty queue, which 10_state.md R24 excludes (log entry 4: the model's own fault). -/
def Obligations.NoInstructionStops : Prop :=
  (∀ (i : Instr) (s : State) (e : Entry), Acting s e → ∃ t, exec i s = .next t) ∧
  ∀ s : State, (∃ t, step s = .next t) ∨
    (step s = .fault .noActingEntry ∧ s.fatal = false ∧ s.queue ≠ [] ∧ s.queue.length ≤ s.cur)

/-! ## Frames and rules of the whole machine -/

/-- The arena frame of every instruction: outside the pointer cells of its operands' increment and decrement modes and
the address its execute phase stores to, every cell reads as before (20_memory.md R57, 40_execution_cycle.md R116,
R128). -/
def Obligations.ArenaFrame : Prop :=
  ∀ (i : Instr) (s t : State) (e : Entry) (x : Nat), Acting s e → exec i s = .next t →
    ¬Expect.pointerWritten e i.cell.a x → ¬Expect.pointerWritten e i.cell.b x →
    (∀ (src dst : Resolved) (u : State), Resolves e i.cell.a i.cell.b s src dst u → Expect.storesTo i src dst ≠ some x) →
    t.arena.read x = s.arena.read x

/-- What a Step records and what it leaves (60_exceptions.md R262, 20_memory.md R57): TOUCHED begins with the pc and
repeats no address, every address in it has the acting warrior in ACT, and outside it no cell and no ACT entry
changes. -/
def Obligations.StepTouchesAreRecorded : Prop :=
  ∀ (s t : State) (e : Entry), s.fatal = false → Acting s e → e.pc < 8000 → step s = .next t →
    t.touched.head? = some e.pc ∧ t.touched.Nodup ∧ (∀ x ∈ t.touched, x < 8000) ∧
    (∀ x ∈ t.touched, Sparse.get none t.act x = some e.wid) ∧
    ∀ x, x ∉ t.touched → t.arena.read x = s.arena.read x ∧ Sparse.get none t.act x = Sparse.get none s.act x

/-- No Step reaches the warrior table, OCC, RUNNING, REMAINING or another entry's pc and liveness, and no Step revives a
dead process (45_nop_unsupported.md R236, 40_execution_cycle.md R132, 10_state.md R25). -/
def Obligations.StepIsConfinedToItsProcess : Prop :=
  ∀ s t : State, step s = .next t →
    t.warriors = s.warriors ∧ t.occ = s.occ ∧ t.running = s.running ∧ t.remaining = s.remaining ∧
    t.queue.length = s.queue.length ∧
    ∀ (k : Nat) (x : Entry), s.queue[k]? = some x → ∃ y, t.queue[k]? = some y ∧ y.wid = x.wid ∧ y.pid = x.pid ∧
      (y.processAlive = true → x.processAlive = true) ∧
      (k ≠ s.cur → y.pc = x.pc ∧ y.processAlive = x.processAlive)

/-! ## Step -/

/-- A Step runs the decoded instruction: TOUCHED is emptied, the cell at the pc is read and touched, and the rest is exec
(40_execution_cycle.md R114, R115, R136). -/
def Obligations.StepRunsTheDecodedInstruction : Prop :=
  ∀ (s : State) (e : Entry) (w : CellWord 32) (i : Instr), s.fatal = false → Acting s e → e.pc < 8000 →
    s.arena.read e.pc = decodeCell 32 w → decode 32 w = .ok i →
    step s = exec i { s with touched := [e.pc], act := Sparse.set none s.act e.pc (some e.wid) }

/-- A word placed with withFetchWord stands where the next Step fetches, in every state (log entry 6: the model's own
stand-in for a load). -/
def Obligations.PlacedWordIsFetchedNext : Prop :=
  ∀ (s : State) (w : CellWord 32), ∃ e, Acting (s.withFetchWord 80 w.toNat) e ∧ e.pc < 8000 ∧
    (s.withFetchWord 80 w.toNat).fatal = false ∧
    (s.withFetchWord 80 w.toNat).arena.read e.pc = decodeCell 32 w

/-- The FATAL guard (40_execution_cycle.md R111). -/
def Obligations.FatalGuard : Prop :=
  ∀ s : State, s.fatal = true → step s = .next { s with status := { s.status with code := .fatalIndex } }

/-- The empty-queue guard (40_execution_cycle.md R112). -/
def Obligations.EmptyQueueGuard : Prop :=
  ∀ s : State, s.fatal = false → s.queue = [] → step s = .next { s with status := ⟨.emptyQueue, 0, 0, 0, 0⟩ }

/-- `DEAD_DISPATCH` = IDLE (60_exceptions.md R254): a dead entry's dispatch changes STATUS, CYCLES and the cursor. -/
def Obligations.IdleDispatchOfADeadEntry : Prop :=
  ∀ (P : Params) (s : State) (e : Entry), P.deadDispatch = .idle → s.fatal = false → Acting s e →
    e.processAlive = false →
    stepWith P s = .next { s with
      status := ⟨.idleDead, e.wid, e.pid, e.pc, 0⟩
      cycles := (s.cycles + 1) % 2 ^ P.cycleBits
      cur := (s.cur + 1) % s.queue.length }

/-- `DEAD_DISPATCH` = PRUNE (60_exceptions.md R256): the commit of a Step that leaves its entry dead removes it, and the
cursor names the entry that followed, or 0. That an entry dead before its Step is removed so too is the model's reading of
40_execution_cycle.md R136 (log entry 20). -/
def Obligations.PruneRemovesTheKilledEntry : Prop :=
  ∀ (P : Params) (s : State) (e : Entry) (op : BitVec 5) (r : Result), P.deadDispatch = .prune → Acting s e →
    (e.processAlive = false ∨ r.killed = true) →
    let t := commit P e op r s
    t.queue.length + 1 = s.queue.length ∧
    (∀ (k : Nat) (x : Entry), k < s.cur → s.queue[k]? = some x → ∃ y, t.queue[k]? = some y ∧ y.wid = x.wid ∧ y.pc = x.pc) ∧
    (∀ (k : Nat) (x : Entry), s.cur < k → s.queue[k]? = some x →
      ∃ y, t.queue[k - 1]? = some y ∧ y.wid = x.wid ∧ y.pc = x.pc) ∧
    (t.cur = if s.cur + 1 = s.queue.length then 0 else s.cur) ∧ t.arena = s.arena ∧ t.warriors = s.warriors

/-- Every Step keeps the invariant of the core (10_state.md R22-R30, 30_encoding.md R87, 20_memory.md R54). -/
def Obligations.StepKeepsTheInvariant : Prop :=
  ∀ s t : State, Inv .hardware s → step s = .next t → Inv .hardware t

/-- The state at power-on meets the invariant (10_state.md R33). -/
def Obligations.ResetMeetsTheInvariant : Prop := Inv .hardware State.reset

/-- From every well-formed state with n entries, k Steps complete, none faults or is refused, and the cursor has moved
by k modulo n: each entry is dispatched once in every n Steps (60_exceptions.md R251, R252). -/
def Obligations.RoundRobin : Prop :=
  ∀ (k : Nat) (s : State), Inv .hardware s → s.queue ≠ [] →
    ∃ t : State, Host.Core.run Sys2Proof.core k s = .next t ∧ t.cur = (s.cur + k) % s.queue.length ∧ t.queue.length = s.queue.length ∧
      t.cycles = (s.cycles + k) % 2 ^ 64

/-! ## The host interface -/

/-- Reset (70_reset_and_hazards.md R280, 20_memory.md R51): every cell is `DAT.F $0, $0`, whose word ends in 0x0980, and
everything is empty or 0 but REMAINING, which stays. -/
def Obligations.ResetEmptiesTheCore : Prop :=
  ∀ (s : State) (a : Nat),
    (resetOp s).arena.read a = (Instr.dat .f ⟨.direct, 0⟩ ⟨.direct, 0⟩).cell ∧
    encode 32 (.dat .f ⟨.direct, 0⟩ ⟨.direct, 0⟩) = 0x0980 ∧
    Sparse.get none (resetOp s).act a = none ∧ occupied (resetOp s).occ a = false ∧ (resetOp s).queue = [] ∧
    (resetOp s).cur = 0 ∧ (resetOp s).warriors = [] ∧ (resetOp s).touched = [] ∧ (resetOp s).running = false ∧
    (resetOp s).cycles = 0 ∧ (resetOp s).status = ⟨.none, 0, 0, 0, 0⟩ ∧ (resetOp s).fatal = false ∧
    (resetOp s).remaining = s.remaining

/-- SetRunning and SetCycleBudget (60_exceptions.md R257). -/
def Obligations.SettersWriteOneRegister : Prop :=
  ∀ (s : State) (flag : Bool) (n : Fin (2 ^ 64)),
    setRunning flag s = { s with running := flag } ∧
    setCycleBudget .hardware none s = { s with remaining := .unbounded } ∧
    setCycleBudget .hardware (some n) s = { s with remaining := .count n.val }

/-- RunStep (60_exceptions.md R258), FATAL clear: gated by RUNNING and by the budget, it takes one Step, counts the budget
down and stops at its end. -/
def Obligations.RunStepIsGated : Prop :=
  ∀ s : State, s.fatal = false →
    (s.running = false → runStep s = .next { s with status := { s.status with code := .notRun } }) ∧
    (s.running = true → s.remaining = .count 0 →
      runStep s = .next { s with running := false, status := { s.status with code := .notRun } }) ∧
    (∀ t, s.running = true → s.remaining = .unbounded → step s = .next t →
      t.remaining = .unbounded ∧ runStep s = .next t) ∧
    (∀ (t : State) (n : Nat), s.running = true → s.remaining = .count (n + 1) → step s = .next t →
      runStep s = .next { t with remaining := .count n, running := if n = 0 then false else true })

/-- The host's reads change nothing and take any integer address (20_memory.md R58, 60_exceptions.md R263, R265). -/
def Obligations.HostReadsChangeNothing : Prop :=
  ∀ (draw : Nat → Nat → Nat) (a : Int) (s : State),
    hardwareCall draw (.readCell a) s = (.next s, .cell (s.arena.read (a % 8000).toNat)) ∧
    hardwareCall draw (.readActivity a) s = (.next s, .activity (Sparse.get none s.act (a % 8000).toNat)) ∧
    (hardwareCall draw (.formatCell a) s).1 = .next s ∧
    hardwareCall draw .readState s = (.next s, .view ⟨s.queue.length, s.queue, s.cur, s.warriors, s.running, s.remaining,
      s.cycles, s.status, s.fatal⟩)

/-- FormatCell on the vectors of 95_test_vectors.md L2.2 (30_encoding.md R91), at an address given directly and at ones
that wrap. -/
def Obligations.FormatCellOnTheVectors : Prop :=
  formatCell .hardware 5 { State.reset with arena := [(5, (Instr.jmp .b ⟨.direct, -2⟩ ⟨.direct, 0⟩).cell)] } =
    some "000005 JMP.B $-00002,$000000" ∧
  formatCell .hardware 8005 { State.reset with arena := [(5, (Instr.slt .ba ⟨.aIndirect, 7⟩ ⟨.bPostIncrement, 8⟩).cell)] } =
    some "000005 SLT.BA *000007,>000008" ∧
  formatCell .hardware (-1) { State.reset with arena := [(7999, (Instr.dat .f ⟨.immediate, -5⟩ ⟨.immediate, 1234567⟩).cell)] } =
    some "007999 DAT.F #-00005,#1234567" ∧
  formatCell .hardware 7999 { State.reset with arena := [(7999, (Instr.dat .f ⟨.immediate, -2147483648⟩ ⟨.immediate, 0⟩).cell)] } =
    some "007999 DAT.F #-2147483648,#000000"

/-- PopTouched (60_exceptions.md R264). -/
def Obligations.PopTouchedTakesTheFirst : Prop :=
  ∀ (s : State) (a : Nat) (rest : List Nat),
    (s.touched = [] → popTouched s = (s, none)) ∧
    (s.touched = a :: rest → popTouched s = ({ s with touched := rest }, some a))

/-! ## The loader -/

/-- LoadWarriors is all or nothing (70_reset_and_hazards.md R285, R291): an error changes no state, and the empty list
changes none and is Ok. -/
def Obligations.LoadErrorChangesNothing : Prop :=
  ∀ (draw : Nat → Nat → Nat) (specs : List (WarriorSpec 32)) (s : State),
    loadWarriors .hardware draw [] s = (s, none) ∧
    ((loadWarriors .hardware draw specs s).2 ≠ none → (loadWarriors .hardware draw specs s).1 = s)

/-- The checks before any placement, in their order (70_reset_and_hazards.md R286). -/
def Obligations.LoadChecksInOrder : Prop :=
  ∀ (draw : Nat → Nat → Nat) (specs : List (WarriorSpec 32)) (s : State), specs ≠ [] →
    let tooMany := 8000 < s.queue.length + specs.length
    let empty := ∃ w ∈ specs, w.code = []
    let illegal := ∃ w ∈ specs, ∃ x ∈ w.code, ∃ err, decode 32 x = .error err
    let tooLarge := 8000 < occupiedCount .hardware s.occ + (specs.map fun w => w.code.length).sum
    (tooMany → (loadWarriors .hardware draw specs s).2 = some .tooMany) ∧
    (¬tooMany → empty → (loadWarriors .hardware draw specs s).2 = some .emptyWarrior) ∧
    (¬tooMany → ¬empty → illegal → (loadWarriors .hardware draw specs s).2 = some .invalidInstruction) ∧
    (¬tooMany → ¬empty → ¬illegal → tooLarge → (loadWarriors .hardware draw specs s).2 = some .tooLarge) ∧
    (¬tooMany → ¬empty → ¬illegal → ¬tooLarge →
      (loadWarriors .hardware draw specs s).2 = none ∨
      (loadWarriors .hardware draw specs s).2 = some .retriesExhausted)

/-- One warrior at a FIXED start that passes the checks (70_reset_and_hazards.md R287, R289, R290): where its footprint is
free it is loaded, every cell, record and entry of it and nothing else; where it is not, every candidate is the same one
and the retries are exhausted. -/
def Obligations.FixedWarriorIsLoaded : Prop :=
  ∀ (draw : Nat → Nat → Nat) (w : WarriorSpec 32) (k : Int) (s : State), w.start = .fixed k →
    s.queue.length < 8000 → w.code ≠ [] → (∀ x ∈ w.code, ∃ i, decode 32 x = .ok i) →
    occupiedCount .hardware s.occ + w.code.length ≤ 8000 →
    let c := wrap .hardware 0 k
    let res := loadWarriors .hardware draw [w] s
    ((∀ i, i < w.code.length → occupied s.occ (wrap .hardware c i) = false) →
      res.2 = none ∧
      (∀ (i : Nat) (x : CellWord 32), w.code[i]? = some x →
        res.1.arena.read (wrap .hardware c i) = decodeCell 32 x ∧
        Sparse.get none res.1.act (wrap .hardware c i) = some s.warriors.length ∧
        occupied res.1.occ (wrap .hardware c i) = true) ∧
      (∀ a, (∀ i, i < w.code.length → a ≠ wrap .hardware c i) →
        res.1.arena.read a = s.arena.read a ∧ Sparse.get none res.1.act a = Sparse.get none s.act a ∧
        occupied res.1.occ a = occupied s.occ a) ∧
      res.1.queue = s.queue ++ [⟨s.warriors.length, 0, true, true, c⟩] ∧
      res.1.warriors = s.warriors ++ [⟨s.warriors.length, w.title, w.tag, w.code.map (decodeCell 32), c⟩] ∧
      res.1.touched = [] ∧ res.1.cur = s.cur ∧ res.1.running = s.running ∧ res.1.remaining = s.remaining ∧
      res.1.cycles = s.cycles ∧ res.1.status = s.status ∧ res.1.fatal = s.fatal) ∧
    ((∃ i, i < w.code.length ∧ occupied s.occ (wrap .hardware c i) = true) → res = (s, some .retriesExhausted))

/-- LoadWarriors with several specs, FIXED and RANDOM (70_reset_and_hazards.md R285, R287-R290), the checks of R286
passed. Where each spec in turn has a first candidate, of at most 1001, that meets no cell occupied before the call or by
a spec before it, all of them are loaded there, every cell, ACT and OCC bit, record and entry in load order, and nothing
else changes. Where one spec has none, the specs before it placed, the retries are exhausted and nothing changes. A RANDOM
candidate is the draw taken modulo S (log entry 10). -/
def Obligations.SpecsAreLoadedInOrder : Prop :=
  ∀ (draw : Nat → Nat → Nat) (specs : List (WarriorSpec 32)) (s : State) (starts : Nat → Nat), specs ≠ [] →
    s.queue.length + specs.length ≤ 8000 → (∀ w ∈ specs, w.code ≠ []) →
    (∀ w ∈ specs, ∀ x ∈ w.code, ∃ i, decode 32 x = .ok i) →
    occupiedCount .hardware s.occ + (specs.map fun w => w.code.length).sum ≤ 8000 →
    let res := loadWarriors .hardware draw specs s
    ((∀ (j : Nat) (w : WarriorSpec 32), specs[j]? = some w → Expect.Chosen draw s specs starts j w) →
      res.2 = none ∧
      (∀ (j : Nat) (w : WarriorSpec 32), specs[j]? = some w → ∀ (i : Nat) (x : CellWord 32), w.code[i]? = some x →
        res.1.arena.read ((starts j + i) % 8000) = decodeCell 32 x ∧
        Sparse.get none res.1.act ((starts j + i) % 8000) = some (s.warriors.length + j) ∧
        occupied res.1.occ ((starts j + i) % 8000) = true) ∧
      (∀ a, (∀ (j : Nat) (w : WarriorSpec 32), specs[j]? = some w → ¬Expect.covers (starts j) w.code.length a) →
        res.1.arena.read a = s.arena.read a ∧ Sparse.get none res.1.act a = Sparse.get none s.act a ∧
        occupied res.1.occ a = occupied s.occ a) ∧
      res.1.queue = s.queue ++ specs.mapIdx (fun j _ => ⟨s.warriors.length + j, 0, true, true, starts j⟩) ∧
      res.1.warriors = s.warriors ++ specs.mapIdx (fun j w =>
        ⟨s.warriors.length + j, w.title, w.tag, w.code.map (decodeCell 32), starts j⟩) ∧
      res.1.touched = [] ∧ res.1.cur = s.cur ∧ res.1.running = s.running ∧ res.1.remaining = s.remaining ∧
      res.1.cycles = s.cycles ∧ res.1.status = s.status ∧ res.1.fatal = s.fatal) ∧
    ∀ (j : Nat) (w : WarriorSpec 32), specs[j]? = some w →
      (∀ (i : Nat) (v : WarriorSpec 32), i < j → specs[i]? = some v → Expect.Chosen draw s specs starts i v) →
      (∀ t, t ≤ 1000 → Expect.collides s specs starts j w (Expect.candidateOf draw j t w)) →
      res = (s, some .retriesExhausted)

/-- No two footprints placed since Reset overlap, whatever the random draws (70_reset_and_hazards.md R288): every host
operation keeps the footprints apart and marked. -/
def Obligations.FootprintsStayApart : Prop :=
  ∀ (draw : Nat → Nat → Nat) (c : HostCall .hardware) (s t : State), FootprintsApart .hardware s →
    (hardwareCall draw c s).1 = .next t → FootprintsApart .hardware t

/-- Every operation of the host interface keeps the invariant of the core, whatever the random draws (10_state.md R31). -/
def Obligations.HostCallsKeepTheInvariant : Prop :=
  ∀ (draw : Nat → Nat → Nat) (c : HostCall .hardware) (s t : State), Inv .hardware s →
    (hardwareCall draw c s).1 = .next t → Inv .hardware t
end

