-- ==== Sys2Proof/Laws/Decode.lean ====
section
/-! SUPPORT. The laws of the code tables and of the slices of an encoded cell (30_encoding.md R81-R87). -/

namespace Sys2Proof

/-! ## The code tables are one to one -/

@[simp] theorem opcode_ofCode_code (o : Opcode) : Opcode.ofCode o.code = some o := by cases o <;> rfl

@[simp] theorem modifier_ofCode_code (m : Modifier) : Modifier.ofCode m.code = some m := by cases m <;> rfl

@[simp] theorem mode_ofCode_code (m : Mode) : Mode.ofCode m.code = m := by cases m <;> rfl

theorem opcode_code_of_ofCode : ∀ (c : BitVec 5) (o : Opcode), Opcode.ofCode c = some o → o.code = c := by decide

theorem modifier_code_of_ofCode : ∀ (c : BitVec 3) (m : Modifier), Modifier.ofCode c = some m → m.code = c := by decide

@[simp] theorem mode_code_ofCode : ∀ c : BitVec 3, (Mode.ofCode c).code = c := by decide

theorem opcode_ofCode_none : ∀ c : BitVec 5, Opcode.ofCode c = none ↔ 20 ≤ c.toNat := by decide

theorem modifier_ofCode_none : ∀ c : BitVec 3, Modifier.ofCode c = none ↔ c = 7 := by decide

@[simp] theorem instr_cell_of_opcode (o : Opcode) (m : Modifier) (a b : Operand) :
    (o.instr m a b).cell = ⟨.legal o m, a, b⟩ := by cases o <;> rfl

/-! ## The slices of an encoded cell -/

theorem slice_cast {n k : Nat} (h : n = k) (x : BitVec n) (lo len : Nat) :
    (x.cast h).extractLsb' lo len = x.extractLsb' lo len := by
  subst h
  rfl

/-- A slice that lies in the low part of a concatenation. -/
theorem slice_low {m n : Nat} (x : BitVec m) (y : BitVec n) {lo len : Nat} (h : lo + len ≤ n) :
    (x ++ y).extractLsb' lo len = y.extractLsb' lo len := by
  ext i hi
  simp only [BitVec.getElem_extractLsb', BitVec.getLsbD_append]
  rw [if_pos (by omega)]

/-- A slice that lies in the high part of a concatenation. -/
theorem slice_high {m n : Nat} (x : BitVec m) (y : BitVec n) {lo len : Nat} (h : n ≤ lo) :
    (x ++ y).extractLsb' lo len = x.extractLsb' (lo - n) len := by
  ext i hi
  simp only [BitVec.getElem_extractLsb', BitVec.getLsbD_append]
  rw [if_neg (by omega), show lo + i - n = lo - n + i by omega]

theorem slice_all {n : Nat} (x : BitVec n) : x.extractLsb' 0 n = x := by
  ext i hi
  simp

section
variable (W : Nat) (c : Cell)

@[simp] theorem op_encodeCell : CellWord.op W (encodeCell W c) = c.head.opCode := by
  unfold CellWord.op encodeCell
  rw [slice_cast, slice_low _ _ (by omega), slice_low _ _ (by omega), slice_low _ _ (by omega),
    slice_low _ _ (by omega), slice_low _ _ (by omega), slice_low _ _ (by omega), slice_all]

@[simp] theorem modifier_encodeCell : CellWord.modifier W (encodeCell W c) = c.head.modifierCode := by
  unfold CellWord.modifier encodeCell
  rw [slice_cast, slice_low _ _ (by omega), slice_low _ _ (by omega), slice_low _ _ (by omega),
    slice_low _ _ (by omega), slice_low _ _ (by omega), slice_high _ _ (by omega), slice_all]

@[simp] theorem am_encodeCell : CellWord.am W (encodeCell W c) = c.a.mode.code := by
  unfold CellWord.am encodeCell
  rw [slice_cast, slice_low _ _ (by omega), slice_low _ _ (by omega), slice_low _ _ (by omega),
    slice_low _ _ (by omega), slice_high _ _ (by omega), slice_all]

@[simp] theorem bm_encodeCell : CellWord.bm W (encodeCell W c) = c.b.mode.code := by
  unfold CellWord.bm encodeCell
  rw [slice_cast, slice_low _ _ (by omega), slice_low _ _ (by omega), slice_low _ _ (by omega),
    slice_high _ _ (by omega), slice_all]

@[simp] theorem rsv_encodeCell : CellWord.rsv W (encodeCell W c) = c.head.reserved := by
  unfold CellWord.rsv encodeCell
  rw [slice_cast, slice_low _ _ (by omega), slice_low _ _ (by omega), slice_high _ _ (by omega), slice_all]

@[simp] theorem af_encodeCell : CellWord.af W (encodeCell W c) = BitVec.ofInt W c.a.field := by
  unfold CellWord.af encodeCell
  rw [slice_cast, slice_low _ _ (by omega), slice_high _ _ (by omega), slice_all]

@[simp] theorem bf_encodeCell : CellWord.bf W (encodeCell W c) = BitVec.ofInt W c.b.field := by
  unfold CellWord.bf encodeCell
  rw [slice_cast, slice_high _ _ (by omega), show 16 + W - (W + (2 + (3 + (3 + (3 + 5))))) = 0 by omega, slice_all]

/-- Two words with the same seven slices are the same word: no bit lies outside them (30_encoding.md R81). -/
theorem cellWord_ext {v w : CellWord W} (h1 : CellWord.op W v = CellWord.op W w)
    (h2 : CellWord.modifier W v = CellWord.modifier W w) (h3 : CellWord.am W v = CellWord.am W w)
    (h4 : CellWord.bm W v = CellWord.bm W w) (h5 : CellWord.rsv W v = CellWord.rsv W w)
    (h6 : CellWord.af W v = CellWord.af W w) (h7 : CellWord.bf W v = CellWord.bf W w) : v = w := by
  have key : ∀ {lo len : Nat}, v.extractLsb' lo len = w.extractLsb' lo len → ∀ i, lo ≤ i → i < lo + len →
      v.getLsbD i = w.getLsbD i := by
    intro lo len h i hlo hhi
    have := congrArg (fun x => x.getLsbD (i - lo)) h
    simp only [BitVec.getLsbD_extractLsb', show i - lo < len by omega, decide_true, Bool.true_and,
      show lo + (i - lo) = i by omega] at this
    exact this
  refine BitVec.eq_of_getLsbD_eq fun i hi => ?_
  by_cases c1 : i < 5
  · exact key h1 i (by omega) (by omega)
  by_cases c2 : i < 8
  · exact key h2 i (by omega) (by omega)
  by_cases c3 : i < 11
  · exact key h3 i (by omega) (by omega)
  by_cases c4 : i < 14
  · exact key h4 i (by omega) (by omega)
  by_cases c5 : i < 16
  · exact key h5 i (by omega) (by omega)
  by_cases c6 : i < 16 + W
  · exact key h6 i (by omega) (by omega)
  · exact key h7 i (by omega) (by omega)

end

/-- A word decodes to an instruction exactly where its cell is one (30_encoding.md R86). -/
theorem decodeCell_instr_ne_none {W : Nat} {x : CellWord W} :
    (decodeCell W x).instr ≠ none ↔ ∃ i, decode W x = .ok i := by
  unfold decode Cell.instr
  obtain ⟨hd, a, b⟩ := decodeCell W x
  cases hd <;> simp

end Sys2Proof
end

