-- ==== Sys2Proof/Laws/Sparse.lean ====
section
/-! SUPPORT. The laws of the arrays of Machine/Sparse.lean: a read after a write, and every operation keeps the canonical
form. -/

namespace Sys2Proof.Machine

section
variable {α : Type} {d : α} {m : List (Nat × α)}

@[simp] theorem Sparse.get_nil (d : α) (a : Nat) : Sparse.get d [] a = d := rfl

theorem Sparse.get_cons (d : α) (k : Nat) (v : α) (rest : List (Nat × α)) (a : Nat) :
    Sparse.get d ((k, v) :: rest) a = if k = a then v else Sparse.get d rest a := rfl

theorem Sparse.get_erase (d : α) (m : List (Nat × α)) (a b : Nat) :
    Sparse.get d (Sparse.erase m a) b = if b = a then d else Sparse.get d m b := by
  induction m with
  | nil => simp [Sparse.erase]
  | cons kv rest ih =>
    obtain ⟨k, v⟩ := kv
    have ih' : Sparse.get d (List.filter (fun kv => kv.1 != a) rest) b = if b = a then d else Sparse.get d rest b := ih
    by_cases hka : k = a <;> by_cases hkb : k = b <;> by_cases hba : b = a <;>
      simp_all [Sparse.erase, Sparse.get_cons]

theorem Sparse.get_insert (d : α) (m : List (Nat × α)) (a : Nat) (v : α) (b : Nat)
    (h : ∀ kv ∈ m, kv.1 ≠ a) : Sparse.get d (Sparse.insert m a v) b = if b = a then v else Sparse.get d m b := by
  induction m with
  | nil => simp [Sparse.insert, Sparse.get_cons, eq_comm]
  | cons kv rest ih =>
    obtain ⟨k, w⟩ := kv
    have hka : k ≠ a := h _ (List.mem_cons_self ..)
    have ih := ih fun kv hkv => h kv (List.mem_cons_of_mem _ hkv)
    unfold Sparse.insert
    split
    · rw [Sparse.get_cons, Sparse.get_cons]
      by_cases hba : b = a
      · simp [hba]
      · simp [hba, Ne.symm hba]
    · rw [Sparse.get_cons, ih, Sparse.get_cons]
      by_cases hkb : k = b
      · simp [hkb, show b ≠ a from hkb ▸ hka]
      · simp [hkb]

theorem Sparse.erase_ne (m : List (Nat × α)) (a : Nat) : ∀ kv ∈ Sparse.erase m a, kv.1 ≠ a := by
  intro kv hkv
  simpa [Sparse.erase] using (List.mem_filter.mp hkv).2

/-- A read after a write: the value written at its address, and every other address as before. -/
theorem Sparse.get_set [DecidableEq α] (d : α) (m : List (Nat × α)) (a : Nat) (v : α) (b : Nat) :
    Sparse.get d (Sparse.set d m a v) b = if b = a then v else Sparse.get d m b := by
  unfold Sparse.set
  split
  · next h => rw [Sparse.get_erase, h]
  · rw [Sparse.get_insert _ _ _ _ _ (Sparse.erase_ne m a), Sparse.get_erase]
    split <;> rfl

theorem Sparse.canonicalFrom_mono [DecidableEq α] {lo lo' : Nat} (h : Sparse.canonicalFrom d lo m = true)
    (hl : lo' ≤ lo) : Sparse.canonicalFrom d lo' m = true := by
  cases m with
  | nil => rfl
  | cons kv rest =>
    simp only [Sparse.canonicalFrom, Bool.and_eq_true, decide_eq_true_eq] at h ⊢
    exact ⟨⟨by omega, h.1.2⟩, h.2⟩

theorem Sparse.canonicalFrom_erase [DecidableEq α] {lo : Nat} (h : Sparse.canonicalFrom d lo m = true) (a : Nat) :
    Sparse.canonicalFrom d lo (Sparse.erase m a) = true := by
  induction m generalizing lo with
  | nil => rfl
  | cons kv rest ih =>
    obtain ⟨k, v⟩ := kv
    simp only [Sparse.canonicalFrom, Bool.and_eq_true, decide_eq_true_eq] at h
    have hr := ih h.2
    by_cases hka : k = a
    · have : Sparse.erase ((k, v) :: rest) a = Sparse.erase rest a := by simp [Sparse.erase, hka]
      rw [this]
      exact Sparse.canonicalFrom_mono hr (by omega)
    · have : Sparse.erase ((k, v) :: rest) a = (k, v) :: Sparse.erase rest a := by simp [Sparse.erase, hka]
      rw [this]
      simp only [Sparse.canonicalFrom, Bool.and_eq_true, decide_eq_true_eq]
      exact ⟨h.1, hr⟩

theorem Sparse.canonicalFrom_insert [DecidableEq α] {lo : Nat} (h : Sparse.canonicalFrom d lo m = true) {a : Nat}
    {v : α} (ha : ∀ kv ∈ m, kv.1 ≠ a) (hv : v ≠ d) (hlo : lo ≤ a) :
    Sparse.canonicalFrom d lo (Sparse.insert m a v) = true := by
  induction m generalizing lo with
  | nil => simp [Sparse.insert, Sparse.canonicalFrom, hv, hlo]
  | cons kv rest ih =>
    obtain ⟨k, w⟩ := kv
    have hk : k ≠ a := ha _ (List.mem_cons_self ..)
    simp only [Sparse.canonicalFrom, Bool.and_eq_true, decide_eq_true_eq] at h
    unfold Sparse.insert
    split
    · simp only [Sparse.canonicalFrom, Bool.and_eq_true, decide_eq_true_eq]
      exact ⟨⟨hlo, hv⟩, ⟨by omega, h.1.2⟩, h.2⟩
    · simp only [Sparse.canonicalFrom, Bool.and_eq_true, decide_eq_true_eq]
      exact ⟨h.1, ih h.2 (fun kv hkv => ha kv (List.mem_cons_of_mem _ hkv)) (by omega)⟩

/-- A write keeps the canonical form. -/
theorem Sparse.wf_set [DecidableEq α] (h : Sparse.wf d m = true) (a : Nat) (v : α) :
    Sparse.wf d (Sparse.set d m a v) = true := by
  unfold Sparse.set Sparse.wf at *
  split
  · exact Sparse.canonicalFrom_erase h a
  · next hv => exact Sparse.canonicalFrom_insert (Sparse.canonicalFrom_erase h a) (Sparse.erase_ne m a) hv (by omega)

theorem Sparse.mem_insert {a : Nat} {v : α} {kv : Nat × α} (h : kv ∈ Sparse.insert m a v) : kv = (a, v) ∨ kv ∈ m := by
  induction m with
  | nil => simpa [Sparse.insert] using h
  | cons kw rest ih =>
    obtain ⟨k, w⟩ := kw
    unfold Sparse.insert at h
    split at h
    · simpa using h
    · rcases List.mem_cons.mp h with h | h
      · exact .inr (by simp [h])
      · rcases ih h with h | h
        · exact .inl h
        · exact .inr (List.mem_cons_of_mem _ h)

/-- An entry after a write is the one written or one that was there. -/
theorem Sparse.mem_set [DecidableEq α] {a : Nat} {v : α} {kv : Nat × α} (h : kv ∈ Sparse.set d m a v) :
    kv = (a, v) ∨ kv ∈ m := by
  unfold Sparse.set at h
  split at h
  · exact .inr (List.mem_of_mem_filter h)
  · rcases Sparse.mem_insert h with h | h
    · exact .inl h
    · exact .inr (List.mem_of_mem_filter h)

/-- A write below the bound keeps the bound. -/
theorem Sparse.below_set [DecidableEq α] {n : Nat} (h : Sparse.below n m = true) {a : Nat} (ha : a < n) (v : α) :
    Sparse.below n (Sparse.set d m a v) = true := by
  simp only [Sparse.below, List.all_eq_true, decide_eq_true_eq] at h ⊢
  intro kv hkv
  rcases Sparse.mem_set hkv with h' | h'
  · simpa [h'] using ha
  · exact h kv h'

/-- A value read is the default or one that is listed. -/
theorem Sparse.get_default_or_mem (d : α) (m : List (Nat × α)) (a : Nat) :
    Sparse.get d m a = d ∨ (a, Sparse.get d m a) ∈ m := by
  induction m with
  | nil => exact .inl rfl
  | cons kv rest ih =>
    obtain ⟨k, v⟩ := kv
    rw [Sparse.get_cons]
    by_cases hka : k = a
    · exact .inr (by simp [hka])
    · rcases ih with h | h
      · exact .inl (by simp [hka, h])
      · exact .inr (by simp [hka, h])

/-- In the canonical form a listed entry stands at `lo` or above and is not the default. -/
theorem Sparse.mem_canonicalFrom [DecidableEq α] {lo : Nat} (h : Sparse.canonicalFrom d lo m = true) {kv : Nat × α}
    (hm : kv ∈ m) : lo ≤ kv.1 ∧ kv.2 ≠ d := by
  induction m generalizing lo with
  | nil => cases hm
  | cons kw rest ih =>
    simp only [Sparse.canonicalFrom, Bool.and_eq_true, decide_eq_true_eq] at h
    rcases List.mem_cons.mp hm with rfl | hm
    · exact h.1
    · exact ⟨by have := (ih h.2 hm).1; omega, (ih h.2 hm).2⟩

/-- In the canonical form a listed entry is what its address reads as. -/
theorem Sparse.get_of_mem [DecidableEq α] {lo : Nat} (h : Sparse.canonicalFrom d lo m = true) {a : Nat} {v : α}
    (hm : (a, v) ∈ m) : Sparse.get d m a = v := by
  induction m generalizing lo with
  | nil => cases hm
  | cons kw rest ih =>
    simp only [Sparse.canonicalFrom, Bool.and_eq_true, decide_eq_true_eq] at h
    rw [Sparse.get_cons]
    rcases List.mem_cons.mp hm with rfl | hm
    · simp
    · have : ¬kw.1 = a := by have := (Sparse.mem_canonicalFrom h.2 hm).1; simp only at this; omega
      rw [if_neg this, ih h.2 hm]

end

/-! ## The arena -/

/-- A cell read after a cell written (20_memory.md R61). -/
theorem Memory.read_write (m : Memory) (a : Nat) (c : Cell) (b : Nat) :
    (m.write a c).read b = if b = a then c else m.read b := Sparse.get_set _ _ _ _ _

@[simp] theorem Memory.read_write_same (m : Memory) (a : Nat) (c : Cell) : (m.write a c).read a = c := by
  simp [Memory.read_write]

theorem Memory.read_write_other (m : Memory) {a b : Nat} (c : Cell) (h : b ≠ a) : (m.write a c).read b = m.read b := by
  simp [Memory.read_write, h]

/-- Every arena write keeps the canonical form. -/
theorem Memory.wf_write {m : Memory} (h : m.wf = true) (a : Nat) (c : Cell) : (m.write a c).wf = true :=
  Sparse.wf_set h a c

/-- The arena at reset has the canonical form. -/
theorem Memory.wf_reset : State.reset.arena.wf = true := rfl

end Sys2Proof.Machine
end

