-- ==== Sys2Proof/Laws/State.lean ====
section
/-! SUPPORT. One lemma for each field under each update of the state, so that no later proof unfolds a record update. -/

namespace Sys2Proof.Machine

/-! ## touch -/

@[simp] theorem touch_arena (wid a : Nat) (s : State) : (touch wid a s).arena = s.arena := rfl
@[simp] theorem touch_queue (wid a : Nat) (s : State) : (touch wid a s).queue = s.queue := rfl
@[simp] theorem touch_cur (wid a : Nat) (s : State) : (touch wid a s).cur = s.cur := rfl
@[simp] theorem touch_warriors (wid a : Nat) (s : State) : (touch wid a s).warriors = s.warriors := rfl
@[simp] theorem touch_running (wid a : Nat) (s : State) : (touch wid a s).running = s.running := rfl
@[simp] theorem touch_remaining (wid a : Nat) (s : State) : (touch wid a s).remaining = s.remaining := rfl
@[simp] theorem touch_cycles (wid a : Nat) (s : State) : (touch wid a s).cycles = s.cycles := rfl
@[simp] theorem touch_status (wid a : Nat) (s : State) : (touch wid a s).status = s.status := rfl
@[simp] theorem touch_fatal (wid a : Nat) (s : State) : (touch wid a s).fatal = s.fatal := rfl
@[simp] theorem touch_occ (wid a : Nat) (s : State) : (touch wid a s).occ = s.occ := rfl
@[simp] theorem touch_act (wid a : Nat) (s : State) : (touch wid a s).act = Sparse.set none s.act a (some wid) := rfl
@[simp] theorem touch_touched (wid a : Nat) (s : State) : (touch wid a s).touched = if a ∈ s.touched then s.touched else s.touched ++ [a] := rfl

/-! ## latchFatal -/

@[simp] theorem latchFatal_arena (s : State) : (latchFatal s).arena = s.arena := rfl
@[simp] theorem latchFatal_queue (s : State) : (latchFatal s).queue = s.queue := rfl
@[simp] theorem latchFatal_cur (s : State) : (latchFatal s).cur = s.cur := rfl
@[simp] theorem latchFatal_warriors (s : State) : (latchFatal s).warriors = s.warriors := rfl
@[simp] theorem latchFatal_running (s : State) : (latchFatal s).running = s.running := rfl
@[simp] theorem latchFatal_remaining (s : State) : (latchFatal s).remaining = s.remaining := rfl
@[simp] theorem latchFatal_cycles (s : State) : (latchFatal s).cycles = s.cycles := rfl
@[simp] theorem latchFatal_status (s : State) : (latchFatal s).status = { s.status with code := .fatalIndex } := rfl
@[simp] theorem latchFatal_fatal (s : State) : (latchFatal s).fatal = true := rfl
@[simp] theorem latchFatal_occ (s : State) : (latchFatal s).occ = s.occ := rfl
@[simp] theorem latchFatal_act (s : State) : (latchFatal s).act = s.act := rfl
@[simp] theorem latchFatal_touched (s : State) : (latchFatal s).touched = s.touched := rfl

/-! ## advanceCursor -/

@[simp] theorem advanceCursor_arena (s : State) : (advanceCursor s).arena = s.arena := rfl
@[simp] theorem advanceCursor_queue (s : State) : (advanceCursor s).queue = s.queue := rfl
@[simp] theorem advanceCursor_cur (s : State) : (advanceCursor s).cur = (s.cur + 1) % s.queue.length := rfl
@[simp] theorem advanceCursor_warriors (s : State) : (advanceCursor s).warriors = s.warriors := rfl
@[simp] theorem advanceCursor_running (s : State) : (advanceCursor s).running = s.running := rfl
@[simp] theorem advanceCursor_remaining (s : State) : (advanceCursor s).remaining = s.remaining := rfl
@[simp] theorem advanceCursor_cycles (s : State) : (advanceCursor s).cycles = s.cycles := rfl
@[simp] theorem advanceCursor_status (s : State) : (advanceCursor s).status = s.status := rfl
@[simp] theorem advanceCursor_fatal (s : State) : (advanceCursor s).fatal = s.fatal := rfl
@[simp] theorem advanceCursor_occ (s : State) : (advanceCursor s).occ = s.occ := rfl
@[simp] theorem advanceCursor_act (s : State) : (advanceCursor s).act = s.act := rfl
@[simp] theorem advanceCursor_touched (s : State) : (advanceCursor s).touched = s.touched := rfl

/-! ## countCycle -/

@[simp] theorem countCycle_arena (P : Params) (s : State) : (countCycle P s).arena = s.arena := rfl
@[simp] theorem countCycle_queue (P : Params) (s : State) : (countCycle P s).queue = s.queue := rfl
@[simp] theorem countCycle_cur (P : Params) (s : State) : (countCycle P s).cur = s.cur := rfl
@[simp] theorem countCycle_warriors (P : Params) (s : State) : (countCycle P s).warriors = s.warriors := rfl
@[simp] theorem countCycle_running (P : Params) (s : State) : (countCycle P s).running = s.running := rfl
@[simp] theorem countCycle_remaining (P : Params) (s : State) : (countCycle P s).remaining = s.remaining := rfl
@[simp] theorem countCycle_cycles (P : Params) (s : State) : (countCycle P s).cycles = (s.cycles + 1) % 2 ^ P.cycleBits := rfl
@[simp] theorem countCycle_status (P : Params) (s : State) : (countCycle P s).status = s.status := rfl
@[simp] theorem countCycle_fatal (P : Params) (s : State) : (countCycle P s).fatal = s.fatal := rfl
@[simp] theorem countCycle_occ (P : Params) (s : State) : (countCycle P s).occ = s.occ := rfl
@[simp] theorem countCycle_act (P : Params) (s : State) : (countCycle P s).act = s.act := rfl
@[simp] theorem countCycle_touched (P : Params) (s : State) : (countCycle P s).touched = s.touched := rfl

/-! ## removeActing -/

@[simp] theorem removeActing_arena (s : State) : (removeActing s).arena = s.arena := rfl
@[simp] theorem removeActing_queue (s : State) : (removeActing s).queue = s.queue.eraseIdx s.cur := rfl
@[simp] theorem removeActing_cur (s : State) : (removeActing s).cur = if s.cur + 1 = s.queue.length ∨ s.queue.eraseIdx s.cur = [] then 0 else s.cur := rfl
@[simp] theorem removeActing_warriors (s : State) : (removeActing s).warriors = s.warriors := rfl
@[simp] theorem removeActing_running (s : State) : (removeActing s).running = s.running := rfl
@[simp] theorem removeActing_remaining (s : State) : (removeActing s).remaining = s.remaining := rfl
@[simp] theorem removeActing_cycles (s : State) : (removeActing s).cycles = s.cycles := rfl
@[simp] theorem removeActing_status (s : State) : (removeActing s).status = s.status := rfl
@[simp] theorem removeActing_fatal (s : State) : (removeActing s).fatal = s.fatal := rfl
@[simp] theorem removeActing_occ (s : State) : (removeActing s).occ = s.occ := rfl
@[simp] theorem removeActing_act (s : State) : (removeActing s).act = s.act := rfl
@[simp] theorem removeActing_touched (s : State) : (removeActing s).touched = s.touched := rfl

/-! ## commit: the fields it leaves, and those it writes for every value of the parameters -/

@[simp] theorem commit_arena (P : Params) (e : Entry) (op : BitVec 5) (r : Result) (s : State) :
    (commit P e op r s).arena = s.arena := by
  unfold commit
  split <;> rfl

@[simp] theorem commit_warriors (P : Params) (e : Entry) (op : BitVec 5) (r : Result) (s : State) :
    (commit P e op r s).warriors = s.warriors := by
  unfold commit
  split <;> rfl

@[simp] theorem commit_running (P : Params) (e : Entry) (op : BitVec 5) (r : Result) (s : State) :
    (commit P e op r s).running = s.running := by
  unfold commit
  split <;> rfl

@[simp] theorem commit_remaining (P : Params) (e : Entry) (op : BitVec 5) (r : Result) (s : State) :
    (commit P e op r s).remaining = s.remaining := by
  unfold commit
  split <;> rfl

@[simp] theorem commit_cycles (P : Params) (e : Entry) (op : BitVec 5) (r : Result) (s : State) :
    (commit P e op r s).cycles = (s.cycles + 1) % 2 ^ P.cycleBits := by
  unfold commit
  split <;> rfl

@[simp] theorem commit_status (P : Params) (e : Entry) (op : BitVec 5) (r : Result) (s : State) :
    (commit P e op r s).status = ⟨r.code, e.wid, e.pid, e.pc, op⟩ := by
  unfold commit
  split <;> rfl

@[simp] theorem commit_fatal (P : Params) (e : Entry) (op : BitVec 5) (r : Result) (s : State) :
    (commit P e op r s).fatal = s.fatal := by
  unfold commit
  split <;> rfl

@[simp] theorem commit_occ (P : Params) (e : Entry) (op : BitVec 5) (r : Result) (s : State) :
    (commit P e op r s).occ = s.occ := by
  unfold commit
  split <;> rfl

@[simp] theorem commit_act (P : Params) (e : Entry) (op : BitVec 5) (r : Result) (s : State) :
    (commit P e op r s).act = s.act := by
  unfold commit
  split <;> rfl

@[simp] theorem commit_touched (P : Params) (e : Entry) (op : BitVec 5) (r : Result) (s : State) :
    (commit P e op r s).touched = s.touched := by
  unfold commit
  split <;> rfl

/-- Where nothing is pruned, the queue after a commit. -/
theorem commit_queue (P : Params) (h : P.deadDispatch ≠ .prune) (e : Entry) (op : BitVec 5) (r : Result) (s : State) :
    (commit P e op r s).queue = refreshProgramAlive e.wid (s.queue.set s.cur (e.after P r)) := by
  simp [commit, h]

/-- Where nothing is pruned, the cursor after a commit. -/
theorem commit_cur (P : Params) (h : P.deadDispatch ≠ .prune) (e : Entry) (op : BitVec 5) (r : Result) (s : State) :
    (commit P e op r s).cur = (s.cur + 1) % s.queue.length := by
  simp [commit, h, refreshProgramAlive]

end Sys2Proof.Machine
end

