-- ==== Sys2Proof/Laws/Phases.lean ====
section
/-! SUPPORT. What the shared operations of a Step can do, said once for each: the address unit, the accesses to the
arena, the operand-resolution unit. -/

namespace Sys2Proof.Machine

/-! ## This hardware's values -/

@[simp] theorem hardware_coresize : Params.hardware.coresize = 8000 := rfl
@[simp] theorem hardware_queueCap : Params.hardware.queueCap = 8000 := rfl
@[simp] theorem hardware_incdecMutate : Params.hardware.incdecMutate = true := rfl
@[simp] theorem hardware_djnDecrement : Params.hardware.djnDecrement = true := rfl
@[simp] theorem hardware_skipTarget : Params.hardware.skipTarget = .pcPlus2 := rfl
@[simp] theorem hardware_deadDispatch : Params.hardware.deadDispatch = .execute := rfl
@[simp] theorem hardware_cycleBits : Params.hardware.cycleBits = 64 := rfl
theorem hardware_fieldBits : Params.hardware.fieldBits = 32 := rfl
@[simp] theorem hardware_fmin : Params.hardware.fmin = -2147483648 := rfl
@[simp] theorem hardware_fmax : Params.hardware.fmax = 2147483647 := rfl

/-! ## wrap (20_memory.md R52) -/

theorem wrap_lt (P : Params) (h : 0 < P.coresize) (a : Nat) (d : Int) : wrap P a d < P.coresize := by
  have h1 := Int.emod_nonneg ((a : Int) + d) (b := (P.coresize : Int)) (by omega)
  have h2 := Int.emod_lt_of_pos ((a : Int) + d) (b := (P.coresize : Int)) (by omega)
  simp only [wrap]
  omega

theorem wrap_cast (P : Params) (h : 0 < P.coresize) (a : Nat) (d : Int) :
    (wrap P a d : Int) = ((a : Int) + d) % (P.coresize : Int) := by
  have h1 := Int.emod_nonneg ((a : Int) + d) (b := (P.coresize : Int)) (by omega)
  simp only [wrap]
  omega

theorem wrap_zero_of_lt (P : Params) {a : Nat} (h : a < P.coresize) : wrap P a 0 = a := by
  simp only [wrap, Int.add_zero]
  rw [Int.emod_eq_of_lt (by omega) (by omega)]
  rfl

/-! ## Fields of a cell (20_memory.md R57) -/

@[simp] theorem cellField_withCellField_same (c : Cell) (f : Field) (v : Int) :
    cellField (withCellField c f v) f = v := by cases f <;> rfl

theorem cellField_withCellField (c : Cell) (f g : Field) (v : Int) :
    cellField (withCellField c f v) g = if g = f then v else cellField c g := by cases f <;> cases g <;> rfl

@[simp] theorem withCellField_head (c : Cell) (f : Field) (v : Int) : (withCellField c f v).head = c.head := by
  cases f <;> rfl

@[simp] theorem withCellField_aMode (c : Cell) (f : Field) (v : Int) : (withCellField c f v).a.mode = c.a.mode := by
  cases f <;> rfl

@[simp] theorem withCellField_bMode (c : Cell) (f : Field) (v : Int) : (withCellField c f v).b.mode = c.b.mode := by
  cases f <;> rfl

theorem cell_instr_isSome (c : Cell) : c.instr.isSome = match c.head with
    | .legal _ _ => true
    | .illegal _ _ _ => false := by
  cases c with
  | mk h a b => cases h <;> rfl

/-- A field write keeps a cell well formed where the value fits. -/
theorem withCellField_wellFormed {P : Params} {c : Cell} (h : c.WellFormed P) (f : Field) {v : Int} (hv : P.Fits v) :
    (withCellField c f v).WellFormed P := by
  obtain ⟨h1, h2, h3⟩ := h
  have h1' : (withCellField c f v).instr.isSome = true := by
    rw [cell_instr_isSome, withCellField_head, ← cell_instr_isSome]
    exact h1
  cases f
  · exact ⟨h1', hv, h3⟩
  · exact ⟨h1', h2, hv⟩

theorem withCellFields_wellFormed {P : Params} {c : Cell} (h : c.WellFormed P) (ws : List (Field × Int))
    (hv : ∀ w ∈ ws, P.Fits w.2) : (withCellFields c ws).WellFormed P := by
  induction ws generalizing c with
  | nil => exact h
  | cons w ws ih =>
    exact ih (withCellField_wellFormed h w.1 (hv w (List.mem_cons_self ..)))
      fun x hx => hv x (List.mem_cons_of_mem _ hx)

theorem defaultCell_wellFormed {P : Params} : defaultCell.WellFormed P := by
  have : (0 : Int) < ((2 ^ (P.fieldBits - 1) : Nat) : Int) := by exact_mod_cast Nat.two_pow_pos _
  refine ⟨rfl, ?_, ?_⟩ <;> (simp only [defaultCell, Operand.WellFormed, Params.Fits, Params.fmin, Params.fmax]; omega)

/-! ## What the accesses of a phase can change -/

/-- The cells of the arena are valid and in range. -/
structure ArenaValid (P : Params) (s : State) : Prop where
  canonical : s.arena.wf = true
  range : Sparse.below P.coresize s.arena = true
  cells : ∀ kv ∈ s.arena, kv.2.WellFormed P

theorem ArenaValid.read {P : Params} {s : State} (h : ArenaValid P s) (a : Nat) : (s.arena.read a).WellFormed P := by
  rcases Sparse.get_default_or_mem defaultCell s.arena a with h' | h'
  · unfold Memory.read
    rw [h']
    exact defaultCell_wellFormed
  · exact h.cells _ h'

theorem ArenaValid.write {P : Params} {s t : State} (h : ArenaValid P s) {a : Nat} (ha : a < P.coresize) {c : Cell}
    (hc : c.WellFormed P) (ht : t.arena = s.arena.write a c) : ArenaValid P t where
  canonical := ht ▸ Memory.wf_write h.canonical a c
  range := ht ▸ Sparse.below_set h.range ha c
  cells := by
    rw [ht]
    intro kv hkv
    rcases Sparse.mem_set hkv with rfl | hkv
    · exact hc
    · exact h.cells kv hkv

/-- What the accesses made for the acting entry e can do to the state between two points of one Step, where FATAL is not
latched: nothing but the arena, ACT and TOUCHED changes, and the arena and ACT change only at touched addresses. -/
structure Accessed (P : Params) (e : Entry) (s t : State) : Prop where
  queue : t.queue = s.queue
  cur : t.cur = s.cur
  warriors : t.warriors = s.warriors
  running : t.running = s.running
  remaining : t.remaining = s.remaining
  cycles : t.cycles = s.cycles
  status : t.status = s.status
  fatal : t.fatal = s.fatal
  occ : t.occ = s.occ
  arena : ∀ a, a ∉ t.touched → t.arena.read a = s.arena.read a
  act : ∀ a, Sparse.get none t.act a = Sparse.get none s.act a ∨
    (a ∈ t.touched ∧ Sparse.get none t.act a = some e.wid)
  owned : (∀ a ∈ s.touched, Sparse.get none s.act a = some e.wid) →
    ∀ a ∈ t.touched, Sparse.get none t.act a = some e.wid
  touched : ∃ l, t.touched = s.touched ++ l ∧ ∀ a ∈ l, a < P.coresize
  nodup : s.touched.Nodup → t.touched.Nodup
  actCanonical : Sparse.wf none s.act = true → Sparse.wf none t.act = true
  actRange : Sparse.below P.coresize s.act = true → Sparse.below P.coresize t.act = true
  actOwners : ∀ kv ∈ t.act, kv ∈ s.act ∨ kv.2 = some e.wid

namespace Accessed

variable {P : Params} {e : Entry} {s t u : State}

theorem mem_touched (h : Accessed P e s t) {a : Nat} (ha : a ∈ s.touched) : a ∈ t.touched := by
  obtain ⟨l, hl, -⟩ := h.touched
  simp [hl, ha]

theorem refl (P : Params) (e : Entry) (s : State) : Accessed P e s s where
  queue := rfl
  cur := rfl
  warriors := rfl
  running := rfl
  remaining := rfl
  cycles := rfl
  status := rfl
  fatal := rfl
  occ := rfl
  arena _ _ := rfl
  act _ := .inl rfl
  owned h := h
  touched := ⟨[], by simp, by simp⟩
  nodup h := h
  actCanonical h := h
  actRange h := h
  actOwners _ h := .inl h

theorem trans (h : Accessed P e s t) (k : Accessed P e t u) : Accessed P e s u where
  queue := k.queue.trans h.queue
  cur := k.cur.trans h.cur
  warriors := k.warriors.trans h.warriors
  running := k.running.trans h.running
  remaining := k.remaining.trans h.remaining
  cycles := k.cycles.trans h.cycles
  status := k.status.trans h.status
  fatal := k.fatal.trans h.fatal
  occ := k.occ.trans h.occ
  arena a ha := (k.arena a ha).trans (h.arena a fun ha' => ha (k.mem_touched ha'))
  act a := by
    rcases k.act a with hk | hk
    · rcases h.act a with hh | hh
      · exact .inl (hk.trans hh)
      · exact .inr ⟨k.mem_touched hh.1, hk.trans hh.2⟩
    · exact .inr hk
  owned hs := k.owned (h.owned hs)
  touched := by
    obtain ⟨l, hl, hl'⟩ := h.touched
    obtain ⟨l2, hl2, hl2'⟩ := k.touched
    refine ⟨l ++ l2, by rw [hl2, hl, List.append_assoc], fun a ha => ?_⟩
    rcases List.mem_append.mp ha with ha | ha
    · exact hl' a ha
    · exact hl2' a ha
  nodup hs := k.nodup (h.nodup hs)
  actCanonical hs := k.actCanonical (h.actCanonical hs)
  actRange hs := k.actRange (h.actRange hs)
  actOwners kv hkv := (k.actOwners kv hkv).elim (h.actOwners kv) .inr

/-- One access: the state with the arena changed at most at a, and a touched. -/
theorem touchAt {a : Nat} (ha : a < P.coresize) {m : Memory} (hm : ∀ b, b ≠ a → m.read b = s.arena.read b) :
    Accessed P e s (touch e.wid a { s with arena := m }) where
  queue := rfl
  cur := rfl
  warriors := rfl
  running := rfl
  remaining := rfl
  cycles := rfl
  status := rfl
  fatal := rfl
  occ := rfl
  arena b hb := by
    refine hm b fun h => hb ?_
    subst h
    by_cases h : b ∈ s.touched <;> simp [h]
  act b := by
    rw [touch_act, Sparse.get_set]
    by_cases hb : b = a
    · refine .inr ⟨?_, by simp [hb]⟩
      by_cases h : a ∈ s.touched <;> simp [h, hb]
    · exact .inl (by simp [hb])
  owned hs b hb := by
    rw [touch_act, Sparse.get_set]
    by_cases hba : b = a
    · simp [hba]
    · have : b ∈ s.touched := by
        by_cases h : a ∈ s.touched <;> simpa [h, hba] using hb
      simpa [hba] using hs b this
  touched := by
    by_cases h : a ∈ s.touched
    · exact ⟨[], by simp [h], by simp⟩
    · exact ⟨[a], by simp [h], by simpa using ha⟩
  nodup hs := by
    by_cases h : a ∈ s.touched
    · simpa [h] using hs
    · simp only [touch_touched, h, if_false]
      exact List.nodup_append.mpr ⟨hs, by simp, by
        intro b hb c hc hbc
        exact h (by rw [← List.mem_singleton.mp hc, ← hbc]; exact hb)⟩
  actCanonical hs := by
    rw [touch_act]
    exact Sparse.wf_set hs _ _
  actRange hs := by
    rw [touch_act]
    exact Sparse.below_set hs ha _
  actOwners kv hkv := by
    rw [touch_act] at hkv
    rcases Sparse.mem_set hkv with rfl | hkv
    · exact .inr rfl
    · exact .inl hkv

end Accessed

/-! ## Accesses -/

/-- MemRead inside the arena. -/
theorem memRead_of_lt {P : Params} (e : Entry) {a : Nat} (h : a < P.coresize) (s : State) :
    memRead P e a s = .done (s.arena.read a) (touch e.wid a s) := by simp [memRead, h]

/-- MemRead outside the arena (60_exceptions.md R247). -/
theorem memRead_of_not_lt {P : Params} (e : Entry) {a : Nat} (h : ¬a < P.coresize) (s : State) :
    memRead P e a s = .fatal (latchFatal s) := by simp [memRead, h]

theorem memWrite_of_lt {P : Params} (e : Entry) {a : Nat} (h : a < P.coresize) (c : Cell) (s : State) :
    memWrite P e a c s = .done () (touch e.wid a { s with arena := s.arena.write a c }) := by simp [memWrite, h]

theorem memWrite_of_not_lt {P : Params} (e : Entry) {a : Nat} (h : ¬a < P.coresize) (c : Cell) (s : State) :
    memWrite P e a c s = .fatal (latchFatal s) := by simp [memWrite, h]

theorem accessed_touch {P : Params} (e : Entry) {a : Nat} (h : a < P.coresize) (s : State) :
    Accessed P e s (touch e.wid a s) := Accessed.touchAt (s := s) (m := s.arena) h fun _ _ => rfl

theorem accessed_write {P : Params} (e : Entry) {a : Nat} (h : a < P.coresize) (c : Cell) (s : State) :
    Accessed P e s (touch e.wid a { s with arena := s.arena.write a c }) :=
  Accessed.touchAt h fun _ hb => Memory.read_write_other _ _ hb

/-! ## Phases -/

/-- How a phase can end, starting from s: done or raised after accesses, the arena valid where `V` says it was before;
the value as `Q` says. FATAL is latched only where the acting entry's pc is outside the arena (20_memory.md R54). -/
structure PhaseSpec {α : Type} (P : Params) (e : Entry) (V : Prop) (s : State) (Q : α → State → Prop) (p : Phase α) :
    Prop where
  done : ∀ v t, p = .done v t → Accessed P e s t ∧ (V → ArenaValid P t) ∧ Q v t
  raised : ∀ r t, p = .raised r t → Accessed P e s t ∧ (V → ArenaValid P t)
  fatal : ∀ t, p = .fatal t → ¬e.pc < P.coresize ∧ ∃ u, Accessed P e s u ∧ t = latchFatal u

section
variable {P : Params} {e : Entry} {V : Prop} {s t : State}

theorem PhaseSpec.andThen {α β : Type} {Q : α → State → Prop} {R : β → State → Prop} {p : Phase α}
    {k : α → State → Phase β} (hp : PhaseSpec P e V s Q p)
    (hk : ∀ v t, (V → ArenaValid P t) → Q v t → PhaseSpec P e V t R (k v t)) : PhaseSpec P e V s R (p.andThen k) := by
  cases p with
  | done v t =>
    obtain ⟨h1, h2, h3⟩ := hp.done v t rfl
    have h := hk v t h2 h3
    refine ⟨fun w u hu => ?_, fun r u hu => ?_, fun u hu => ?_⟩
    · obtain ⟨k1, k2, k3⟩ := h.done w u hu
      exact ⟨h1.trans k1, k2, k3⟩
    · obtain ⟨k1, k2⟩ := h.raised r u hu
      exact ⟨h1.trans k1, k2⟩
    · obtain ⟨k1, x, k2, k3⟩ := h.fatal u hu
      exact ⟨k1, x, h1.trans k2, k3⟩
  | raised r t =>
    refine ⟨fun w u hu => (nomatch hu), fun r' u hu => ?_, fun u hu => (nomatch hu)⟩
    cases hu
    exact hp.raised r t rfl
  | fatal t =>
    refine ⟨fun w u hu => (nomatch hu), fun r' u hu => (nomatch hu), fun u hu => ?_⟩
    cases hu
    exact hp.fatal t rfl

/-- A weaker claim about the value. -/
theorem PhaseSpec.imp {α : Type} {Q R : α → State → Prop} {p : Phase α} (h : PhaseSpec P e V s Q p)
    (hQ : ∀ v t, Q v t → R v t) : PhaseSpec P e V s R p where
  done v t ht := ⟨(h.done v t ht).1, (h.done v t ht).2.1, hQ v t (h.done v t ht).2.2⟩
  raised := h.raised
  fatal := h.fatal

theorem PhaseSpec.of_done {α : Type} {Q : α → State → Prop} {v : α} (h1 : Accessed P e s t) (h2 : V → ArenaValid P t)
    (h3 : Q v t) : PhaseSpec P e V s Q (.done v t) where
  done := by rintro w u ⟨⟩; exact ⟨h1, h2, h3⟩
  raised := by rintro w u ⟨⟩
  fatal := by rintro w ⟨⟩

theorem PhaseSpec.of_raised {α : Type} {Q : α → State → Prop} {r : Raise} (h1 : Accessed P e s t)
    (h2 : V → ArenaValid P t) : PhaseSpec P e V s Q (.raised r t) where
  done := by rintro w u ⟨⟩
  raised := by rintro w u ⟨⟩; exact ⟨h1, h2⟩
  fatal := by rintro w ⟨⟩

theorem PhaseSpec.of_fatal {α : Type} {Q : α → State → Prop} (h1 : Accessed P e s t) (hpc : ¬e.pc < P.coresize) :
    PhaseSpec P e V s Q (.fatal (latchFatal t) : Phase α) where
  done := by rintro w u ⟨⟩
  raised := by rintro w u ⟨⟩
  fatal := by rintro w ⟨⟩; exact ⟨hpc, t, h1, rfl⟩

/-- An address the acting entry may use: inside the arena, or its own pc (20_memory.md R54). -/
def Usable (P : Params) (e : Entry) (a : Nat) : Prop := a < P.coresize ∨ a = e.pc

theorem usable_wrap (h : 0 < P.coresize) (e : Entry) (a : Nat) (d : Int) : Usable P e (wrap P a d) :=
  .inl (wrap_lt P h a d)

/-- MemRead: the cell at the address, nothing written, the address touched. -/
theorem memRead_spec {a : Nat} (ha : Usable P e a) (hV : V → ArenaValid P s) :
    PhaseSpec P e V s (fun c t => a < P.coresize ∧ c = s.arena.read a ∧ t = touch e.wid a s) (memRead P e a s) := by
  by_cases h : a < P.coresize
  · rw [memRead_of_lt e h]
    exact .of_done (accessed_touch e h s) (fun hv => ⟨(hV hv).canonical, (hV hv).range, (hV hv).cells⟩) ⟨h, rfl, rfl⟩
  · rw [memRead_of_not_lt e h]
    exact .of_fatal (.refl P e s) (ha.elim (fun ha => absurd ha h) fun ha => ha ▸ h)

/-- MemWrite of a valid cell: that cell at the address, every other cell as before. -/
theorem memWrite_spec {a : Nat} (ha : Usable P e a) (hV : V → ArenaValid P s) {c : Cell} (hc : V → c.WellFormed P) :
    PhaseSpec P e V s (fun _ t => a < P.coresize ∧ t = touch e.wid a { s with arena := s.arena.write a c })
      (memWrite P e a c s) := by
  by_cases h : a < P.coresize
  · rw [memWrite_of_lt e h]
    exact .of_done (accessed_write e h c s) (fun hv => (hV hv).write h (hc hv) rfl) ⟨h, rfl⟩
  · rw [memWrite_of_not_lt e h]
    exact .of_fatal (.refl P e s) (ha.elim (fun ha => absurd ha h) fun ha => ha ▸ h)

/-- FieldWrite of values that fit: those fields of the cell as it stands, every other cell as before. -/
theorem fieldWrite_spec {a : Nat} (ha : Usable P e a) (hV : V → ArenaValid P s) {ws : List (Field × Int)}
    (hw : V → ∀ w ∈ ws, P.Fits w.2) :
    PhaseSpec P e V s (fun _ t => a < P.coresize ∧
        t = touch e.wid a { s with arena := s.arena.write a (withCellFields (s.arena.read a) ws) })
      (fieldWrite P e a ws s) :=
  memWrite_spec ha hV fun hv => withCellFields_wellFormed ((hV hv).read a) ws (hw hv)

/-- A pointer write: the field written where the value fits, OVERFLOW with nothing written otherwise
(40_execution_cycle.md R126). -/
theorem writePointer_spec {a : Nat} (ha : Usable P e a) (hV : V → ArenaValid P s) (sel : Field) (p : Int) :
    PhaseSpec P e V s (fun _ t => P.Fits p ∧
        t = touch e.wid a { s with arena := s.arena.write a (withCellFields (s.arena.read a) [(sel, p)]) })
      (writePointer P e a sel p s) := by
  unfold writePointer
  split
  · next h => exact (fieldWrite_spec ha hV (by simpa using fun _ => h)).imp fun _ _ ht => ⟨h, ht.2⟩
  · exact .of_raised (.refl P e s) hV

/-! ## Operand resolution (40_execution_cycle.md R116-R127) -/

/-- What a resolved operand is: an address in the arena and a valid cell. -/
def GoodOperand (P : Params) (V : Prop) (r : Resolved) : Prop := r.addr < P.coresize ∧ (V → r.cell.WellFormed P)

theorem snapshot_spec {a : Nat} (ha : Usable P e a) (hV : V → ArenaValid P s) :
    PhaseSpec P e V s (fun r _ => GoodOperand P V r) (snapshot P e a s) :=
  (memRead_spec ha hV).andThen fun _ t ht hc =>
    .of_done (.refl P e t) ht ⟨hc.1, fun hv => hc.2.1 ▸ (hV hv).read a⟩

theorem resolveIndirect_spec (hS : 0 < P.coresize) (hV : V → ArenaValid P s) (sel : Field) (f : Int) :
    PhaseSpec P e V s (fun r _ => GoodOperand P V r) (resolveIndirect P e sel f s) :=
  (memRead_spec (usable_wrap hS e _ _) hV).andThen fun _ _ ht _ => snapshot_spec (usable_wrap hS e _ _) ht

theorem resolvePreDecrement_spec (hS : 0 < P.coresize) (hV : V → ArenaValid P s) (sel : Field) (f : Int) :
    PhaseSpec P e V s (fun r _ => GoodOperand P V r) (resolvePreDecrement P e sel f s) :=
  (memRead_spec (usable_wrap hS e _ _) hV).andThen fun _ _ ht _ =>
    (writePointer_spec (usable_wrap hS e _ _) ht sel _).andThen fun _ _ hu _ =>
      snapshot_spec (usable_wrap hS e _ _) hu

theorem resolvePostIncrement_spec (hS : 0 < P.coresize) (hV : V → ArenaValid P s) (sel : Field) (f : Int) :
    PhaseSpec P e V s (fun r _ => GoodOperand P V r) (resolvePostIncrement P e sel f s) :=
  (memRead_spec (usable_wrap hS e _ _) hV).andThen fun _ _ ht _ =>
    (snapshot_spec (usable_wrap hS e _ _) ht).andThen fun _ _ hu hr =>
      (writePointer_spec (usable_wrap hS e _ _) hu sel _).andThen fun _ x hx _ =>
        .of_done (.refl P e x) hx hr

/-- Resolution of one operand: an address in the arena and a valid snapshot; FATAL only where the pc is outside the
arena (40_execution_cycle.md R116, R127). -/
theorem resolveOperand_spec (hS : 0 < P.coresize) (o : Operand) (hV : V → ArenaValid P s) :
    PhaseSpec P e V s (fun r _ => GoodOperand P V r) (resolveOperand P e o s) := by
  unfold resolveOperand
  split
  · exact snapshot_spec (.inr rfl) hV
  · exact snapshot_spec (usable_wrap hS e _ _) hV
  · exact resolveIndirect_spec hS hV _ _
  · exact resolveIndirect_spec hS hV _ _
  all_goals split
  all_goals first
    | exact resolvePreDecrement_spec hS hV _ _
    | exact resolvePostIncrement_spec hS hV _ _
    | exact resolveIndirect_spec hS hV _ _

/-- Resolution of both operands (40_execution_cycle.md R120). -/
theorem resolveOperands_spec (hS : 0 < P.coresize) (a b : Operand) (hV : V → ArenaValid P s) :
    PhaseSpec P e V s (fun sd _ => GoodOperand P V sd.1 ∧ GoodOperand P V sd.2) (resolveOperands P e a b s) :=
  (resolveOperand_spec hS a hV).andThen fun _ _ ht h1 =>
    (resolveOperand_spec hS b ht).andThen fun _ u hu h2 => .of_done (.refl P e u) hu ⟨h1, h2⟩

end

end Sys2Proof.Machine
end

