-- ==== Sys2Proof/Laws/Execute.lean ====
section
/-! SUPPORT. What the execute phases and the run of one instruction can do, said once for each. -/

namespace Sys2Proof.Machine

/-! ## Execute phases (40_execution_cycle.md R128-R130) -/

/-- What every execute phase does from operands that are good: accesses only, and a target in the arena. -/
abbrev ExecuteSpec (P : Params) (x : Execute) : Prop :=
  ∀ (e : Entry) (src dst : Resolved) (s : State) (V : Prop), GoodOperand P V src → GoodOperand P V dst →
    (V → ArenaValid P s) → PhaseSpec P e V s (fun r _ => ∀ a, r.target = some a → a < P.coresize) (x e src dst s)

theorem cellField_fits {P : Params} {c : Cell} (h : c.WellFormed P) (f : Field) : P.Fits (cellField c f) := by
  cases f
  · exact h.2.1
  · exact h.2.2

theorem writtenThenOk_spec {P : Params} {e : Entry} {V : Prop} {s : State} {Q : Unit → State → Prop} {p : Phase Unit}
    {r : Result} (h : PhaseSpec P e V s Q p) (hr : ∀ a, r.target = some a → a < P.coresize) :
    PhaseSpec P e V s (fun r _ => ∀ a, r.target = some a → a < P.coresize) (p.andThen fun _ t => .done r t) :=
  h.andThen fun _ t ht _ => .of_done (.refl P e t) ht hr

theorem movEffect_spec (P : Params) (m : Modifier) : ExecuteSpec P (movEffect P m) := by
  intro e src dst s V hs hd hV
  unfold movEffect
  split
  · exact writtenThenOk_spec (memWrite_spec (.inl hd.1) hV hs.2) (by simp)
  · refine writtenThenOk_spec (fieldWrite_spec (.inl hd.1) hV fun hv w hw => ?_) (by simp)
    obtain ⟨p, -, rfl⟩ := List.mem_map.mp hw
    exact cellField_fits (hs.2 hv) _

/-- `Arith(op)` (42_arithmetic.md R170): DIV_ZERO or OVERFLOW with nothing written, or the results written. -/
theorem arith_spec (P : Params) (divides : Bool) (op : Int → Int → Int) (m : Modifier) :
    ExecuteSpec P (arith P divides op m) := by
  intro e src dst s V _ hd hV
  unfold arith
  split
  · exact .of_raised (.refl P e s) hV
  · split
    · next h => exact writtenThenOk_spec (fieldWrite_spec (.inl hd.1) hV fun _ => by simpa using h) (by simp)
    · exact .of_raised (.refl P e s) hV

theorem jumpIf_target {P : Params} {src : Resolved} (h : src.addr < P.coresize) (c : Bool) :
    ∀ a, (jumpIf c src).target = some a → a < P.coresize := by
  intro a ha
  cases c
  · simp [jumpIf] at ha
  · simp only [jumpIf, if_true, Option.some.injEq] at ha
    exact ha ▸ h

theorem djnEffect_spec (P : Params) (m : Modifier) : ExecuteSpec P (djnEffect P m) := by
  intro e src dst s V hs _ hV
  unfold djnEffect
  split
  · split
    · next h =>
      exact writtenThenOk_spec (fieldWrite_spec (.inl hs.1) hV fun _ => by simpa using h) (jumpIf_target hs.1 _)
    · exact .of_raised (.refl P e s) hV
  · exact .of_done (.refl P e s) hV (jumpIf_target hs.1 _)

theorem skipIf_target {P : Params} (hS : 0 < P.coresize) (e : Entry) (c : Bool) (src : Resolved) :
    ∀ a, (skipIf P e c src).target = some a → a < P.coresize := by
  intro a ha
  cases c
  · simp [skipIf] at ha
  · simp only [skipIf, if_true, Option.some.injEq, skipAddress] at ha
    subst ha
    split <;> exact wrap_lt P hS _ _

/-- Every execute phase, whatever the opcode. -/
theorem effectOf_spec {P : Params} (hS : 0 < P.coresize) (i : Instr) : ExecuteSpec P (effectOf P i) := by
  have quiet : ∀ {e : Entry} {V : Prop} {s : State} {r : Result}, (V → ArenaValid P s) →
      (∀ a, r.target = some a → a < P.coresize) →
      PhaseSpec P e V s (fun r _ => ∀ a, r.target = some a → a < P.coresize) (.done r s) :=
    fun {e _ s _} hV hr => .of_done (.refl P e s) hV hr
  cases i
  case mov => exact movEffect_spec P _
  case add => exact arith_spec P false _ _
  case sub => exact arith_spec P false _ _
  case mul => exact arith_spec P false _ _
  case div => exact arith_spec P true _ _
  case mod => exact arith_spec P true _ _
  case djn => exact djnEffect_spec P _
  case dat | nop => exact fun e _ _ s V _ _ hV => quiet hV (by simp)
  case jmp | jmz | jmn => exact fun e _ _ s V hs _ hV => quiet hV (jumpIf_target hs.1 _)
  case cmp | seq | sne | slt => exact fun e _ _ s V _ _ hV => quiet hV (skipIf_target hS _ _ _)
  case djz | ldp | stp | spl => exact fun e _ _ s V _ _ hV => .of_raised (.refl P e s) hV

/-- An ILLEGAL word's execute phase. -/
theorem raiseUnsupported_spec (P : Params) : ExecuteSpec P raiseUnsupported :=
  fun e _ _ s _ _ _ hV => .of_raised (.refl P e s) hV

/-! ## The queue after a commit (10_state.md R25, 40_execution_cycle.md R131, R132) -/

@[simp] theorem refreshProgramAlive_length (wid : Nat) (q : List Entry) :
    (refreshProgramAlive wid q).length = q.length := by simp [refreshProgramAlive]

/-- Each entry after the liveness bits are computed again. -/
theorem refreshProgramAlive_getElem (wid : Nat) (q : List Entry) (i : Nat) :
    (refreshProgramAlive wid q)[i]? =
      q[i]?.map fun e => if e.wid = wid then { e with programAlive := warriorAlive wid q } else e := by
  simp [refreshProgramAlive]

theorem refreshProgramAlive_wid (wid : Nat) (q : List Entry) :
    (refreshProgramAlive wid q).map Entry.wid = q.map Entry.wid := by
  simp only [refreshProgramAlive, List.map_map]
  refine List.map_congr_left fun e _ => ?_
  simp only [Function.comp]
  split <;> rfl

theorem refreshProgramAlive_alive (wid : Nat) (q : List Entry) (x : Nat) :
    (refreshProgramAlive wid q).any (fun e => e.wid == x && e.processAlive) = warriorAlive x q := by
  simp only [refreshProgramAlive, warriorAlive, List.any_map]
  congr 1
  funext e
  simp only [Function.comp]
  split <;> rfl

@[simp] theorem entry_after_wid (P : Params) (e : Entry) (r : Result) : (e.after P r).wid = e.wid := rfl
@[simp] theorem entry_after_pid (P : Params) (e : Entry) (r : Result) : (e.after P r).pid = e.pid := rfl
@[simp] theorem entry_after_pc (P : Params) (e : Entry) (r : Result) :
    (e.after P r).pc = r.target.getD (wrap P e.pc 1) := rfl
@[simp] theorem entry_after_alive (P : Params) (e : Entry) (r : Result) :
    (e.after P r).processAlive = (e.processAlive && !r.killed) := rfl

/-- A commit on this hardware, after the accesses of the phases: what it leaves, said once. -/
theorem commit_committed {s u : State} {e : Entry} (he : Acting s e) (hu : Accessed .hardware e s u) (op : BitVec 5)
    (r : Result) : Committed s e op r.code (r.target.getD (wrap .hardware e.pc 1)) (e.processAlive && !r.killed)
      (commit .hardware e op r u) := by
  have hq : (commit .hardware e op r u).queue = refreshProgramAlive e.wid (s.queue.set s.cur (e.after .hardware r)) := by
    rw [commit_queue _ (by decide), hu.queue, hu.cur]
  have hlt : s.cur < s.queue.length := (List.getElem?_eq_some_iff.mp he).1
  refine
    { queueLength := by rw [hq]; simp
      acting := ?_
      others := ?_
      programs := ?_
      cursor := by rw [commit_cur _ (by decide), hu.cur, hu.queue]
      status := by simp
      cycles := by simp [hu.cycles]
      fatal := by simp [hu.fatal]
      warriors := by simp [hu.warriors]
      running := by simp [hu.running]
      remaining := by simp [hu.remaining]
      occ := by simp [hu.occ] }
  · rw [hq, refreshProgramAlive_getElem, List.getElem?_set_self hlt]
    exact ⟨_, rfl, by simp, by simp, by simp, by simp⟩
  · intro i x hi hx
    rw [hq, refreshProgramAlive_getElem, List.getElem?_set_ne (Ne.symm hi), hx]
    by_cases hw : x.wid = e.wid
    · exact ⟨_, rfl, by simp [hw], by simp [hw], by simp [hw], by simp [hw], fun h => absurd hw h⟩
    · exact ⟨_, rfl, by simp [hw], by simp [hw], by simp [hw], by simp [hw], by simp [hw]⟩
  · intro x hx hw
    have halive := refreshProgramAlive_alive e.wid (s.queue.set s.cur (e.after .hardware r)) e.wid
    rw [← hq] at halive
    obtain ⟨y, hy, rfl⟩ := List.mem_map.mp (hq ▸ hx)
    have hyw : y.wid = e.wid := by
      by_cases h : y.wid = e.wid
      · exact h
      · simp [h] at hw
    simp only [hyw, if_true]
    rw [← halive]
    simp

/-! ## One instruction -/

/-- exec is execWith at this hardware's parameters. -/
theorem exec_eq_execWith (i : Instr) (s : State) : exec i s = execWith .hardware i s := by cases i <;> rfl

/-- step is stepWith at this hardware's parameters. -/
theorem step_eq_stepWith (s : State) : step s = stepWith .hardware s := by
  have : exec = execWith .hardware := funext fun i => funext fun s => exec_eq_execWith i s
  simp [step, stepWith, this]

/-- The phases of an instruction after its fetch: resolution, then execution. -/
def phases (P : Params) (e : Entry) (a b : Operand) (x : Execute) (s : State) : Phase Result :=
  (resolveOperands P e a b s).andThen fun sd s => x e sd.1 sd.2 s

/-- What the phases of an instruction can do. -/
theorem phases_spec {P : Params} (hS : 0 < P.coresize) (e : Entry) (a b : Operand) {x : Execute}
    (hx : ExecuteSpec P x) {V : Prop} {s : State} (hV : V → ArenaValid P s) :
    PhaseSpec P e V s (fun r _ => ∀ a, r.target = some a → a < P.coresize) (phases P e a b x s) :=
  (resolveOperands_spec hS a b hV).andThen fun sd t ht h => hx e sd.1 sd.2 t V h.1 h.2 ht

/-- The run of an instruction for the acting entry (40_execution_cycle.md R136). -/
theorem runInstr_eq {P : Params} {s : State} {e : Entry} (he : Acting s e) (op : BitVec 5) (a b : Operand)
    (x : Execute) : runInstr P op a b x s = .next (endStep P e op (phases P e a b x s)) := by
  have he' : s.queue[s.cur]? = some e := he
  simp [runInstr, he', phases]

/-- exec for the acting entry. -/
theorem exec_eq {s : State} {e : Entry} (he : Acting s e) (i : Instr) :
    exec i s = .next (endStep .hardware e i.cell.head.opCode
      (phases .hardware e i.cell.a i.cell.b (effectOf .hardware i) s)) := by
  rw [exec_eq_execWith, execWith, runInstr_eq he]

/-- Where operands resolve, the phases are the execute phase. -/
theorem phases_of_done {P : Params} {e : Entry} {a b : Operand} {s u : State} {sd : Resolved × Resolved}
    (h : resolveOperands P e a b s = .done sd u) (x : Execute) : phases P e a b x s = x e sd.1 sd.2 u := by
  simp [phases, h, Phase.andThen]

/-- Every way the run of an instruction can end, said once: a commit on this hardware after accesses, or FATAL latched
with no commit, which needs a pc outside the arena. -/
theorem runInstr_cases {s t : State} {e : Entry} (he : Acting s e) {op : BitVec 5} {a b : Operand} {x : Execute}
    (hx : ExecuteSpec .hardware x) (h : runInstr .hardware op a b x s = .next t) :
    (∃ (r : Result) (u : State), Accessed .hardware e s u ∧ (ArenaValid .hardware s → ArenaValid .hardware u) ∧
      (∀ a, r.target = some a → a < 8000) ∧ t = commit .hardware e op r u) ∨
    (¬e.pc < 8000 ∧ ∃ u, Accessed .hardware e s u ∧ t = latchFatal u) := by
  rw [runInstr_eq he] at h
  have hs := phases_spec (P := .hardware) (by decide) e a b hx (V := ArenaValid .hardware s) (s := s) id
  generalize phases .hardware e a b x s = p at h hs
  obtain rfl : _ = t := by injection h
  cases p with
  | done r u => exact .inl ⟨r, u, (hs.done r u rfl).1, (hs.done r u rfl).2.1, (hs.done r u rfl).2.2, rfl⟩
  | raised r u => exact .inl ⟨r.result, u, (hs.raised r u rfl).1, (hs.raised r u rfl).2, by simp [Raise.result], rfl⟩
  | fatal u => exact .inr (hs.fatal u rfl)

/-- Every way exec can end. -/
theorem exec_cases {s t : State} {e : Entry} (he : Acting s e) {i : Instr} (h : exec i s = .next t) :
    (∃ (r : Result) (u : State), Accessed .hardware e s u ∧ (ArenaValid .hardware s → ArenaValid .hardware u) ∧
      (∀ a, r.target = some a → a < 8000) ∧ t = commit .hardware e i.cell.head.opCode r u) ∨
    (¬e.pc < 8000 ∧ ∃ u, Accessed .hardware e s u ∧ t = latchFatal u) := by
  rw [exec_eq_execWith] at h
  exact runInstr_cases he (effectOf_spec (by decide) i) h

/-! ## Step -/

/-- The fetch of a Step: TOUCHED holds the pc alone (40_execution_cycle.md R114). -/
def fetched (e : Entry) (s : State) : State := touch e.wid e.pc { s with touched := [] }

/-- Step on this hardware, where it fetches: FATAL clear, an acting entry, its pc in the arena
(40_execution_cycle.md R136). -/
theorem step_eq_execCell {s : State} {e : Entry} (hf : s.fatal = false) (he : Acting s e) (hpc : e.pc < 8000) :
    step s = execCell .hardware exec (s.arena.read e.pc) (fetched e s) := by
  have he' : s.queue[s.cur]? = some e := he
  have hq : s.queue ≠ [] := by
    rintro hq
    simp [hq] at he'
  have hfetch : fetch .hardware e s = .done (s.arena.read e.pc) (fetched e s) :=
    memRead_of_lt (P := .hardware) e hpc { s with touched := [] }
  simp [step, stepBy, hf, hq, he', hfetch]

/-- Step on this hardware with FATAL set (40_execution_cycle.md R111). -/
theorem step_of_fatal {s : State} (hf : s.fatal = true) :
    step s = .next { s with status := { s.status with code := .fatalIndex } } := by simp [step, stepBy, hf]

/-- Step on this hardware with no entry (40_execution_cycle.md R112). -/
theorem step_of_empty {s : State} (hf : s.fatal = false) (hq : s.queue = []) :
    step s = .next { s with status := ⟨.emptyQueue, 0, 0, 0, 0⟩ } := by simp [step, stepBy, hf, hq]

/-- Step on this hardware with the acting entry's pc outside the arena: FATAL is latched (60_exceptions.md R247). -/
theorem step_of_pc_outside {s : State} {e : Entry} (hf : s.fatal = false) (he : Acting s e) (hpc : ¬e.pc < 8000) :
    step s = .next (latchFatal { s with touched := [] }) := by
  have he' : s.queue[s.cur]? = some e := he
  have hq : s.queue ≠ [] := by
    rintro hq
    simp [hq] at he'
  have hfetch : fetch .hardware e s = .fatal (latchFatal { s with touched := [] }) :=
    memRead_of_not_lt (P := .hardware) e hpc { s with touched := [] }
  simp [step, stepBy, hf, hq, he', hfetch]

/-- Every way a Step that fetches can end, said once: one commit after accesses that begin with TOUCHED empty. -/
theorem step_cases {s t : State} {e : Entry} (hf : s.fatal = false) (he : Acting s e) (hpc : e.pc < 8000)
    (h : step s = .next t) :
    ∃ (op : BitVec 5) (r : Result) (u : State), Accessed .hardware e { s with touched := [] } u ∧
      (ArenaValid .hardware s → ArenaValid .hardware u) ∧ (∀ a, r.target = some a → a < 8000) ∧
      op = (s.arena.read e.pc).head.opCode ∧ t = commit .hardware e op r u := by
  rw [step_eq_execCell hf he hpc] at h
  have he' : Acting (fetched e s) e := he
  have hacc : Accessed .hardware e { s with touched := [] } (fetched e s) :=
    accessed_touch (P := .hardware) e hpc { s with touched := [] }
  have hval : ArenaValid .hardware s → ArenaValid .hardware (fetched e s) := fun hv => ⟨hv.canonical, hv.range, hv.cells⟩
  generalize s.arena.read e.pc = c at h
  obtain ⟨head, a, b⟩ := c
  have finish : ∀ {op : BitVec 5} {x : Execute}, ExecuteSpec .hardware x →
      runInstr .hardware op a b x (fetched e s) = .next t → op = head.opCode →
      ∃ (op : BitVec 5) (r : Result) (u : State), Accessed .hardware e { s with touched := [] } u ∧
        (ArenaValid .hardware s → ArenaValid .hardware u) ∧ (∀ a, r.target = some a → a < 8000) ∧
        op = head.opCode ∧ t = commit .hardware e op r u := by
    intro op x hx hrun hop
    rcases runInstr_cases he' hx hrun with ⟨r, u, h1, h2, h3, h4⟩ | ⟨h1, -⟩
    · exact ⟨op, r, u, hacc.trans h1, fun hv => h2 (hval hv), h3, hop, h4⟩
    · exact absurd hpc h1
  cases head with
  | legal o m =>
    have h' : exec (o.instr m a b) (fetched e s) = .next t := h
    rw [exec_eq_execWith, execWith] at h'
    have hcell : (o.instr m a b).cell = ⟨.legal o m, a, b⟩ := by cases o <;> rfl
    rw [hcell] at h'
    exact finish (effectOf_spec (by decide) _) h' rfl
  | illegal op m rsv => exact finish (raiseUnsupported_spec _) h rfl

end Sys2Proof.Machine
end

