-- ==== Sys2Proof/Laws/Loader.lean ====
section
/-! SUPPORT. What the operations of the loader can do, said once for each (70_reset_and_hazards.md R284-R291). -/

namespace Sys2Proof.Machine

/-! ## Addresses of a footprint -/

theorem mem_footprint {P : Params} {c len a : Nat} :
    a ∈ footprint P c len ↔ ∃ i : Nat, i < len ∧ a = wrap P c (i : Int) := by
  simp only [footprint, List.mem_map, List.mem_range]
  exact ⟨fun ⟨i, h1, h2⟩ => ⟨i, h1, h2.symm⟩, fun ⟨i, h1, h2⟩ => ⟨i, h1, h2.symm⟩⟩

theorem footprint_lt {P : Params} (hS : 0 < P.coresize) {c len a : Nat} (h : a ∈ footprint P c len) :
    a < P.coresize := by
  obtain ⟨i, -, rfl⟩ := mem_footprint.mp h
  exact wrap_lt P hS _ _

/-- Two offsets below S from one start are two addresses. -/
theorem wrap_inj {P : Params} {c i j : Nat} (hi : i < P.coresize) (hj : j < P.coresize)
    (h : wrap P c (i : Int) = wrap P c (j : Int)) : i = j := by
  have h1 := wrap_cast P (by omega) c i
  have h2 := wrap_cast P (by omega) c j
  rw [h] at h1
  have h3 : ((c : Int) + i) % (P.coresize : Int) = ((c : Int) + j) % (P.coresize : Int) := h1.symm.trans h2
  have h5 : (P.coresize : Int) ∣ (((c : Int) + i) - ((c : Int) + j)) :=
    Int.dvd_of_emod_eq_zero (Int.emod_eq_emod_iff_emod_sub_eq_zero.mp h3)
  obtain ⟨k, hk⟩ := h5
  have hk0 : k = 0 := by
    rcases Int.lt_trichotomy k 0 with hk' | hk' | hk'
    · have : (P.coresize : Int) * k ≤ (P.coresize : Int) * (-1) := Int.mul_le_mul_of_nonneg_left (by omega) (by omega)
      omega
    · exact hk'
    · have : (P.coresize : Int) * 1 ≤ (P.coresize : Int) * k := Int.mul_le_mul_of_nonneg_left (by omega) (by omega)
      omega
  subst hk0
  omega

theorem candidate_lt {P : Params} (hS : 0 < P.coresize) (draw : Nat → Nat → Nat) (j t : Nat) (mode : StartMode) :
    candidate P draw j t mode < P.coresize := by cases mode <;> exact wrap_lt P hS _ _

/-! ## The bitmap and the activity signal after a list of addresses is marked -/

section
variable {α : Type} [DecidableEq α] {d v : α}

/-- A list of addresses set to one value. -/
theorem get_foldl_set (d v : α) (fp : List Nat) (m : List (Nat × α)) (a : Nat) :
    Sparse.get d (fp.foldl (fun m a => Sparse.set d m a v) m) a = if a ∈ fp then v else Sparse.get d m a := by
  induction fp generalizing m with
  | nil => simp
  | cons x fp ih =>
    rw [List.foldl_cons, ih, Sparse.get_set]
    by_cases h1 : a ∈ fp <;> by_cases h2 : a = x <;> simp [h1, h2]

theorem wf_foldl_set (fp : List Nat) {m : List (Nat × α)} (h : Sparse.wf d m = true) :
    Sparse.wf d (fp.foldl (fun m a => Sparse.set d m a v) m) = true := by
  induction fp generalizing m with
  | nil => exact h
  | cons x fp ih => exact ih (Sparse.wf_set h x v)

theorem below_foldl_set {n : Nat} (fp : List Nat) {m : List (Nat × α)} (h : Sparse.below n m = true)
    (hfp : ∀ a ∈ fp, a < n) : Sparse.below n (fp.foldl (fun m a => Sparse.set d m a v) m) = true := by
  induction fp generalizing m with
  | nil => exact h
  | cons x fp ih =>
    exact ih (Sparse.below_set h (hfp x (List.mem_cons_self ..)) v) fun a ha => hfp a (List.mem_cons_of_mem _ ha)

theorem mem_foldl_set (fp : List Nat) {m : List (Nat × α)} {kv : Nat × α}
    (h : kv ∈ fp.foldl (fun m a => Sparse.set d m a v) m) : kv.2 = v ∨ kv ∈ m := by
  induction fp generalizing m with
  | nil => exact .inr h
  | cons x fp ih =>
    rcases ih h with h | h
    · exact .inl h
    · rcases Sparse.mem_set h with rfl | h
      · exact .inl rfl
      · exact .inr h

end

/-- OCC after a footprint is marked. -/
theorem occupied_mark (occ : List (Nat × Bool)) (fp : List Nat) (a : Nat) :
    occupied (mark occ fp) a = (decide (a ∈ fp) || occupied occ a) := by
  unfold occupied mark
  rw [get_foldl_set]
  by_cases h : a ∈ fp <;> simp [h]

/-! ## Placement -/

/-- A placed start: one of the candidates, its footprint free (70_reset_and_hazards.md R285, R288). -/
theorem place_some {P : Params} {draw : Nat → Nat → Nat} {j len : Nat} {mode : StartMode} {occ : List (Nat × Bool)}
    {fuel t c : Nat} (h : place P draw j len mode occ fuel t = some c) :
    (∃ k : Nat, k < fuel ∧ c = candidate P draw j (t + k) mode) ∧ ∀ a ∈ footprint P c len, occupied occ a = false := by
  induction fuel generalizing t with
  | zero => cases h
  | succ fuel ih =>
    unfold place at h
    split at h
    · next hfree =>
      obtain rfl := Option.some.inj h
      exact ⟨⟨0, by omega, rfl⟩, by simpa using hfree⟩
    · obtain ⟨⟨k, hk, hc⟩, hfree⟩ := ih h
      exact ⟨⟨k + 1, by omega, by rw [hc]; congr 1; omega⟩, hfree⟩

/-- No start: every candidate meets an occupied cell (70_reset_and_hazards.md R290). -/
theorem place_none {P : Params} {draw : Nat → Nat → Nat} {j len : Nat} {mode : StartMode} {occ : List (Nat × Bool)}
    {fuel t : Nat} : place P draw j len mode occ fuel t = none ↔
      ∀ k : Nat, k < fuel → ∃ a ∈ footprint P (candidate P draw j (t + k) mode) len, occupied occ a = true := by
  induction fuel generalizing t with
  | zero => simp [place]
  | succ fuel ih =>
    unfold place
    split
    · next hfree =>
      refine ⟨fun h => (nomatch h), fun h => ?_⟩
      obtain ⟨a, ha, hocc⟩ := h 0 (by omega)
      have := List.all_eq_true.mp hfree a ha
      simp [hocc] at this
    · next hbusy =>
      rw [ih]
      refine ⟨fun h k hk => ?_, fun h k hk => ?_⟩
      · cases k with
        | zero => simpa using hbusy
        | succ k =>
          have := h k (by omega)
          rwa [show t + 1 + k = t + (k + 1) by omega] at this
      · have := h (k + 1) (by omega)
        rwa [show t + (k + 1) = t + 1 + k by omega] at this

/-- The first candidate whose footprint is free is the start (70_reset_and_hazards.md R285, R290). -/
theorem place_first {P : Params} {draw : Nat → Nat → Nat} {j len : Nat} {mode : StartMode} {occ : List (Nat × Bool)}
    {fuel t k : Nat} (hk : k < fuel)
    (hfree : ∀ a ∈ footprint P (candidate P draw j (t + k) mode) len, occupied occ a = false)
    (hbusy : ∀ k' : Nat, k' < k → ∃ a ∈ footprint P (candidate P draw j (t + k') mode) len, occupied occ a = true) :
    place P draw j len mode occ fuel t = some (candidate P draw j (t + k) mode) := by
  induction fuel generalizing t k with
  | zero => omega
  | succ fuel ih =>
    unfold place
    cases k with
    | zero => exact if_pos (by simpa using hfree)
    | succ k =>
      rw [if_neg (by simpa using hbusy 0 (by omega)), ih (k := k) (by omega), show t + 1 + k = t + (k + 1) by omega]
      · rwa [show t + 1 + k = t + (k + 1) by omega]
      · intro k' hk'
        have := hbusy (k' + 1) (by omega)
        rwa [show t + 1 + k' = t + (k' + 1) by omega]

/-- The specs after one that is placed are placed in the bitmap marked with its footprint. -/
theorem placeAll_cons {P : Params} {draw : Nat → Nat → Nat} {j c : Nat} {w : WarriorSpec P.fieldBits}
    {occ : List (Nat × Bool)} (ws : List (WarriorSpec P.fieldBits))
    (h : place P draw j w.code.length w.start occ (1 + P.placeRetries) 0 = some c) :
    placeAll P draw j (w :: ws) occ =
      (placeAll P draw (j + 1) ws (mark occ (footprint P c w.code.length))).map fun r => (c :: r.1, r.2) := by
  simp only [placeAll, h]
  cases placeAll P draw (j + 1) ws (mark occ (footprint P c w.code.length)) <;> rfl

theorem placeAll_exhausted {P : Params} {draw : Nat → Nat → Nat} {j : Nat} {w : WarriorSpec P.fieldBits}
    {occ : List (Nat × Bool)} (ws : List (WarriorSpec P.fieldBits))
    (h : place P draw j w.code.length w.start occ (1 + P.placeRetries) 0 = none) :
    placeAll P draw j (w :: ws) occ = none := by
  simp only [placeAll, h]

/-- The starts of a list of specs, said once: one for each spec, in the arena, its footprint free of the bitmap and of
the footprints before it, and the bitmap marked with them all (70_reset_and_hazards.md R285, R288). -/
inductive Placements (P : Params) :
    List (WarriorSpec P.fieldBits) → List (Nat × Bool) → List Nat → List (Nat × Bool) → Prop
  | nil (occ : List (Nat × Bool)) : Placements P [] occ [] occ
  | cons {w : WarriorSpec P.fieldBits} {ws : List (WarriorSpec P.fieldBits)} {occ occ' : List (Nat × Bool)} {c : Nat}
      {cs : List Nat} (lt : c < P.coresize) (free : ∀ a ∈ footprint P c w.code.length, occupied occ a = false)
      (rest : Placements P ws (mark occ (footprint P c w.code.length)) cs occ') : Placements P (w :: ws) occ (c :: cs) occ'

theorem placeAll_some {P : Params} (hS : 0 < P.coresize) {draw : Nat → Nat → Nat} {j : Nat}
    {specs : List (WarriorSpec P.fieldBits)} {occ occ' : List (Nat × Bool)} {cs : List Nat}
    (h : placeAll P draw j specs occ = some (cs, occ')) : Placements P specs occ cs occ' := by
  induction specs generalizing j occ cs with
  | nil =>
    obtain ⟨rfl, rfl⟩ := Prod.mk.inj (Option.some.inj h)
    exact .nil occ
  | cons w ws ih =>
    unfold placeAll at h
    split at h
    · cases h
    · next c hc =>
      split at h
      · cases h
      · next cs' occ'' hrest =>
        obtain ⟨rfl, rfl⟩ := Prod.mk.inj (Option.some.inj h)
        obtain ⟨⟨k, -, rfl⟩, hfree⟩ := place_some hc
        exact .cons (candidate_lt hS ..) hfree (ih hrest)

theorem Placements.mono {P : Params} {specs : List (WarriorSpec P.fieldBits)} {occ occ' : List (Nat × Bool)}
    {cs : List Nat} (h : Placements P specs occ cs occ') {a : Nat} (ha : occupied occ a = true) :
    occupied occ' a = true := by
  induction h with
  | nil => exact ha
  | cons _ _ _ ih => exact ih (by rw [occupied_mark]; simp [ha])

theorem Placements.wf {P : Params} {specs : List (WarriorSpec P.fieldBits)} {occ occ' : List (Nat × Bool)}
    {cs : List Nat} (h : Placements P specs occ cs occ') (ho : Sparse.wf false occ = true) :
    Sparse.wf false occ' = true := by
  induction h with
  | nil => exact ho
  | cons _ _ _ ih => exact ih (wf_foldl_set _ ho)

theorem Placements.inRange {P : Params} (hS : 0 < P.coresize) {specs : List (WarriorSpec P.fieldBits)}
    {occ occ' : List (Nat × Bool)} {cs : List Nat} (h : Placements P specs occ cs occ')
    (ho : Sparse.below P.coresize occ = true) : Sparse.below P.coresize occ' = true := by
  induction h with
  | nil => exact ho
  | cons _ _ _ ih => exact ih (below_foldl_set _ ho fun _ => footprint_lt hS)

/-! ## Commit -/

/-- The arena after a warrior's cells are written, at an address outside them. -/
theorem writeCode_other {P : Params} {c : Nat} {xs : List Cell} {i : Nat} {m : Memory} {a : Nat}
    (h : ∀ k : Nat, k < xs.length → a ≠ wrap P c ((i + k : Nat) : Int)) : (writeCode P c i xs m).read a = m.read a := by
  induction xs generalizing i m with
  | nil => rfl
  | cons x xs ih =>
    unfold writeCode
    rw [ih fun k hk => by
      have := h (k + 1) (by simpa using hk)
      rwa [show i + (k + 1) = i + 1 + k by omega] at this]
    exact Memory.read_write_other _ _ (by simpa using h 0 (by simp))

/-- The arena after a warrior's cells are written, at one of them; the warrior fits the arena. -/
theorem writeCode_at {P : Params} {c : Nat} {xs : List Cell} {i : Nat} {m : Memory} (hlen : i + xs.length ≤ P.coresize)
    {k : Nat} {x : Cell} (hk : xs[k]? = some x) :
    (writeCode P c i xs m).read (wrap P c ((i + k : Nat) : Int)) = x := by
  induction xs generalizing i m k with
  | nil => simp at hk
  | cons y xs ih =>
    simp only [List.length_cons] at hlen
    unfold writeCode
    cases k with
    | zero =>
      obtain rfl : y = x := by simpa using hk
      rw [writeCode_other fun k hk' heq => by
        have := wrap_inj (by omega) (by omega) heq
        omega]
      simp
    | succ k =>
      have := ih (i := i + 1) (m := m.write (wrap P c (i : Int)) y) (by omega) (k := k) (by simpa using hk)
      rwa [show i + 1 + k = i + (k + 1) by omega] at this

theorem writeCode_wf {P : Params} {c : Nat} {xs : List Cell} {i : Nat} {m : Memory} (h : m.wf = true) :
    (writeCode P c i xs m).wf = true := by
  induction xs generalizing i m with
  | nil => exact h
  | cons x xs ih => exact ih (Memory.wf_write h _ _)

theorem writeCode_below {P : Params} (hS : 0 < P.coresize) {c : Nat} {xs : List Cell} {i : Nat} {m : Memory}
    (h : Sparse.below P.coresize m = true) : Sparse.below P.coresize (writeCode P c i xs m) = true := by
  induction xs generalizing i m with
  | nil => exact h
  | cons x xs ih => exact ih (Sparse.below_set h (wrap_lt P hS _ _) _)

theorem writeCode_mem {P : Params} {c : Nat} {xs : List Cell} {i : Nat} {m : Memory} {kv : Nat × Cell}
    (h : kv ∈ writeCode P c i xs m) : kv.2 ∈ xs ∨ kv ∈ m := by
  induction xs generalizing i m with
  | nil => exact .inr h
  | cons x xs ih =>
    rcases ih h with h | h
    · exact .inl (List.mem_cons_of_mem _ h)
    · rcases Sparse.mem_set h with rfl | h
      · exact .inl (List.mem_cons_self ..)
      · exact .inr h

/-- A fact about the bitmap and the state that each commit of a placed spec keeps holds after all of them. -/
theorem Placements.commitAll {P : Params} {motive : List (Nat × Bool) → State → Prop}
    {specs : List (WarriorSpec P.fieldBits)} {occ occ' : List (Nat × Bool)} {cs : List Nat} {s : State}
    (h : Placements P specs occ cs occ')
    (keep : ∀ w ∈ specs, ∀ c occ s, c < P.coresize → (∀ a ∈ footprint P c w.code.length, occupied occ a = false) →
      motive occ s → motive (mark occ (footprint P c w.code.length)) (commitWarrior P w c s))
    (start : motive occ s) : motive occ' (Machine.commitAll P specs cs s) := by
  induction h generalizing s with
  | nil => exact start
  | cons lt free _ ih =>
    exact ih (fun w hw => keep w (List.mem_cons_of_mem _ hw)) (keep _ (List.mem_cons_self ..) _ _ _ lt free start)

theorem commitAll_cons (P : Params) (w : WarriorSpec P.fieldBits) (ws : List (WarriorSpec P.fieldBits)) (c : Nat)
    (cs : List Nat) (s : State) : Machine.commitAll P (w :: ws) (c :: cs) s =
      Machine.commitAll P ws cs (commitWarrior P w c s) := rfl

/-- All commits: one record and one entry a spec, in load order; the registers are as before. `st` gives the starts, the
specs being numbered from j on (70_reset_and_hazards.md R285, R289). -/
theorem commitAll_tables {P : Params} (specs : List (WarriorSpec P.fieldBits)) (st : Nat → Nat) (j : Nat) (s : State) :
    (Machine.commitAll P specs (specs.mapIdx fun i _ => st (j + i)) s).queue =
      s.queue ++ specs.mapIdx (fun i _ => ⟨s.warriors.length + i, 0, true, true, st (j + i)⟩) ∧
    (Machine.commitAll P specs (specs.mapIdx fun i _ => st (j + i)) s).warriors =
      s.warriors ++ specs.mapIdx (fun i w =>
        ⟨s.warriors.length + i, w.title, w.tag, w.code.map (decodeCell P.fieldBits), st (j + i)⟩) := by
  induction specs generalizing j s with
  | nil => simp [Machine.commitAll]
  | cons w ws ih =>
    have := ih (j + 1) (commitWarrior P w (st (j + 0)) s)
    simp only [show ∀ i, j + 1 + i = j + (i + 1) by omega] at this
    rw [List.mapIdx_cons, commitAll_cons, this.1, this.2]
    simp [commitWarrior, List.mapIdx_cons, Nat.add_assoc, Nat.add_comm 1]

theorem commitAll_registers {P : Params} (specs : List (WarriorSpec P.fieldBits)) (cs : List Nat) (s : State) :
    (Machine.commitAll P specs cs s).cur = s.cur ∧ (Machine.commitAll P specs cs s).running = s.running ∧
    (Machine.commitAll P specs cs s).remaining = s.remaining ∧ (Machine.commitAll P specs cs s).cycles = s.cycles ∧
    (Machine.commitAll P specs cs s).status = s.status ∧ (Machine.commitAll P specs cs s).fatal = s.fatal := by
  induction specs generalizing cs s with
  | nil => simp [Machine.commitAll]
  | cons w ws ih =>
    cases cs with
    | nil => simp [Machine.commitAll]
    | cons c cs => exact ih cs (commitWarrior P w c s)

/-- The cell and the activity of an address that no footprint covers. -/
theorem commitAll_other {P : Params} (specs : List (WarriorSpec P.fieldBits)) (st : Nat → Nat) (j : Nat) (s : State)
    {a : Nat} (h : ∀ (i : Nat) (w : WarriorSpec P.fieldBits), specs[i]? = some w →
      a ∉ footprint P (st (j + i)) w.code.length) :
    (Machine.commitAll P specs (specs.mapIdx fun i _ => st (j + i)) s).arena.read a = s.arena.read a ∧
    Sparse.get none (Machine.commitAll P specs (specs.mapIdx fun i _ => st (j + i)) s).act a = Sparse.get none s.act a := by
  induction specs generalizing j s with
  | nil => simp [Machine.commitAll]
  | cons w ws ih =>
    have hrest := ih (j + 1) (commitWarrior P w (st (j + 0)) s) fun i v hv => by
      rw [show j + 1 + i = j + (i + 1) by omega]
      exact h (i + 1) v (by simpa using hv)
    simp only [show ∀ i, j + 1 + i = j + (i + 1) by omega] at hrest
    have hout : a ∉ footprint P (st (j + 0)) w.code.length := h 0 w (by simp)
    rw [List.mapIdx_cons, commitAll_cons, hrest.1, hrest.2]
    exact ⟨writeCode_other fun k hk heq => hout (mem_footprint.mpr ⟨k, by simpa using hk, by simpa using heq⟩),
      (get_foldl_set ..).trans (if_neg hout)⟩

/-- The cell and the activity of an address of the n-th footprint that no later one covers. -/
theorem commitAll_at {P : Params} (specs : List (WarriorSpec P.fieldBits)) (st : Nat → Nat) (j : Nat) (s : State)
    {n i : Nat} {w : WarriorSpec P.fieldBits} {x : CellWord P.fieldBits} (hn : specs[n]? = some w)
    (hx : w.code[i]? = some x) (hlen : w.code.length ≤ P.coresize)
    (hlater : ∀ (m : Nat) (v : WarriorSpec P.fieldBits), n < m → specs[m]? = some v →
      wrap P (st (j + n)) (i : Int) ∉ footprint P (st (j + m)) v.code.length) :
    (Machine.commitAll P specs (specs.mapIdx fun i _ => st (j + i)) s).arena.read (wrap P (st (j + n)) (i : Int)) =
      decodeCell P.fieldBits x ∧
    Sparse.get none (Machine.commitAll P specs (specs.mapIdx fun i _ => st (j + i)) s).act (wrap P (st (j + n)) (i : Int)) =
      some (s.warriors.length + n) := by
  induction specs generalizing j s n with
  | nil => simp at hn
  | cons v ws ih =>
    rw [List.mapIdx_cons, commitAll_cons]
    cases n with
    | zero =>
      obtain rfl : v = w := by simpa using hn
      have hrest := commitAll_other ws st (j + 1) (commitWarrior P v (st (j + 0)) s) (a := wrap P (st (j + 0)) (i : Int))
        fun m u hu => by
          rw [show j + 1 + m = j + (m + 1) by omega]
          exact hlater (m + 1) u (by omega) (by simpa using hu)
      simp only [show ∀ i, j + 1 + i = j + (i + 1) by omega] at hrest
      rw [hrest.1, hrest.2]
      have hin := (List.getElem?_eq_some_iff.mp hx).1
      have hcell := writeCode_at (P := P) (c := st (j + 0)) (xs := v.code.map (decodeCell P.fieldBits)) (i := 0)
        (m := s.arena) (by simpa using hlen) (k := i) (x := decodeCell P.fieldBits x) (by simp [hx])
      rw [Nat.zero_add] at hcell
      exact ⟨hcell, (get_foldl_set ..).trans (if_pos (mem_footprint.mpr ⟨i, hin, rfl⟩))⟩
    | succ n =>
      have hrest := ih (j + 1) (commitWarrior P v (st (j + 0)) s) (n := n) (by simpa using hn) fun m u hm hu => by
        rw [show j + 1 + m = j + (m + 1) by omega, show j + 1 + n = j + (n + 1) by omega]
        exact hlater (m + 1) u (by omega) (by simpa using hu)
      simp only [show ∀ i, j + 1 + i = j + (i + 1) by omega] at hrest
      refine ⟨hrest.1, hrest.2.trans ?_⟩
      simp only [commitWarrior, List.length_append, List.length_singleton, Option.some.injEq]
      omega

/-- The checks pass exactly where none of their four conditions holds (70_reset_and_hazards.md R286). -/
theorem loadCheck_none {P : Params} {specs : List (WarriorSpec P.fieldBits)} {s : State} :
    loadCheck P specs s = none ↔ s.queue.length + specs.length ≤ P.queueCap ∧ (∀ w ∈ specs, w.code ≠ []) ∧
      (∀ w ∈ specs, ∀ x ∈ w.code, (decodeCell P.fieldBits x).instr ≠ none) ∧
      occupiedCount P s.occ + (specs.map fun w => w.code.length).sum ≤ P.coresize := by
  unfold loadCheck
  split
  · next h => simpa using fun h' => absurd h' (by omega)
  · next h1 =>
    split
    · next h => simpa using fun _ h' => absurd h (by simpa using h')
    · next h2 =>
      split
      · next h => simpa using fun _ _ h' => absurd h (by simpa using h')
      · next h3 =>
        split
        · next h => simpa using fun _ _ _ => h
        · next h4 =>
          exact iff_of_true rfl ⟨by omega, by simpa using h2, by simpa using h3, by omega⟩

/-- LoadWarriors where the checks pass: the specs placed and committed, or the retries exhausted
(70_reset_and_hazards.md R285, R290). -/
theorem loadWarriors_of_check {P : Params} {draw : Nat → Nat → Nat} {specs : List (WarriorSpec P.fieldBits)} {s : State}
    (hne : specs ≠ []) (hcheck : loadCheck P specs s = none) :
    loadWarriors P draw specs s = match placeAll P draw 0 specs s.occ with
      | none => (s, some .retriesExhausted)
      | some (cs, occ') => ({ Machine.commitAll P specs cs s with occ := occ', touched := [] }, none) := by
  cases h : placeAll P draw 0 specs s.occ <;> simp only [loadWarriors, if_neg hne, hcheck, h]

/-- What LoadWarriors can do, said once (70_reset_and_hazards.md R285): an error and the same state; nothing to load; or
the checks passed, the specs placed, and their commits. -/
theorem loadWarriors_cases {P : Params} (hS : 0 < P.coresize) (draw : Nat → Nat → Nat)
    (specs : List (WarriorSpec P.fieldBits)) (s : State) :
    ((loadWarriors P draw specs s).1 = s ∧ ((loadWarriors P draw specs s).2 ≠ none ∨ specs = [])) ∨
    (loadCheck P specs s = none ∧ (loadWarriors P draw specs s).2 = none ∧ ∃ cs occ', Placements P specs s.occ cs occ' ∧
      (loadWarriors P draw specs s).1 = { commitAll P specs cs s with occ := occ', touched := [] }) := by
  unfold loadWarriors
  split
  · next h => exact .inl ⟨rfl, .inr h⟩
  · split
    · exact .inl ⟨rfl, .inl (by simp)⟩
    · next hcheck =>
      split
      · exact .inl ⟨rfl, .inl (by simp)⟩
      · next cs occ' hp => exact .inr ⟨hcheck, rfl, cs, occ', placeAll_some hS hp, rfl⟩

end Sys2Proof.Machine
end

