-- ==== Sys2Proof/Laws/PerInstr.lean ====
section
/-! SUPPORT. Statements for every instruction, one lemma for each constructor. -/

namespace Sys2Proof.Laws.HoldsItself

/-- A cell holds exactly one instruction (30_encoding.md R80): the cell of an instruction holds that instruction, its
opcode code is the table's and its reserved bits are 00. -/
def Statement (i : Instr) : Prop :=
  i.cell.instr = some i ∧ i.cell.head.reserved = 0 ∧ Opcode.ofCode i.cell.head.opCode ≠ none

theorem dat (m : Modifier) (a b : Operand) : Statement (.dat m a b) := ⟨rfl, rfl, by simp [Instr.cell, Head.opCode]⟩

theorem mov (m : Modifier) (a b : Operand) : Statement (.mov m a b) := ⟨rfl, rfl, by simp [Instr.cell, Head.opCode]⟩

theorem add (m : Modifier) (a b : Operand) : Statement (.add m a b) := ⟨rfl, rfl, by simp [Instr.cell, Head.opCode]⟩

theorem sub (m : Modifier) (a b : Operand) : Statement (.sub m a b) := ⟨rfl, rfl, by simp [Instr.cell, Head.opCode]⟩

theorem mul (m : Modifier) (a b : Operand) : Statement (.mul m a b) := ⟨rfl, rfl, by simp [Instr.cell, Head.opCode]⟩

theorem div (m : Modifier) (a b : Operand) : Statement (.div m a b) := ⟨rfl, rfl, by simp [Instr.cell, Head.opCode]⟩

theorem mod (m : Modifier) (a b : Operand) : Statement (.mod m a b) := ⟨rfl, rfl, by simp [Instr.cell, Head.opCode]⟩

theorem jmp (m : Modifier) (a b : Operand) : Statement (.jmp m a b) := ⟨rfl, rfl, by simp [Instr.cell, Head.opCode]⟩

theorem jmz (m : Modifier) (a b : Operand) : Statement (.jmz m a b) := ⟨rfl, rfl, by simp [Instr.cell, Head.opCode]⟩

theorem jmn (m : Modifier) (a b : Operand) : Statement (.jmn m a b) := ⟨rfl, rfl, by simp [Instr.cell, Head.opCode]⟩

theorem djz (m : Modifier) (a b : Operand) : Statement (.djz m a b) := ⟨rfl, rfl, by simp [Instr.cell, Head.opCode]⟩

theorem djn (m : Modifier) (a b : Operand) : Statement (.djn m a b) := ⟨rfl, rfl, by simp [Instr.cell, Head.opCode]⟩

theorem cmp (m : Modifier) (a b : Operand) : Statement (.cmp m a b) := ⟨rfl, rfl, by simp [Instr.cell, Head.opCode]⟩

theorem seq (m : Modifier) (a b : Operand) : Statement (.seq m a b) := ⟨rfl, rfl, by simp [Instr.cell, Head.opCode]⟩

theorem sne (m : Modifier) (a b : Operand) : Statement (.sne m a b) := ⟨rfl, rfl, by simp [Instr.cell, Head.opCode]⟩

theorem slt (m : Modifier) (a b : Operand) : Statement (.slt m a b) := ⟨rfl, rfl, by simp [Instr.cell, Head.opCode]⟩

theorem ldp (m : Modifier) (a b : Operand) : Statement (.ldp m a b) := ⟨rfl, rfl, by simp [Instr.cell, Head.opCode]⟩

theorem stp (m : Modifier) (a b : Operand) : Statement (.stp m a b) := ⟨rfl, rfl, by simp [Instr.cell, Head.opCode]⟩

theorem nop (m : Modifier) (a b : Operand) : Statement (.nop m a b) := ⟨rfl, rfl, by simp [Instr.cell, Head.opCode]⟩

theorem spl (m : Modifier) (a b : Operand) : Statement (.spl m a b) := ⟨rfl, rfl, by simp [Instr.cell, Head.opCode]⟩

end Sys2Proof.Laws.HoldsItself
end

