-- ==== Sys2Proof/Tests/Slice0.lean ====
section
/-! SUPPORT. Tests against the words and vectors of 95_test_vectors.md, the smoke test of WellFormed, and the witnesses of
the statements' hypotheses. -/

namespace Sys2Proof.Tests

open Sys2Proof Sys2Proof.Machine

/-! ## Helpers -/

/-- `DAT.F #x, #y`. -/
def dat (x y : Int) : Cell := ⟨.legal .dat .f, ⟨.immediate, x⟩, ⟨.immediate, y⟩⟩

/-- An operand of mode Immediate. -/
def imm (x : Int) : Operand := ⟨.immediate, x⟩

/-- An operand of mode Direct. -/
def dir (x : Int) : Operand := ⟨.direct, x⟩

/-- The entry of the vectors: warrior 0, process 0, alive (95_test_vectors.md, Conventions). -/
def entryAt (pc : Nat) : Entry := ⟨0, 0, true, true, pc⟩

/-- The start state of the vectors: one entry, and the cells listed. -/
def startAt (pc : Nat) (cells : Memory) : State := { State.reset with arena := cells, queue := [entryAt pc] }

/-- The start state with an instruction at 100 and the cells listed after it. -/
def start (i : Instr) (cells : Memory) : State := startAt 100 ((100, i.cell) :: cells)

/-- What the vectors show of a Step: the cell at an address, the entry's pc and liveness, the code. -/
def shows (a : Nat) (r : Answer) : Option (Cell × Option (Nat × Bool) × StatusCode) :=
  match r with
  | .next t => some (t.arena.read a, t.queue.head?.map fun e => (e.pc, e.processAlive), t.status.code)
  | .fault _ => none
  | .refused _ => none

/-- TOUCHED after a Step. -/
def touches (r : Answer) : List Nat :=
  match r with
  | .next t => t.touched
  | .fault _ => []
  | .refused _ => []

/-- The state after a Step; the power-on state where it stops. -/
def after (r : Answer) : State :=
  match r with
  | .next t => t
  | .fault _ => State.reset
  | .refused _ => State.reset

/-! ## WellFormed: one ill-formed term for each check -/

theorem test_wellFormed_refuses_a_field_above_the_range : ¬(Instr.mov .i (dir 2147483648) (dir 0)).WellFormed .hardware := by
  decide

theorem test_wellFormed_refuses_a_field_below_the_range : ¬(Instr.mov .i (dir 0) (dir (-2147483649))).WellFormed .hardware := by
  decide

theorem test_wellFormed_accepts_the_ends : (Instr.dat .f (imm (-2147483648)) (imm 2147483647)).WellFormed .hardware := by
  decide

theorem test_wellFormed_refuses_an_illegal_cell : ¬(Cell.mk (.illegal 20 0 0) (dir 0) (dir 0)).WellFormed .hardware := by
  decide

theorem test_wellFormed_refuses_a_cell_with_a_wide_field : ¬(dat 2147483648 0).WellFormed .hardware := by decide

-- 00_scope.md R6: ADDR_BITS of this hardware and of the smallest arena.
theorem test_addrBits : Params.hardware.addrBits = 13 ∧ { Params.hardware with coresize := 1 }.addrBits = 1 := by decide

/-! ## Decode: each constructor from a word written out from 30_encoding.md R81-R84

Control half, from bit 15 down: reserved 2, B-mode 3, A-mode 3, modifier 3, opcode 5. -/

-- 95_test_vectors.md L2.1 gives the words of DAT, MOV, ADD, JMP, DJN, CMP, SEQ, SLT, NOP, SPL and the ILLEGAL ones.
theorem test_decode_dat : decode 32 0x00000000_00000000_0980 = .ok (.dat .f (dir 0) (dir 0)) := by rfl
theorem test_decode_mov : decode 32 0x00000001_00000000_09C1 = .ok (.mov .i (dir 0) (dir 1)) := by rfl
theorem test_decode_add : decode 32 0x00000003_00000004_0842 = .ok (.add .ab (imm 4) (dir 3)) := by rfl
-- SUB.B $1, $2: 00 001 001 001 00011.
theorem test_decode_sub : decode 32 0x00000002_00000001_0923 = .ok (.sub .b (dir 1) (dir 2)) := by rfl
-- MUL.F *1, @2: 00 011 010 100 00100.
theorem test_decode_mul : decode 32 0x00000002_00000001_1A84 = .ok (.mul .f ⟨.aIndirect, 1⟩ ⟨.bIndirect, 2⟩) := by rfl
-- 95_test_vectors.md P5: DIV.B $1, $2.
theorem test_decode_div : decode 32 0x00000002_00000001_0925 = .ok (.div .b (dir 1) (dir 2)) := by rfl
-- MOD.A $1, #-1: 00 000 001 000 00110.
theorem test_decode_mod : decode 32 0xFFFFFFFF_00000001_0106 = .ok (.mod .a (dir 1) (imm (-1))) := by rfl
theorem test_decode_jmp : decode 32 0x00000000_FFFFFFFE_0927 = .ok (.jmp .b (dir (-2)) (dir 0)) := by rfl
-- JMZ.AB $3, $0: 00 001 001 010 01000.
theorem test_decode_jmz : decode 32 0x00000000_00000003_0948 = .ok (.jmz .ab (dir 3) (dir 0)) := by rfl
-- JMN.BA $3, $0: 00 001 001 011 01001.
theorem test_decode_jmn : decode 32 0x00000000_00000003_0969 = .ok (.jmn .ba (dir 3) (dir 0)) := by rfl
-- DJZ.B $1, $0: 00 001 001 001 01010.
theorem test_decode_djz : decode 32 0x00000000_00000001_092A = .ok (.djz .b (dir 1) (dir 0)) := by rfl
theorem test_decode_djn : decode 32 0x00000005_FFFFFFFF_012B = .ok (.djn .b (dir (-1)) (imm 5)) := by rfl
theorem test_decode_cmp : decode 32 0x00000002_FFFFFFFF_34AC = .ok (.cmp .x ⟨.aPreDecrement, -1⟩ ⟨.bPreDecrement, 2⟩) := by
  rfl
theorem test_decode_seq : decode 32 0x00000001_00000005_084D = .ok (.seq .ab (imm 5) (dir 1)) := by rfl
-- SNE.I $1, $2: 00 001 001 110 01110.
theorem test_decode_sne : decode 32 0x00000002_00000001_09CE = .ok (.sne .i (dir 1) (dir 2)) := by rfl
theorem test_decode_slt : decode 32 0x00000008_00000007_3A6F = .ok (.slt .ba ⟨.aIndirect, 7⟩ ⟨.bPostIncrement, 8⟩) := by rfl
-- LDP.A $0, $0: 00 001 001 000 10000.
theorem test_decode_ldp : decode 32 0x00000000_00000000_0910 = .ok (.ldp .a (dir 0) (dir 0)) := by rfl
-- STP.A $0, $0: 00 001 001 000 10001.
theorem test_decode_stp : decode 32 0x00000000_00000000_0911 = .ok (.stp .a (dir 0) (dir 0)) := by rfl
theorem test_decode_nop : decode 32 0x00000000_00000000_3DD2 = .ok (.nop .i ⟨.aPostIncrement, 0⟩ ⟨.bPostIncrement, 0⟩) := by
  rfl
theorem test_decode_spl : decode 32 0x00000000_00000000_0933 = .ok (.spl .b (dir 0) (dir 0)) := by rfl

theorem test_decode_reserved_opcode : decode 32 0x00000000_00000000_0014 = .error (.reservedOpcode 20) := by rfl
theorem test_decode_reserved_modifier : decode 32 0x00000000_00000000_00E0 = .error (.reservedModifier 7) := by rfl
theorem test_decode_reserved_bits : decode 32 0x00000000_00000000_4000 = .error (.reservedBits 1) := by rfl
theorem test_encode_jmp : encode 32 (.jmp .b (dir (-2)) (dir 0)) = 0x00000000_FFFFFFFE_0927 := by decide +kernel
theorem test_table_word : decodeTableWord 80 0x00000003_00000004_0842 = some (.add .ab (imm 4) (dir 3)) := by decide +kernel

/-! ## One Step: DAT and MOV (95_test_vectors.md L2.4) -/

-- V1.
theorem test_dat_kills : shows 100 (step (start (.dat .f (imm 0) (imm 0)) [])) =
    some (dat 0 0, some (101, false), .killedDat) := by decide
-- V2.
theorem test_dat_resolves_its_operands : shows 101 (step (start (.dat .f ⟨.bPostIncrement, 1⟩ (dir 0)) [(101, dat 0 4)])) =
    some (dat 0 5, some (101, false), .killedDat) := by decide
-- V9.
theorem test_mov_i_copies_the_cell :
    shows 102 (step (start (.mov .i (dir 1) (dir 2))
      [(101, (Instr.slt .ba ⟨.aIndirect, 7⟩ ⟨.bPostIncrement, 8⟩).cell), (102, dat 1 2)])) =
    some ((Instr.slt .ba ⟨.aIndirect, 7⟩ ⟨.bPostIncrement, 8⟩).cell, some (101, true), .ok) := by decide
-- V10: the source is the destination.
theorem test_mov_x_swaps : shows 101 (step (start (.mov .x (dir 1) (dir 1)) [(101, dat 7 8)])) =
    some (dat 8 7, some (101, true), .ok) := by decide

/-! ## One Step: operand resolution (95_test_vectors.md L2.3) -/

-- M5.
theorem test_mode_a_preDecrement :
    shows 103 (step (start (.mov .a (dir 4) ⟨.aPreDecrement, 1⟩) [(101, dat 3 0), (103, dat 0 0), (104, dat 9 0)])) =
    some (dat 9 0, some (101, true), .ok) := by decide
-- M8, and the order of the touches.
theorem test_mode_b_postIncrement_touches :
    touches (step (start (.mov .a (dir 4) ⟨.bPostIncrement, 1⟩) [(101, dat 0 2), (104, dat 9 0)])) = [100, 104, 101, 103] := by
  decide
-- M12: A completely before B.
theorem test_mode_a_before_b :
    shows 101 (step (start (.mov .i ⟨.aPostIncrement, 1⟩ ⟨.aPostIncrement, 1⟩) [(101, dat 1 0), (102, dat 7 7)])) =
    some (dat 3 0, some (101, true), .ok) := by decide
-- M15: the Source snapshot is taken before B's pre-decrement.
theorem test_mode_source_is_a_snapshot : shows 100 (step (start (.add .ab (imm 1) ⟨.aPreDecrement, 0⟩) [])) =
    some ((Instr.add .ab (imm 0) ⟨.aPreDecrement, 1⟩).cell, some (101, true), .ok) := by decide
-- M17: the overflow of a post-increment comes after the snapshot.
theorem test_mode_postIncrement_overflow_touches :
    touches (step (start (.nop .f ⟨.aPostIncrement, 1⟩ (dir 0)) [(101, dat 2147483647 0)])) = [100, 101, 3748] := by decide
-- M9.
theorem test_mode_without_mutation :
    shows 101 (stepWith { Params.hardware with incdecMutate := false }
      (start (.mov .a (dir 4) ⟨.bPreDecrement, 1⟩) [(101, dat 0 3), (103, dat 0 0), (104, dat 9 0)])) =
    some (dat 0 3, some (101, true), .ok) := by decide

/-! ## One Step: arithmetic (95_test_vectors.md L2.5) -/

-- A3.
theorem test_add_x : shows 102 (step (start (.add .x (dir 1) (dir 2)) [(101, dat 1 2), (102, dat 10 20)])) =
    some (dat 12 21, some (101, true), .ok) := by decide
-- A7: one field in range, the other out; nothing is written.
theorem test_add_overflow : shows 102 (step (start (.add .f (dir 1) (dir 2)) [(101, dat 1 1), (102, dat 5 2147483647)])) =
    some (dat 5 2147483647, some (101, false), .arithOverflow) := by decide
-- A9.
theorem test_sub_ba : shows 102 (step (start (.sub .ba (dir 1) (dir 2)) [(101, dat 0 7), (102, dat 3 0)])) =
    some (dat (-4) 0, some (101, true), .ok) := by decide
-- A10.
theorem test_sub_overflow : shows 102 (step (start (.sub .a (dir 1) (dir 2)) [(101, dat 1 0), (102, dat (-2147483648) 0)])) =
    some (dat (-2147483648) 0, some (101, false), .arithOverflow) := by decide
-- A12.
theorem test_mul_f : shows 102 (step (start (.mul .f (dir 1) (dir 2)) [(101, dat 3 (-4)), (102, dat 5 6)])) =
    some (dat 15 (-24), some (101, true), .ok) := by decide
-- A13.
theorem test_mul_overflow : shows 102 (step (start (.mul .a (dir 1) (dir 2)) [(101, dat 65536 0), (102, dat 32768 0)])) =
    some (dat 32768 0, some (101, false), .arithOverflow) := by decide
-- A14.
theorem test_div_truncates : shows 102 (step (start (.div .b (dir 1) (dir 2)) [(101, dat 0 2), (102, dat 0 (-7))])) =
    some (dat 0 (-3), some (101, true), .ok) := by decide
-- A20: the zero divisor before the overflow.
theorem test_div_zero_first :
    shows 102 (step (start (.div .f (dir 1) (dir 2)) [(101, dat (-1) 0), (102, dat (-2147483648) 3)])) =
    some (dat (-2147483648) 3, some (101, false), .arithDivZero) := by decide
-- A22.
theorem test_mod_sign : shows 102 (step (start (.mod .b (dir 1) (dir 2)) [(101, dat 0 (-2)), (102, dat 0 7)])) =
    some (dat 0 1, some (101, true), .ok) := by decide
-- A24.
theorem test_mod_of_fmin : shows 102 (step (start (.mod .a (dir 1) (dir 2)) [(101, dat (-1) 0), (102, dat (-2147483648) 0)])) =
    some (dat 0 0, some (101, true), .ok) := by decide

/-! ## One Step: jumps (95_test_vectors.md L2.6) -/

-- J3.
theorem test_jmp_wraps : shows 5 (step (startAt 0 [(0, (Instr.jmp .b (dir (-1)) (dir 0)).cell)])) =
    some (defaultCell, some (7999, true), .ok) := by decide
-- J4.
theorem test_jmp_indirect : shows 101 (step (start (.jmp .b ⟨.bIndirect, 1⟩ (dir 0)) [(101, dat 0 5)])) =
    some (dat 0 5, some (106, true), .ok) := by decide
-- J9.
theorem test_jmz_ba_tests_a : shows 103 (step (start (.jmz .ba (dir 3) (dir 0)) [(103, dat 0 1)])) =
    some (dat 0 1, some (103, true), .ok) := by decide
-- J7.
theorem test_jmz_f_not_taken : shows 103 (step (start (.jmz .f (dir 3) (dir 0)) [(103, dat 0 1)])) =
    some (dat 0 1, some (101, true), .ok) := by decide
-- J11.
theorem test_jmn_f_not_taken : shows 103 (step (start (.jmn .f (dir 3) (dir 0)) [(103, dat 5 0)])) =
    some (dat 5 0, some (101, true), .ok) := by decide
-- J13.
theorem test_jmn_b : shows 103 (step (start (.jmn .b (dir 3) (dir 0)) [(103, dat 0 (-1))])) =
    some (dat 0 (-1), some (103, true), .ok) := by decide
-- J17.
theorem test_djn_f : shows 103 (step (start (.djn .f (dir 3) (dir 0)) [(103, dat 2 1)])) =
    some (dat 1 0, some (101, true), .ok) := by decide
-- J16.
theorem test_djn_below_zero : shows 103 (step (start (.djn .b (dir 3) (dir 0)) [(103, dat 0 0)])) =
    some (dat 0 (-1), some (103, true), .ok) := by decide

/-! ## One Step: skips (95_test_vectors.md L2.7) -/

-- K1.
theorem test_cmp_f_boundary : shows 102 (step (start (.cmp .f (dir 1) (dir 2)) [(101, dat 1 2), (102, dat 1 3)])) =
    some (dat 1 3, some (101, true), .ok) := by decide
-- K4.
theorem test_cmp_x : shows 102 (step (start (.cmp .x (dir 1) (dir 2)) [(101, dat 1 2), (102, dat 2 1)])) =
    some (dat 2 1, some (102, true), .ok) := by decide
-- K7: the opcodes differ.
theorem test_seq_i_compares_opcodes :
    shows 99 (step (start (.seq .i (dir 1) (dir 2)) [(101, (Instr.cmp .f (dir 1) (dir 2)).cell), (102, (Instr.seq .f (dir 1) (dir 2)).cell)])) =
    some (defaultCell, some (101, true), .ok) := by decide
-- K8.
theorem test_seq_ab : shows 101 (step (start (.seq .ab (imm 5) (dir 1)) [(101, dat 0 5)])) =
    some (dat 0 5, some (102, true), .ok) := by decide
-- K10.
theorem test_sne_f : shows 102 (step (start (.sne .f (dir 1) (dir 2)) [(101, dat 1 2), (102, dat 1 3)])) =
    some (dat 1 3, some (102, true), .ok) := by decide
-- K11.
theorem test_sne_i : shows 102 (step (start (.sne .i (dir 1) (dir 2)) [(101, dat 1 2), (102, dat 1 2)])) =
    some (dat 1 2, some (101, true), .ok) := by decide
-- K12.
theorem test_slt_signed : shows 102 (step (start (.slt .a (dir 1) (dir 2)) [(101, dat (-5) 0), (102, dat 3 0)])) =
    some (dat 3 0, some (102, true), .ok) := by decide
-- K14.
theorem test_slt_f_needs_both : shows 102 (step (start (.slt .f (dir 1) (dir 2)) [(101, dat 1 3), (102, dat 2 3)])) =
    some (dat 2 3, some (101, true), .ok) := by decide

/-! ## One Step: NOP, the unsupported opcodes, an ILLEGAL word (95_test_vectors.md L2.8) -/

-- U2.
theorem test_nop_resolves_its_operands : shows 101 (step (start (.nop .f ⟨.aPostIncrement, 1⟩ (dir 0)) [(101, dat 4 4)])) =
    some (dat 5 4, some (101, true), .ok) := by decide
-- U3.
theorem test_spl_faults : (after (step (start (.spl .b (dir 0) (dir 0)) []))).status = ⟨.unsupportedOpcode, 0, 0, 100, 19⟩ := by
  decide
-- U7: the overflow of an operand comes first.
theorem test_spl_overflow_first :
    shows 101 (step (start (.spl .b ⟨.bPreDecrement, 1⟩ (dir 0)) [(101, dat 0 (-2147483648))])) =
    some (dat 0 (-2147483648), some (101, false), .arithOverflow) := by decide
-- U4.
theorem test_ldp_faults : (after (step (start (.ldp .a (dir 0) (dir 0)) []))).status = ⟨.unsupportedOpcode, 0, 0, 100, 16⟩ := by
  decide
-- U5.
theorem test_stp_faults : (after (step (start (.stp .a (dir 0) (dir 0)) []))).status = ⟨.unsupportedOpcode, 0, 0, 100, 17⟩ := by
  decide
-- U6.
theorem test_djz_does_not_decrement : shows 101 (step (start (.djz .b (dir 1) (dir 0)) [(101, dat 0 1)])) =
    some (dat 0 1, some (101, false), .unsupportedOpcode) := by decide
-- The word 0x14 of L2.1, fetched.
theorem test_illegal_faults : (after (step (startAt 100 [(100, decodeCell 32 0x14)]))).status =
    ⟨.unsupportedOpcode, 0, 0, 100, 20⟩ := by decide

/-! ## Guards, the scheduler, run control (95_test_vectors.md T3, T7, L2.9) -/

-- T3: the other process keeps its flags, and the cursor moves to it.
theorem test_other_process_unchanged :
    ((after (step { start (.dat .f (imm 0) (imm 0)) [] with queue := [entryAt 100, ⟨1, 0, true, true, 200⟩] })).queue,
      (after (step { start (.dat .f (imm 0) (imm 0)) [] with queue := [entryAt 100, ⟨1, 0, true, true, 200⟩] })).cur) =
    ([⟨0, 0, false, false, 101⟩, ⟨1, 0, true, true, 200⟩], 1) := by decide
-- T7.
theorem test_empty_queue : step State.reset = .next { State.reset with status := ⟨.emptyQueue, 0, 0, 0, 0⟩ } := by rfl
-- S2.
theorem test_idle_dispatch :
    (after (stepWith { Params.hardware with deadDispatch := .idle }
      { start (.nop .f (dir 0) (dir 0)) [] with queue := [⟨0, 0, false, false, 101⟩, entryAt 100] })).status =
    ⟨.idleDead, 0, 0, 101, 0⟩ := by decide
-- S3: C is killed, Q = [A, B] and the cursor goes to 0.
theorem test_prune_last :
    ((after (stepWith { Params.hardware with deadDispatch := .prune } { start (.dat .f (imm 0) (imm 0)) [] with
      queue := [⟨1, 0, true, true, 1⟩, ⟨2, 0, true, true, 2⟩, entryAt 100], cur := 2 })).queue.map Entry.wid,
      (after (stepWith { Params.hardware with deadDispatch := .prune } { start (.dat .f (imm 0) (imm 0)) [] with
      queue := [⟨1, 0, true, true, 1⟩, ⟨2, 0, true, true, 2⟩, entryAt 100], cur := 2 })).cur) = ([1, 2], 0) := by decide
-- S4, its second RunStep.
theorem test_runStep_ends_the_budget :
    (after (runStep { start (.nop .f (dir 0) (dir 0)) [] with running := true, remaining := .count 1 })).running = false := by
  decide
-- S4, its fourth RunStep.
theorem test_runStep_exhausted :
    (after (runStep { start (.nop .f (dir 0) (dir 0)) [] with running := true, remaining := .count 0 })).status.code = .notRun := by
  decide

/-! ## The loader (95_test_vectors.md L2.10) -/

/-- A random source that always draws 0. -/
def draws : Nat → Nat → Nat := fun _ _ => 0

/-- A warrior of one IMP. -/
def imp (k : Int) : WarriorSpec 32 := ⟨"imp", "", [0x00000001_00000000_09C1], .fixed k⟩

/-- Two warriors loaded as in P1 of L2.10, the first of one cell. -/
def duel : State := (loadWarriors .hardware draws [imp 100, imp (-7800)] State.reset).1

-- P1.
theorem test_load_starts : (duel.queue, duel.occ, duel.act) =
    ([⟨0, 0, true, true, 100⟩, ⟨1, 0, true, true, 200⟩], [(100, true), (200, true)], [(100, some 0), (200, some 1)]) := by decide
-- P2: every candidate is the same occupied cell.
theorem test_load_retries_exhausted : (loadWarriors .hardware draws [imp 200] duel).2 = some .retriesExhausted := by
  decide +kernel
-- P3.
theorem test_load_empty_warrior :
    (loadWarriors .hardware draws [imp 7999, ⟨"", "", [], .fixed 0⟩] duel).2 = some .emptyWarrior := by decide
-- P5.
theorem test_load_invalid_instruction :
    (loadWarriors .hardware draws [⟨"", "", [0x14], .fixed 500⟩] duel).2 = some .invalidInstruction := by decide
-- P6: the footprint wraps.
theorem test_load_wraps :
    (loadWarriors .hardware draws [⟨"", "", [0, 0], .fixed 7999⟩] duel).1.occ = [(0, true), (100, true), (200, true), (7999, true)] := by
  decide
-- L2.2.
theorem test_formatCell :
    formatCell .hardware 5 { State.reset with arena := [(5, (Instr.mov .i (dir 0) (dir 1)).cell)] } =
      some "000005 MOV.I $000000,$000001" := by decide +kernel

/-! ## Witnesses: concrete states and operands that meet the hypotheses of the statements, for each of their clauses -/

/-- A state with two cells behind the acting entry, at 101 and 102: Source and Destination of the operands `$1, $2`. -/
def pair (src dst : Cell) : State := startAt 100 [(101, src), (102, dst)]

/-- That state after both operands are resolved. -/
def pairAfter (src dst : Cell) : State := touch 0 102 (touch 0 101 (pair src dst))

theorem pair_acting (src dst : Cell) : Acting (pair src dst) (entryAt 100) := rfl

theorem pair_resolves (src dst : Cell) :
    Resolves (entryAt 100) (dir 1) (dir 2) (pair src dst) ⟨101, src⟩ ⟨102, dst⟩ (pairAfter src dst) := rfl

-- DecodeGivesBackTheEncoded.
theorem witness_wellFormed : (Instr.slt .x ⟨.bPreDecrement, -2147483648⟩ ⟨.aPostIncrement, 2147483647⟩).WellFormed .hardware := by
  decide
-- EncodeGivesBackTheDecoded; BytesDecodeAsTheirWord, its second clause.
theorem witness_decodes : decode 32 0x7FFFFFFF_80000000_0080 = .ok (.dat .f (imm (-2147483648)) (imm 2147483647)) := by rfl
theorem witness_wrong_length : ([] : List Byte).length ≠ 10 ∧ (List.replicate 11 (0 : Byte)).length ≠ 10 := by decide
-- WrapIsTheResidue, at both ends of an arena of one cell and of this hardware's.
theorem witness_wrap : 0 < { Params.hardware with coresize := 1 }.coresize ∧ 7999 < Params.hardware.coresize ∧
    (8000 : Int) ∣ ((0 : Nat) : Int) - ((7999 : Nat) + 1) := by decide
-- ImmediateAndDirectResolve; OperandsResolve, the three cases of its last clause.
theorem witness_pc : (entryAt 7999).pc < 8000 := by decide
theorem witness_operands_resolve :
    (∃ src dst u, Resolves (entryAt 7999) (dir 0) (imm 0) State.reset src dst u) ∧
    (∃ u, resolveOperands .hardware (entryAt 100) ⟨.aPostIncrement, 1⟩ (dir 0) (pair (dat 2147483647 0) (dat 0 0)) =
      .raised .overflow u) ∧
    ∀ (x : Nat) (f : Field), Params.hardware.Fits (cellField (State.reset.arena.read x) f - 2) ∧
      Params.hardware.Fits (cellField (State.reset.arena.read x) f + 2) :=
  ⟨⟨_, _, _, rfl⟩, ⟨_, rfl⟩, fun x f => by
    have : State.reset.arena.read x = defaultCell := rfl
    rw [this]
    cases f <;> decide⟩
-- OperandsResolve, its clauses on the order: B's pointer is read after A's write of it; A raises; A is done and B raises.
theorem witness_operands_in_order :
    (∃ src dst u v, Resolves (entryAt 100) ⟨.aPostIncrement, 1⟩ ⟨.aIndirect, 1⟩ (pair (dat 1 0) (dat 7 7)) src dst u ∧
      resolveOperand .hardware (entryAt 100) ⟨.aPostIncrement, 1⟩ (pair (dat 1 0) (dat 7 7)) = .done src v ∧
      v.arena.read 101 = dat 2 0 ∧ src.addr = 102 ∧ dst.addr = 103) ∧
    (∃ u, resolveOperand .hardware (entryAt 100) ⟨.aPostIncrement, 1⟩ (pair (dat 2147483647 0) (dat 0 0)) =
      .raised .overflow u) ∧
    ∃ src v u, resolveOperand .hardware (entryAt 100) ⟨.aPostIncrement, 1⟩ (pair (dat 2147483646 0) (dat 0 0)) = .done src v ∧
      resolveOperand .hardware (entryAt 100) ⟨.aPostIncrement, 1⟩ v = .raised .overflow u :=
  ⟨⟨_, _, _, _, rfl, rfl, by decide, by decide, by decide⟩, ⟨_, rfl⟩, ⟨_, _, _, rfl, rfl⟩⟩
-- PreDecrementResolves and PostIncrementResolves, at the ends of the range.
theorem witness_preDecrement :
    Params.hardware.Fits (cellField ((pair (dat (-2147483647) 0) (dat 0 0)).arena.read (wrap .hardware 100 1)) .a - 1) ∧
    ¬Params.hardware.Fits (cellField ((pair (dat (-2147483648) 0) (dat 0 0)).arena.read (wrap .hardware 100 1)) .a - 1) := by
  decide
theorem witness_postIncrement :
    Params.hardware.Fits (cellField ((pair (dat 0 2147483646) (dat 0 0)).arena.read (wrap .hardware 100 1)) .b + 1) ∧
    ¬Params.hardware.Fits (cellField ((pair (dat 0 2147483647) (dat 0 0)).arena.read (wrap .hardware 100 1)) .b + 1) := by
  decide
-- WithoutMutationTheModesAreIndirect, WithoutDecrementDjnIsJmn, IdleDispatchOfADeadEntry,
-- SkipTargetFollowsTheParameter.
theorem witness_no_mutation : { Params.hardware with incdecMutate := false }.incdecMutate = false := rfl
theorem witness_no_decrement : { Params.hardware with djnDecrement := false }.djnDecrement = false := rfl
theorem witness_idle : { Params.hardware with deadDispatch := .idle }.deadDispatch = .idle ∧ State.reset.fatal = false ∧
    Acting { State.reset with queue := [⟨0, 0, false, false, 101⟩] } ⟨0, 0, false, false, 101⟩ ∧
    (⟨0, 0, false, false, 101⟩ : Entry).processAlive = false := ⟨rfl, rfl, rfl, rfl⟩
theorem witness_skip_from_source :
    { Params.hardware with skipTarget := .srcPlus1 }.skipTarget = .srcPlus1 ∧
    Params.hardware.skipTarget = .pcPlus2 ∧
    (Instr.slt .a (dir 1) (dir 2), Expect.isLess .a (dat 1 0) (dat 2 0)) ∈
      [(Instr.cmp .a (dir 1) (dir 2), Expect.isSame .a (dat 1 0) (dat 2 0)), (.seq .a (dir 1) (dir 2), Expect.isSame .a (dat 1 0) (dat 2 0)),
        (.sne .a (dir 1) (dir 2), ¬Expect.isSame .a (dat 1 0) (dat 2 0)), (.slt .a (dir 1) (dir 2), Expect.isLess .a (dat 1 0) (dat 2 0))] ∧
    Expect.isLess .a (dat 1 0) (dat 2 0) ∧ ¬Expect.isLess .a (dat 2 0) (dat 2 0) := by
  refine ⟨rfl, rfl, by simp, ?_⟩
  simp only [Expect.isLess]
  decide
-- ResolutionFrame, DatKillsTheActingProcess, MovCopies, JumpsGoToTheSourceAddress, NopOnlyAdvances,
-- UnsupportedOpcodesFault.
theorem witness_resolves : Acting (pair (dat 7 8) (dat 1 2)) (entryAt 100) ∧
    Resolves (entryAt 100) (dir 1) (dir 2) (pair (dat 7 8) (dat 1 2)) ⟨101, dat 7 8⟩ ⟨102, dat 1 2⟩
      (pairAfter (dat 7 8) (dat 1 2)) := ⟨rfl, rfl⟩
theorem witness_resolution_frame : ¬Expect.pointerWritten (entryAt 100) ⟨.aPreDecrement, 1⟩ 102 ∧
    ¬Expect.pointerWritten (entryAt 100) (dir 1) 101 := by
  simp only [Expect.pointerWritten]
  decide
-- AddSubMulStoreOrOverflow: the last result in range and the first out of it.
theorem witness_add : (Acting (pair (dat 1 0) (dat 2147483646 0)) (entryAt 100) ∧
    Resolves (entryAt 100) (dir 1) (dir 2) (pair (dat 1 0) (dat 2147483646 0)) ⟨101, dat 1 0⟩ ⟨102, dat 2147483646 0⟩
      (pairAfter (dat 1 0) (dat 2147483646 0)) ∧
    Expect.everyResult Params.hardware.Fits (fun x y => x + y) .a (dat 1 0) (dat 2147483646 0)) ∧
    ¬Expect.everyResult Params.hardware.Fits (fun x y => x + y) .a (dat 1 0) (dat 2147483647 0) :=
  ⟨⟨rfl, rfl, by simp only [Expect.everyResult]; decide⟩, by simp only [Expect.everyResult]; decide⟩
theorem witness_sub : (Acting (pair (dat 1 0) (dat (-2147483647) 0)) (entryAt 100) ∧
    Resolves (entryAt 100) (dir 1) (dir 2) (pair (dat 1 0) (dat (-2147483647) 0)) ⟨101, dat 1 0⟩ ⟨102, dat (-2147483647) 0⟩
      (pairAfter (dat 1 0) (dat (-2147483647) 0)) ∧
    Expect.everyResult Params.hardware.Fits (fun x y => x - y) .a (dat 1 0) (dat (-2147483647) 0)) ∧
    ¬Expect.everyResult Params.hardware.Fits (fun x y => x - y) .a (dat 1 0) (dat (-2147483648) 0) :=
  ⟨⟨rfl, rfl, by simp only [Expect.everyResult]; decide⟩, by simp only [Expect.everyResult]; decide⟩
theorem witness_mul : (Acting (pair (dat (-65536) 0) (dat 32768 0)) (entryAt 100) ∧
    Resolves (entryAt 100) (dir 1) (dir 2) (pair (dat (-65536) 0) (dat 32768 0)) ⟨101, dat (-65536) 0⟩ ⟨102, dat 32768 0⟩
      (pairAfter (dat (-65536) 0) (dat 32768 0)) ∧
    Expect.everyResult Params.hardware.Fits (fun x y => x * y) .a (dat (-65536) 0) (dat 32768 0)) ∧
    ¬Expect.everyResult Params.hardware.Fits (fun x y => x * y) .a (dat 65536 0) (dat 32768 0) :=
  ⟨⟨rfl, rfl, by simp only [Expect.everyResult]; decide⟩, by simp only [Expect.everyResult]; decide⟩
-- DivModStoreOrFault: in range, out of it, and a zero divisor.
theorem witness_div : (Acting (pair (dat (-1) 0) (dat (-2147483647) 0)) (entryAt 100) ∧
    Resolves (entryAt 100) (dir 1) (dir 2) (pair (dat (-1) 0) (dat (-2147483647) 0)) ⟨101, dat (-1) 0⟩
      ⟨102, dat (-2147483647) 0⟩ (pairAfter (dat (-1) 0) (dat (-2147483647) 0)) ∧
    ¬Expect.someDivisorZero .a (dat (-1) 0) ∧ (dat (-1) 0).WellFormed .hardware ∧
    Expect.everyResult Params.hardware.Fits Int.tdiv .a (dat (-1) 0) (dat (-2147483647) 0)) ∧
    ¬Expect.everyResult Params.hardware.Fits Int.tdiv .a (dat (-1) 0) (dat (-2147483648) 0) :=
  ⟨⟨rfl, rfl, by simp only [Expect.someDivisorZero]; decide, by decide, by simp only [Expect.everyResult]; decide⟩, by
    simp only [Expect.everyResult]
    decide⟩
theorem witness_zero_divisor : Acting (pair (dat 2 0) (dat 8 8)) (entryAt 100) ∧
    Resolves (entryAt 100) (dir 1) (dir 2) (pair (dat 2 0) (dat 8 8)) ⟨101, dat 2 0⟩ ⟨102, dat 8 8⟩
      (pairAfter (dat 2 0) (dat 8 8)) ∧ Expect.someDivisorZero .f (dat 2 0) := ⟨rfl, rfl, .inr rfl⟩
-- TruncatedDivisionLaws.
theorem witness_divisor : (-1 : Int) ≠ 0 ∧ Params.hardware.Fits (-1) ∧ Params.hardware.Fits (-2147483648) := by decide
-- JumpsGoToTheSourceAddress, taken and not taken; both tests fail on one cell.
theorem witness_tests : Expect.everyTested (fun v => v = 0) .f (dat 0 0) ∧ Expect.everyTested (fun v => v ≠ 0) .f (dat 5 1) ∧
    ¬Expect.everyTested (fun v => v = 0) .f (dat 5 0) ∧ ¬Expect.everyTested (fun v => v ≠ 0) .f (dat 5 0) := by
  simp only [Expect.everyTested]
  decide
-- DjnDecrementsAndJumps: taken, not taken, and out of the range.
theorem witness_djn :
    (Expect.everyTested (fun v => Params.hardware.Fits (v - 1)) .a (dat (-2147483647) 0) ∧
      Expect.everyTested (fun v => v - 1 ≠ 0) .a (dat (-2147483647) 0)) ∧
    ¬Expect.everyTested (fun v => v - 1 ≠ 0) .f (dat 2 1) ∧
    ¬Expect.everyTested (fun v => Params.hardware.Fits (v - 1)) .a (dat (-2147483648) 0) := by
  simp only [Expect.everyTested]
  decide
-- CmpAndSeqSkipWhereTheSame and SneAndSltSkip, both ways.
theorem witness_same : Expect.isSame .i (dat 1 2) (dat 1 2) ∧ ¬Expect.isSame .f (dat 1 2) (dat 1 3) := by
  simp only [Expect.isSame]
  decide
theorem witness_less : Expect.isLess .a (dat (-5) 0) (dat 3 0) ∧ ¬Expect.isLess .f (dat 1 3) (dat 2 3) := by
  simp only [Expect.isLess]
  decide
-- CmpAndSeqDifferOnlyInStatusOp.
theorem witness_cmp : ∃ t, exec (.cmp .f (dir 1) (dir 2)) (pair (dat 1 2) (dat 1 2)) = .next t ∧
    t.status.code ≠ .fatalIndex := ⟨_, rfl, by decide⟩
-- IllegalWordFaults.
theorem witness_illegal :
    let s := startAt 100 [(100, decodeCell 32 0x14)]
    s.fatal = false ∧ Acting s (entryAt 100) ∧ (entryAt 100).pc < 8000 ∧ s.arena.read 100 = decodeCell 32 0x14 ∧
    (∃ err, decode 32 0x14 = .error err) ∧
    ∃ src dst u, Resolves (entryAt 100) (decodeCell 32 0x14).a (decodeCell 32 0x14).b
      { s with touched := [100], act := Sparse.set none s.act 100 (some 0) } src dst u :=
  ⟨rfl, rfl, by decide, rfl, ⟨_, rfl⟩, ⟨_, _, _, rfl⟩⟩
-- ResolutionFaultKillsWhateverTheOpcode.
theorem witness_resolution_fault :
    Acting (pair (dat 0 (-2147483648)) (dat 0 0)) (entryAt 100) ∧
    ∃ u, resolveOperands .hardware (entryAt 100) (dir 0) ⟨.bPreDecrement, 1⟩ (pair (dat 0 (-2147483648)) (dat 0 0)) =
      .raised .overflow u := ⟨rfl, ⟨_, rfl⟩⟩
-- FaultingExecuteWritesNothing.
theorem witness_faulting_execute :
    effectOf .hardware (.div .f (dir 1) (dir 2)) (entryAt 100) ⟨101, dat 2 0⟩ ⟨102, dat 8 8⟩ State.reset =
      .raised .divZero State.reset := rfl
-- IndexErrorLatchesFatal: the first address outside; an entry whose pc is outside; FATAL set.
theorem witness_index_error : ¬8000 < Params.hardware.coresize ∧ Acting (startAt 8000 []) (entryAt 8000) ∧
    (startAt 8000 []).fatal = false ∧ ¬(entryAt 8000).pc < 8000 := ⟨by decide, rfl, rfl, by decide⟩
-- OnlyResetClearsFatal and FatalGuard.
theorem witness_fatal : { State.reset with fatal := true }.fatal = true ∧
    (hardwareCall draws .reset { State.reset with fatal := true }).1 = .next State.reset ∧
    ∃ t, (hardwareCall draws .step { State.reset with fatal := true }).1 = .next t := ⟨rfl, rfl, ⟨_, rfl⟩⟩
-- NoInstructionStops: the cursor on no entry.
theorem witness_no_entry : step { startAt 0 [] with cur := 1 } = .fault .noActingEntry := rfl
-- ArenaFrame: an address that MOV does not store to.
theorem witness_arena_frame : Acting (pair (dat 7 8) (dat 1 2)) (entryAt 100) ∧
    (∃ t, exec (.mov .i (dir 1) (dir 2)) (pair (dat 7 8) (dat 1 2)) = .next t) ∧
    ¬Expect.pointerWritten (entryAt 100) (dir 1) 101 ∧ ¬Expect.pointerWritten (entryAt 100) (dir 2) 101 ∧
    ∀ (src dst : Resolved) (u : State),
      Resolves (entryAt 100) (dir 1) (dir 2) (pair (dat 7 8) (dat 1 2)) src dst u →
      Expect.storesTo (.mov .i (dir 1) (dir 2)) src dst ≠ some 101 := by
  refine ⟨rfl, ⟨_, rfl⟩, by simp only [Expect.pointerWritten]; decide, by simp only [Expect.pointerWritten]; decide,
    fun src dst u h => ?_⟩
  have h' := (pair_resolves (dat 7 8) (dat 1 2)).symm.trans h
  injection h' with h1 h2
  injection h1 with h3 h4
  subst h3 h4
  decide
-- StepTouchesAreRecorded, StepIsConfinedToItsProcess, StepRunsTheDecodedInstruction.
theorem witness_step :
    let s := startAt 7999 [(7999, decodeCell 32 0x00000001_00000000_09C1)]
    s.fatal = false ∧ Acting s (entryAt 7999) ∧ (entryAt 7999).pc < 8000 ∧ (∃ t, step s = .next t) ∧
    s.arena.read 7999 = decodeCell 32 0x00000001_00000000_09C1 ∧
    decode 32 0x00000001_00000000_09C1 = .ok (.mov .i (dir 0) (dir 1)) :=
  ⟨rfl, rfl, by decide, ⟨_, rfl⟩, rfl, rfl⟩
-- EmptyQueueGuard.
theorem witness_empty_queue : State.reset.fatal = false ∧ State.reset.queue = [] := ⟨rfl, rfl⟩
-- PruneRemovesTheKilledEntry: a killed entry and one already dead, the last of the queue and not.
theorem witness_prune : { Params.hardware with deadDispatch := .prune }.deadDispatch = .prune ∧
    (Acting { State.reset with queue := [entryAt 1, ⟨1, 0, true, true, 2⟩], cur := 1 } ⟨1, 0, true, true, 2⟩ ∧
      (⟨none, true, .killedDat⟩ : Result).killed = true) ∧
    (Acting { State.reset with queue := [⟨0, 0, false, false, 1⟩, entryAt 2] } ⟨0, 0, false, false, 1⟩ ∧
      (⟨0, 0, false, false, 1⟩ : Entry).processAlive = false) := ⟨rfl, ⟨rfl, rfl⟩, rfl, rfl⟩

/-- The state after P1 of L2.10 is a well-formed one, with warriors, cells and a Step ahead. -/
theorem duel_inv : Inv .hardware duel where
  arenaCanonical := by decide
  arenaRange := by decide
  cellsValid := by decide
  pcInArena := by decide
  queueCap := by decide
  cursor := by decide
  oneEntry := by decide
  widKnown := by decide
  pidZero := by decide
  programAlive := by decide
  warriorRecords := fun i w h => by
    match i, h with
    | 0, h => cases h; decide
    | 1, h => cases h; decide
  cyclesWidth := by decide
  budgetWidth := fun n h => nomatch h
  statusPc := by decide
  statusOp := by decide
  noFatal := by decide
  occCanonical := by decide
  occRange := by decide
  actCanonical := by decide
  actRange := by decide
  actOwners := fun kv h => by
    have h' : kv ∈ [(100, some 0), (200, some 1)] := h
    simp only [List.mem_cons, List.not_mem_nil, or_false] at h'
    rcases h' with rfl | rfl
    · exact ⟨0, rfl, by decide⟩
    · exact ⟨1, rfl, by decide⟩
  touchedDistinct := by decide
  touchedRange := by decide

-- StepKeepsTheInvariant, RoundRobin, HostCallsKeepTheInvariant.
theorem witness_inv_step : Inv .hardware duel ∧ duel.queue ≠ [] ∧ (∃ t, step duel = .next t) ∧
    ∃ t, (hardwareCall draws (.loadWarriors [imp 5]) duel).1 = .next t := ⟨duel_inv, by decide, ⟨_, rfl⟩, ⟨_, rfl⟩⟩
-- FootprintsStayApart.
theorem witness_footprints : FootprintsApart .hardware duel ∧
    ∃ t, (hardwareCall draws (.loadWarriors [imp 5]) duel).1 = .next t :=
  ⟨⟨by decide, by decide⟩, ⟨_, rfl⟩⟩
-- RunStepIsGated, its four clauses; the budget at its last Step and before it.
theorem witness_runStep :
    State.reset.fatal = false ∧ State.reset.running = false ∧
    ({ duel with running := true, remaining := .count 0 }.running = true ∧
      { duel with running := true, remaining := .count 0 }.remaining = .count 0) ∧
    ({ duel with running := true }.remaining = .unbounded ∧ ∃ t, step { duel with running := true } = .next t) ∧
    ({ duel with running := true, remaining := .count 1 }.remaining = .count (0 + 1) ∧
      ∃ t, step { duel with running := true, remaining := .count 1 } = .next t) ∧
    ({ duel with running := true, remaining := .count 2 }.remaining = .count (1 + 1) ∧
      ∃ t, step { duel with running := true, remaining := .count 2 } = .next t) :=
  ⟨rfl, rfl, ⟨rfl, rfl⟩, ⟨rfl, ⟨_, rfl⟩⟩, ⟨rfl, ⟨_, rfl⟩⟩, ⟨rfl, ⟨_, rfl⟩⟩⟩
-- PopTouchedTakesTheFirst.
theorem witness_popTouched : State.reset.touched = [] ∧ { State.reset with touched := [7999] }.touched = 7999 :: [] :=
  ⟨rfl, rfl⟩
-- LoadErrorChangesNothing.
theorem witness_load_error : (loadWarriors .hardware draws [⟨"", "", [], .random⟩] State.reset).2 ≠ none := by decide
-- LoadChecksInOrder: the first count refused and the last one accepted, for each check.
theorem witness_load_checks :
    8000 < { State.reset with queue := List.replicate 8000 (entryAt 0) }.queue.length + [imp 0].length ∧
    ¬8000 < { State.reset with queue := List.replicate 7999 (entryAt 0) }.queue.length + [imp 0].length ∧
    (∃ w ∈ [(⟨"", "", [], .random⟩ : WarriorSpec 32)], w.code = []) ∧
    (∃ w ∈ [(⟨"", "", [0x14], .random⟩ : WarriorSpec 32)], ∃ x ∈ w.code, ∃ err, decode 32 x = .error err) ∧
    8000 < occupiedCount .hardware State.reset.occ +
      ([(⟨"", "", List.replicate 8001 0, .random⟩ : WarriorSpec 32)].map fun w => w.code.length).sum ∧
    ¬8000 < occupiedCount .hardware State.reset.occ +
      ([(⟨"", "", List.replicate 8000 0, .random⟩ : WarriorSpec 32)].map fun w => w.code.length).sum := by
  have occ : occupiedCount .hardware State.reset.occ = 0 := rfl
  refine ⟨?_, ?_, ⟨_, List.mem_singleton_self _, rfl⟩, ⟨_, List.mem_singleton_self _, 0x14, List.mem_singleton_self _, _, rfl⟩,
    ?_, ?_⟩
  all_goals simp only [occ, List.map_cons, List.map_nil, List.sum_cons, List.sum_nil, List.length_replicate,
    List.length_singleton]
  all_goals decide
-- FixedWarriorIsLoaded: free and occupied.
theorem witness_fixed :
    (imp 199).start = .fixed 199 ∧ duel.queue.length < 8000 ∧ (imp 199).code ≠ [] ∧
    (∀ x ∈ (imp 199).code, ∃ i, decode 32 x = .ok i) ∧ occupiedCount .hardware duel.occ + (imp 199).code.length ≤ 8000 ∧
    (∀ i, i < (imp 199).code.length → occupied duel.occ (wrap .hardware (wrap .hardware 0 199) i) = false) ∧
    ∃ i, i < (imp 200).code.length ∧ occupied duel.occ (wrap .hardware (wrap .hardware 0 200) i) = true :=
  ⟨rfl, by decide, by decide, by
    intro x hx
    rw [List.mem_singleton.mp hx]
    exact ⟨.mov .i (dir 0) (dir 1), rfl⟩, by decide, by decide, ⟨0, by decide, by decide⟩⟩

/-- A random source that draws the first spec's cell 1000 times and then the one after it. -/
def lateDraws : Nat → Nat → Nat := fun _ t => if t < 1000 then 100 else 8101

/-- An IMP at a RANDOM start. -/
def wanderer : WarriorSpec 32 := ⟨"wanderer", "", [0x00000001_00000000_09C1], .random⟩

/-- A footprint of one cell covers its start only. -/
theorem covers_one {c a : Nat} (hc : c < 8000) : Expect.covers c 1 a ↔ a = c :=
  ⟨fun ⟨i, hi, h⟩ => by omega, fun h => ⟨0, by omega, by omega⟩⟩

-- SpecsAreLoadedInOrder: the hypotheses on the specs; a FIXED spec placed at once and a RANDOM one at its last candidate;
-- and a spec none of whose candidates is free, placed after one that is.
theorem witness_specs_checked :
    [imp 100, wanderer] ≠ [] ∧ State.reset.queue.length + [imp 100, wanderer].length ≤ 8000 ∧
    (∀ w ∈ [imp 100, wanderer], w.code ≠ []) ∧
    (∀ w ∈ [imp 100, wanderer], ∀ x ∈ w.code, ∃ i, decode 32 x = .ok i) ∧
    occupiedCount .hardware State.reset.occ + ([imp 100, wanderer].map fun w => w.code.length).sum ≤ 8000 := by
  refine ⟨by decide, by decide, by decide, fun w hw x hx => ⟨.mov .i (dir 0) (dir 1), ?_⟩, by decide⟩
  have hcode : w.code = [0x00000001_00000000_09C1] := by
    simp only [List.mem_cons, List.not_mem_nil, or_false] at hw
    rcases hw with rfl | rfl <;> rfl
  rw [hcode] at hx
  rw [List.mem_singleton.mp hx]
  rfl
theorem witness_specs_chosen : ∀ (j : Nat) (w : WarriorSpec 32), [imp 100, wanderer][j]? = some w →
    Expect.Chosen lateDraws State.reset [imp 100, wanderer] (fun j => 100 + j) j w := by
  intro j w hw
  match j, hw with
  | 0, hw =>
    obtain rfl : imp 100 = w := Option.some.inj hw
    exact ⟨0, by omega, rfl, fun ⟨a, _, h⟩ => h.elim (fun h => nomatch h) fun ⟨i, _, hi, _⟩ => by omega, fun _ h => by omega⟩
  | 1, hw =>
    obtain rfl : wanderer = w := Option.some.inj hw
    refine ⟨1000, by omega, rfl, fun ⟨a, ha, h⟩ => ?_, fun t ht => ?_⟩
    · rcases h with h | ⟨i, v, hi, hv, hc⟩
      · exact nomatch h
      · obtain rfl : i = 0 := by omega
        obtain rfl : imp 100 = v := Option.some.inj hv
        have h1 : a = 101 := (covers_one (by decide)).mp ha
        have h2 : a = 100 := (covers_one (by decide)).mp hc
        omega
    · exact ⟨100, ⟨0, by decide, by simp [Expect.candidateOf, wanderer, lateDraws, ht]⟩,
        .inr ⟨0, imp 100, by omega, rfl, ⟨0, by decide, rfl⟩⟩⟩
  | j + 2, hw => exact nomatch hw
theorem witness_specs_exhausted :
    Expect.Chosen draws State.reset [imp 100, imp 100] (fun _ => 100) 0 (imp 100) ∧
    ∀ t, t ≤ 1000 → Expect.collides State.reset [imp 100, imp 100] (fun _ => 100) 1 (imp 100)
      (Expect.candidateOf draws 1 t (imp 100)) :=
  ⟨⟨0, by omega, rfl, fun ⟨a, _, h⟩ => h.elim (fun h => nomatch h) fun ⟨i, _, hi, _⟩ => by omega, fun _ h => by omega⟩,
    fun _ _ => ⟨100, ⟨0, by decide, rfl⟩, .inr ⟨0, imp 100, by omega, rfl, ⟨0, by decide, rfl⟩⟩⟩⟩

end Sys2Proof.Tests
end

/-! The laws of truncated division (00_scope.md R8). Both range facts turn on one: an integer smaller in absolute value
than one in range is in range. Every remainder is smaller than its divisor, and every quotient but those by -1 is
the dividend itself or smaller than it. -/

namespace Sys2Proof.Machine

@[simp] theorem trem_eq_tmod (x y : Int) : trem x y = x.tmod y := (Int.tmod_def x y).symm

theorem eq_mul_tdiv_add_trem (x y : Int) : x = y * tdiv x y + trem x y := by
  rw [trem_eq_tmod]
  exact (Int.mul_tdiv_add_tmod x y).symm

theorem natAbs_trem_lt (x : Int) {y : Int} (hy : y ≠ 0) : (trem x y).natAbs < y.natAbs := by
  rw [trem_eq_tmod, Int.natAbs_tmod]
  exact Nat.mod_lt _ (Int.natAbs_pos.mpr hy)

theorem trem_nonneg {x : Int} (y : Int) (hx : 0 ≤ x) : 0 ≤ trem x y := by
  rw [trem_eq_tmod]
  exact Int.tmod_nonneg y hx

theorem trem_nonpos {x : Int} (y : Int) (hx : x ≤ 0) : trem x y ≤ 0 := by
  have hneg : 0 ≤ (-x).tmod y := Int.tmod_nonneg y (by omega)
  rw [Int.neg_tmod] at hneg
  rw [trem_eq_tmod]
  omega

theorem fits_of_natAbs_lt {P : Params} {x y : Int} (h : x.natAbs < y.natAbs) (hy : P.Fits y) : P.Fits x := by
  simp only [Params.Fits, Params.fmin, Params.fmax] at hy ⊢
  omega

/-- The two ends of the range are not symmetric: FMIN alone has no negation in it. -/
theorem not_fits_neg_iff {P : Params} {x : Int} (hx : P.Fits x) : ¬P.Fits (-x) ↔ x = P.fmin := by
  simp only [Params.Fits, Params.fmin, Params.fmax] at hx ⊢
  omega

theorem tdiv_neg_one (x : Int) : tdiv x (-1) = -x := by
  rw [tdiv, Int.tdiv_neg, Int.tdiv_one]

theorem tdiv_eq_self_or_natAbs_lt (x : Int) {y : Int} (hy : y ≠ -1) :
    tdiv x y = x ∨ (tdiv x y).natAbs < x.natAbs := by
  by_cases hx : x = 0
  · left
    rw [hx, tdiv, Int.zero_tdiv]
  · have hxpos : 0 < x.natAbs := Int.natAbs_pos.mpr hx
    obtain rfl | rfl | htwo : y = 1 ∨ y = 0 ∨ 1 < y.natAbs := by omega
    · exact .inl (Int.tdiv_one x)
    · right
      rwa [tdiv, Int.tdiv_zero]
    · right
      rw [tdiv, Int.natAbs_tdiv]
      exact Nat.div_lt_self hxpos htwo

/-- Of a dividend in range, FMIN / -1 is the only quotient out of range, whatever the width of a field. -/
theorem not_fits_tdiv_iff {P : Params} {x : Int} (y : Int) (hx : P.Fits x) :
    ¬P.Fits (tdiv x y) ↔ x = P.fmin ∧ y = -1 := by
  by_cases hy : y = -1
  · rw [hy, tdiv_neg_one, not_fits_neg_iff hx, and_iff_left rfl]
  · have hfits : P.Fits (tdiv x y) := by
      rcases tdiv_eq_self_or_natAbs_lt x hy with heq | hlt
      · rwa [heq]
      · exact fits_of_natAbs_lt hlt hx
    exact iff_of_false (not_not_intro hfits) fun h => hy h.2

/-- Settles O19: the remainder's laws, and the quotient out of range at this hardware's FMIN. -/
theorem truncatedDivisionLaws : Obligations.TruncatedDivisionLaws := by
  intro x y hy
  exact ⟨eq_mul_tdiv_add_trem x y, natAbs_trem_lt x hy, trem_nonneg y, trem_nonpos y,
    fits_of_natAbs_lt (natAbs_trem_lt x hy), not_fits_tdiv_iff y⟩

end Sys2Proof.Machine

/-! The invariant of the core (10_state.md R22-R30). Its clauses on the queue and on ACT are grouped, so that a commit,
the accesses of a Step and a warrior's load each keep a group by one lemma. A Step is accesses and one commit; the
other host operations write registers, but for the loader, which commits one warrior after another. -/

namespace Sys2Proof.Machine

/-! ## Groups of clauses -/

/-- The clauses of `Inv` on one entry, `n` warriors being loaded (10_state.md R22, R23, R25). -/
structure EntryValid (P : Params) (n : Nat) (e : Entry) : Prop where
  pcInArena : e.pc < P.coresize
  widKnown : e.wid < n
  pidZero : e.pid = 0
  programAlive : e.programAlive = e.processAlive

/-- The clauses of `Inv` on the entries of the queue (10_state.md R22). -/
structure QueueValid (P : Params) (n : Nat) (q : List Entry) : Prop where
  entries : ∀ e ∈ q, EntryValid P n e
  oneEntry : (q.map Entry.wid).Nodup

/-- The clauses of `Inv` on the activity signal, `n` warriors being loaded (10_state.md R30). -/
structure ActValid (P : Params) (n : Nat) (act : List (Nat × Option Nat)) : Prop where
  canonical : Sparse.wf none act = true
  range : Sparse.below P.coresize act = true
  owners : ∀ kv ∈ act, ∃ w, kv.2 = some w ∧ w < n

/-- The clause of `Inv` on the warrior table (10_state.md R26). -/
def RecordsValid (P : Params) (ws : List Warrior) : Prop :=
  ∀ (i : Nat) (w : Warrior), ws[i]? = some w →
    w.id = i ∧ w.start < P.coresize ∧ w.code ≠ [] ∧ ∀ c ∈ w.code, c.WellFormed P

section
variable {P : Params} {n : Nat} {s : State}

theorem inv_arenaValid (h : Inv P s) : ArenaValid P s := ⟨h.arenaCanonical, h.arenaRange, h.cellsValid⟩

theorem inv_queueValid (h : Inv P s) : QueueValid P s.warriors.length s.queue where
  entries e he := ⟨h.pcInArena e he, h.widKnown e he, h.pidZero e he, h.programAlive e he⟩
  oneEntry := h.oneEntry

theorem inv_actValid (h : Inv P s) : ActValid P s.warriors.length s.act := ⟨h.actCanonical, h.actRange, h.actOwners⟩

theorem EntryValid.mono {e : Entry} {m : Nat} (h : EntryValid P n e) (hm : n ≤ m) : EntryValid P m e :=
  { h with widKnown := h.widKnown.trans_le hm }

/-- Accesses for a loaded warrior keep ACT valid. -/
theorem ActValid.accessed {e : Entry} {t : State} (h : ActValid P n s.act) (ha : Accessed P e s t) (he : e.wid < n) :
    ActValid P n t.act where
  canonical := ha.actCanonical h.canonical
  range := ha.actRange h.range
  owners kv hkv := (ha.actOwners kv hkv).elim (h.owners kv) fun hv => ⟨e.wid, hv, he⟩

/-- ACT after a new warrior's footprint is marked with its id. -/
theorem ActValid.foldl_set {act : List (Nat × Option Nat)} (h : ActValid P n act) {fp : List Nat}
    (hfp : ∀ a ∈ fp, a < P.coresize) :
    ActValid P (n + 1) (fp.foldl (fun m a => Sparse.set none m a (some n)) act) where
  canonical := wf_foldl_set fp h.canonical
  range := below_foldl_set fp h.range hfp
  owners kv hkv := by
    rcases mem_foldl_set fp hkv with hv | hold
    · exact ⟨n, hv, n.lt_succ_self⟩
    · obtain ⟨w, hw, hlt⟩ := h.owners kv hold
      exact ⟨w, hw, hlt.trans n.lt_succ_self⟩

theorem RecordsValid.concat {ws : List Warrior} (h : RecordsValid P ws) {w : Warrior} (hid : w.id = ws.length)
    (hstart : w.start < P.coresize) (hne : w.code ≠ []) (hcode : ∀ c ∈ w.code, c.WellFormed P) :
    RecordsValid P (ws ++ [w]) := by
  intro i v hv
  rw [List.getElem?_append] at hv
  split at hv
  · exact h i v hv
  · next hi =>
    obtain ⟨hzero, rfl⟩ : i - ws.length = 0 ∧ w = v := by simpa [List.getElem?_singleton] using hv
    exact ⟨by omega, hstart, hne, hcode⟩

end

/-! ## The queue after a commit -/

/-- With one entry for each warrior, a warrior is alive exactly where its entry is (10_state.md R25). -/
theorem warriorAlive_of_nodup {q : List Entry} (h : (q.map Entry.wid).Nodup) {e : Entry} (he : e ∈ q) :
    warriorAlive e.wid q = e.processAlive := by
  rw [Bool.eq_iff_iff, warriorAlive, List.any_eq_true]
  constructor
  · rintro ⟨x, hx, halive⟩
    obtain ⟨hw, hp⟩ : x.wid = e.wid ∧ x.processAlive = true := by simpa using halive
    rwa [← List.inj_on_of_nodup_map h hx he hw]
  · exact fun hp => ⟨e, he, by simp [hp]⟩

/-- An entry written over one of the same warrior leaves the warriors' ids in place. -/
theorem map_wid_set {q : List Entry} {i : Nat} {e x : Entry} (he : q[i]? = some e) (hx : x.wid = e.wid) :
    (q.set i x).map Entry.wid = q.map Entry.wid := by
  obtain ⟨hi, rfl⟩ := List.getElem?_eq_some_iff.mp he
  refine List.ext_getElem (by simp) fun k _ _ => ?_
  rw [List.getElem_map, List.getElem_map, List.getElem_set]
  split
  · next hk => rw [hx]; simp only [hk]
  · rfl

/-- The queue after a commit (40_execution_cycle.md R131, R132): the acting entry's `programAlive` is computed again,
and no other entry shares its warrior. -/
theorem QueueValid.commit {P : Params} {n i : Nat} {q : List Entry} {e : Entry} {r : Result} (h : QueueValid P n q)
    (he : q[i]? = some e) (hpc : (e.after P r).pc < P.coresize) :
    QueueValid P n (refreshProgramAlive e.wid (q.set i (e.after P r))) := by
  have hwids : (q.set i (e.after P r)).map Entry.wid = q.map Entry.wid := map_wid_set he (entry_after_wid P e r)
  have hacting : EntryValid P n e := h.entries e (List.mem_of_getElem? he)
  have hnodup : ((q.set i (e.after P r)).map Entry.wid).Nodup := hwids ▸ h.oneEntry
  refine ⟨fun x hx => ?_, by rw [refreshProgramAlive_wid]; exact hnodup⟩
  obtain ⟨y, hy, rfl⟩ := List.mem_map.mp hx
  have hset : y ∈ q ∨ y = e.after P r := List.mem_or_eq_of_mem_set hy
  split
  · next hw =>
    have halive : warriorAlive e.wid (q.set i (e.after P r)) = y.processAlive := hw ▸ warriorAlive_of_nodup hnodup hy
    rcases hset with hold | rfl
    · exact { h.entries y hold with programAlive := halive }
    · exact ⟨hpc, hacting.widKnown, hacting.pidZero, halive⟩
  · next hw =>
    rcases hset with hold | rfl
    · exact h.entries y hold
    · exact absurd rfl hw

/-! ## Register writes -/

section
variable {P : Params} {s : State}

theorem inv_setStatus (h : Inv P s) {st : Status} (hpc : st.pc < P.coresize) (hop : st.op.toNat < 20) :
    Inv P { s with status := st } := { h with statusPc := hpc, statusOp := hop }

theorem inv_setCode (h : Inv P s) (c : StatusCode) : Inv P { s with status := { s.status with code := c } } :=
  inv_setStatus h h.statusPc h.statusOp

theorem inv_setRunning (h : Inv P s) (flag : Bool) : Inv P { s with running := flag } := { h with }

theorem inv_setRemaining (h : Inv P s) {b : Budget} (hb : ∀ n, b = .count n → n < 2 ^ P.cycleBits) :
    Inv P { s with remaining := b } := { h with budgetWidth := hb }

theorem inv_setTouched (h : Inv P s) {l : List Nat} (hd : l.Nodup) (hr : ∀ a ∈ l, a < P.coresize) :
    Inv P { s with touched := l } := { h with touchedDistinct := hd, touchedRange := hr }

end

/-! ## Step -/

theorem opcode_code_lt (o : Opcode) : o.code.toNat < 20 := by cases o <;> decide

/-- The opcode code of a cell that is not ILLEGAL is the table's (30_encoding.md R82). -/
theorem opCode_lt_of_wellFormed {P : Params} {c : Cell} (h : c.WellFormed P) : c.head.opCode.toNat < 20 := by
  obtain ⟨hinstr, -, -⟩ := h
  rw [cell_instr_isSome] at hinstr
  cases hc : c.head with
  | legal o m => exact opcode_code_lt o
  | illegal op m rsv => simp [hc] at hinstr

/-- The commit of a Step keeps the invariant, whatever its accesses and its outcome were (40_execution_cycle.md
R131-R134). -/
theorem inv_commit {P : Params} (hS : 0 < P.coresize) (hprune : P.deadDispatch ≠ .prune) {s u : State} {e : Entry}
    {op : BitVec 5} {r : Result} (h : Inv P s) (he : Acting s e) (hu : Accessed P e { s with touched := [] } u)
    (hv : ArenaValid P u) (hr : ∀ a, r.target = some a → a < P.coresize) (hop : op.toNat < 20) :
    Inv P (commit P e op r u) := by
  have hcur : s.cur < s.queue.length := (List.getElem?_eq_some_iff.mp he).1
  have hacting : EntryValid P s.warriors.length e := (inv_queueValid h).entries e (List.mem_of_getElem? he)
  have hpc : (e.after P r).pc < P.coresize := by
    rw [entry_after_pc]
    cases htarget : r.target with
    | none => exact wrap_lt P hS _ _
    | some a => exact hr a htarget
  have hq : (commit P e op r u).queue = refreshProgramAlive e.wid (s.queue.set s.cur (e.after P r)) := by
    rw [commit_queue P hprune, hu.queue, hu.cur]
  have hw : (commit P e op r u).warriors = s.warriors := by rw [commit_warriors, hu.warriors]
  have hqueue : QueueValid P (commit P e op r u).warriors.length (commit P e op r u).queue := by
    rw [hq, hw]
    exact (inv_queueValid h).commit he hpc
  have hlen : (commit P e op r u).queue.length = s.queue.length := by simp [hq]
  have hact : ActValid P (commit P e op r u).warriors.length (commit P e op r u).act := by
    rw [hw, commit_act]
    exact ActValid.accessed (s := { s with touched := [] }) (inv_actValid h) hu hacting.widKnown
  obtain ⟨l, hl, hlt⟩ := hu.touched
  exact
    { arenaCanonical := by rw [commit_arena]; exact hv.canonical
      arenaRange := by rw [commit_arena]; exact hv.range
      cellsValid := by rw [commit_arena]; exact hv.cells
      pcInArena := fun x hx => (hqueue.entries x hx).pcInArena
      queueCap := hlen ▸ h.queueCap
      cursor := by
        rw [hlen, commit_cur P hprune, hu.queue]
        exact .inl (Nat.mod_lt _ (Nat.zero_lt_of_lt hcur))
      oneEntry := hqueue.oneEntry
      widKnown := fun x hx => (hqueue.entries x hx).widKnown
      pidZero := fun x hx => (hqueue.entries x hx).pidZero
      programAlive := fun x hx => (hqueue.entries x hx).programAlive
      warriorRecords := hw ▸ h.warriorRecords
      cyclesWidth := by
        rw [commit_cycles]
        exact Nat.mod_lt _ (Nat.two_pow_pos _)
      budgetWidth := by rw [commit_remaining, hu.remaining]; exact h.budgetWidth
      statusPc := by rw [commit_status]; exact hacting.pcInArena
      statusOp := by rw [commit_status]; exact hop
      noFatal := by rw [commit_fatal, hu.fatal]; exact h.noFatal
      occCanonical := by rw [commit_occ, hu.occ]; exact h.occCanonical
      occRange := by rw [commit_occ, hu.occ]; exact h.occRange
      actCanonical := hact.canonical
      actRange := hact.range
      actOwners := hact.owners
      touchedDistinct := by rw [commit_touched]; exact hu.nodup List.nodup_nil
      touchedRange := by
        rw [commit_touched, hl]
        exact hlt }

/-- Settles O44: the empty-queue guard writes STATUS alone; with an entry, FATAL clear and every pc in the arena, a Step
is one commit after accesses. -/
theorem stepKeepsTheInvariant : Obligations.StepKeepsTheInvariant := by
  intro s t h hstep
  rcases h.cursor with hcur | ⟨hempty, -⟩
  · have he : Acting s s.queue[s.cur] := List.getElem?_eq_getElem hcur
    have hpc : s.queue[s.cur].pc < 8000 := h.pcInArena _ (List.getElem_mem hcur)
    obtain ⟨op, r, u, hu, hv, hr, rfl, rfl⟩ := step_cases h.noFatal he hpc hstep
    have hop := opCode_lt_of_wellFormed ((inv_arenaValid h).read s.queue[s.cur].pc)
    exact inv_commit (by decide) (by decide) h he hu (hv (inv_arenaValid h)) hr hop
  · rw [step_of_empty h.noFatal hempty] at hstep
    cases hstep
    exact inv_setStatus h (by decide) (by decide)

/-! ## Power-on -/

theorem inv_reset {P : Params} (hS : 0 < P.coresize) : Inv P State.reset where
  arenaCanonical := Memory.wf_reset
  arenaRange := rfl
  cellsValid := List.forall_mem_nil _
  pcInArena := List.forall_mem_nil _
  queueCap := Nat.zero_le _
  cursor := .inr ⟨rfl, rfl⟩
  oneEntry := List.nodup_nil
  widKnown := List.forall_mem_nil _
  pidZero := List.forall_mem_nil _
  programAlive := List.forall_mem_nil _
  warriorRecords _ _ hw := nomatch hw
  cyclesWidth := Nat.two_pow_pos _
  budgetWidth _ hn := nomatch hn
  statusPc := hS
  statusOp := by decide
  noFatal := rfl
  occCanonical := rfl
  occRange := rfl
  actCanonical := rfl
  actRange := rfl
  actOwners := List.forall_mem_nil _
  touchedDistinct := List.nodup_nil
  touchedRange := List.forall_mem_nil _

/-- Settles O45: every list is empty and every register 0, at this hardware's CORESIZE. -/
theorem resetMeetsTheInvariant : Obligations.ResetMeetsTheInvariant := inv_reset (by decide)

/-! ## The loader -/

theorem toInt_fits (P : Params) (x : BitVec P.fieldBits) : P.Fits x.toInt := by
  have hlo := x.le_toInt
  have hhi := x.toInt_lt
  simp only [Params.Fits, Params.fmin, Params.fmax]
  push_cast
  omega

/-- A word that is not ILLEGAL decodes to a valid cell: two's complement fields fit (30_encoding.md R85). -/
theorem decodeCell_wellFormed {P : Params} {x : CellWord P.fieldBits}
    (h : (decodeCell P.fieldBits x).instr ≠ none) : (decodeCell P.fieldBits x).WellFormed P :=
  ⟨Option.isSome_iff_ne_none.mpr h, toInt_fits P _, toInt_fits P _⟩

section
variable {P : Params} {s : State}

theorem arenaValid_writeCode (hS : 0 < P.coresize) (h : ArenaValid P s) {xs : List Cell}
    (hxs : ∀ x ∈ xs, x.WellFormed P) (c i : Nat) : ArenaValid P { s with arena := writeCode P c i xs s.arena } where
  canonical := writeCode_wf h.canonical
  range := writeCode_below hS h.range
  cells kv hkv := (writeCode_mem hkv).elim (hxs _) (h.cells kv)

/-- The entry of a new warrior joins the queue (70_reset_and_hazards.md R289). -/
theorem QueueValid.concat {n c : Nat} {q : List Entry} (h : QueueValid P n q) (hc : c < P.coresize) :
    QueueValid P (n + 1) (q ++ [⟨n, 0, true, true, c⟩]) where
  entries := List.forall_mem_append.mpr
    ⟨fun e he => (h.entries e he).mono n.le_succ, List.forall_mem_singleton.mpr ⟨hc, n.lt_succ_self, rfl, rfl⟩⟩
  oneEntry := by
    rw [List.map_append, List.map_singleton, List.nodup_append]
    refine ⟨h.oneEntry, List.nodup_singleton _, List.forall_mem_map.mpr fun e he => ?_⟩
    simpa using (h.entries e he).widKnown.ne

/-- The commit of one placed warrior keeps the invariant, where the queue has room (70_reset_and_hazards.md R289). -/
theorem inv_commitWarrior (hS : 0 < P.coresize) (h : Inv P s) {w : WarriorSpec P.fieldBits} {c : Nat}
    (hc : c < P.coresize) (hroom : s.queue.length < P.queueCap) (hne : w.code ≠ [])
    (hcode : ∀ x ∈ w.code, (decodeCell P.fieldBits x).instr ≠ none) : Inv P (commitWarrior P w c s) := by
  have hcells : ∀ x ∈ w.code.map (decodeCell P.fieldBits), x.WellFormed P :=
    List.forall_mem_map.mpr fun x hx => decodeCell_wellFormed (hcode x hx)
  have harena := arenaValid_writeCode hS (inv_arenaValid h) hcells c 0
  have hqueue := (inv_queueValid h).concat hc
  have hact := (inv_actValid h).foldl_set (fp := footprint P c w.code.length) fun _ => footprint_lt hS
  have hlen : (commitWarrior P w c s).warriors.length = s.warriors.length + 1 := List.length_append
  exact
    { h with
      arenaCanonical := harena.canonical
      arenaRange := harena.range
      cellsValid := harena.cells
      pcInArena := fun e he => (hqueue.entries e he).pcInArena
      queueCap := by simpa [commitWarrior] using hroom
      cursor := .inl (by
        rcases h.cursor with hcur | ⟨hq, hcur⟩
        · simpa [commitWarrior] using hcur.trans (Nat.lt_succ_self _)
        · simp [commitWarrior, hq, hcur])
      oneEntry := hqueue.oneEntry
      widKnown := fun e he => hlen ▸ (hqueue.entries e he).widKnown
      pidZero := fun e he => (hqueue.entries e he).pidZero
      programAlive := fun e he => (hqueue.entries e he).programAlive
      warriorRecords := RecordsValid.concat h.warriorRecords rfl hc (by simpa using hne) hcells
      actCanonical := hact.canonical
      actRange := hact.range
      actOwners := hlen ▸ hact.owners }

/-- The commits of all placed specs keep the invariant, where the queue has room for them all. -/
theorem inv_commitAll (hS : 0 < P.coresize) {specs : List (WarriorSpec P.fieldBits)} {occ occ' : List (Nat × Bool)}
    {cs : List Nat} (hp : Placements P specs occ cs occ') (hroom : s.queue.length + specs.length ≤ P.queueCap)
    (hne : ∀ w ∈ specs, w.code ≠ []) (hcode : ∀ w ∈ specs, ∀ x ∈ w.code, (decodeCell P.fieldBits x).instr ≠ none)
    (h : Inv P s) : Inv P (commitAll P specs cs s) := by
  induction hp generalizing s with
  | nil => exact h
  | @cons w ws _ _ c cs hc _ _ ih =>
    rw [List.length_cons] at hroom
    obtain ⟨hneHead, hneTail⟩ := List.forall_mem_cons.mp hne
    obtain ⟨hcodeHead, hcodeTail⟩ := List.forall_mem_cons.mp hcode
    have hlen : (commitWarrior P w c s).queue.length = s.queue.length + 1 := List.length_append
    rw [commitAll_cons]
    exact ih (by omega) hneTail hcodeTail (inv_commitWarrior hS h hc (by omega) hneHead hcodeHead)

/-- LoadWarriors keeps the invariant, whatever the random source (70_reset_and_hazards.md R285). -/
theorem inv_loadWarriors (hS : 0 < P.coresize) (draw : Nat → Nat → Nat) (specs : List (WarriorSpec P.fieldBits))
    (h : Inv P s) : Inv P (loadWarriors P draw specs s).1 := by
  rcases loadWarriors_cases hS draw specs s with ⟨hsame, -⟩ | ⟨hcheck, -, cs, occ', hp, hloaded⟩
  · rwa [hsame]
  · obtain ⟨hroom, hne, hcode, -⟩ := loadCheck_none.mp hcheck
    rw [hloaded]
    have hall : Inv P (commitAll P specs cs s) := inv_commitAll hS hp hroom hne hcode h
    have hocc : Inv P { commitAll P specs cs s with occ := occ' } :=
      { hall with occCanonical := hp.wf h.occCanonical, occRange := hp.inRange hS h.occRange }
    exact inv_setTouched hocc List.nodup_nil (List.forall_mem_nil _)

/-! ## The host interface -/

theorem inv_spendBudget (h : Inv P s) : Inv P (spendBudget s) := by
  unfold spendBudget
  split
  · exact h
  · next n hn =>
    have hlt : n - 1 < 2 ^ P.cycleBits := (n.sub_le 1).trans_lt (h.budgetWidth n hn)
    have hcount : Inv P { s with remaining := .count (n - 1) } := inv_setRemaining h fun m hm => by cases hm; exact hlt
    exact inv_setRunning hcount (if n - 1 = 0 then false else s.running)

/-- RunStep keeps the invariant where the Step it gates does (60_exceptions.md R258). -/
theorem inv_runStepBy {stepper : State → Answer} (hstepper : ∀ s t, Inv P s → stepper s = .next t → Inv P t) {t : State}
    (h : Inv P s) (hrun : runStepBy stepper s = .next t) : Inv P t := by
  unfold runStepBy at hrun
  split at hrun
  · cases hrun
    exact inv_setCode h _
  split at hrun
  · cases hrun
    exact inv_setCode h _
  split at hrun
  · cases hrun
    exact inv_setRunning (inv_setCode h .notRun) false
  split at hrun
  · next u hu =>
    cases hrun
    exact inv_spendBudget (hstepper s u h hu)
  · cases hrun
  · cases hrun

theorem inv_setCycleBudget (h : Inv P s) (n : Option (Fin (2 ^ P.cycleBits))) : Inv P (setCycleBudget P n s) := by
  refine inv_setRemaining h fun m hm => ?_
  cases n with
  | none => cases hm
  | some k =>
    cases hm
    exact k.isLt

/-- Every host operation keeps the invariant where Step does (10_state.md R31). -/
theorem inv_hostCall (hS : 0 < P.coresize) {stepper : State → Answer}
    (hstepper : ∀ s t, Inv P s → stepper s = .next t → Inv P t) (draw : Nat → Nat → Nat) (c : HostCall P) {t : State}
    (h : Inv P s) (hcall : (hostCall P stepper draw c s).1 = .next t) : Inv P t := by
  cases c with
  | step => exact hstepper s t h hcall
  | runStep => exact inv_runStepBy hstepper h hcall
  | setRunning flag => cases hcall; exact inv_setRunning h flag
  | setCycleBudget n => cases hcall; exact inv_setCycleBudget h n
  | loadWarriors specs => cases hcall; exact inv_loadWarriors hS draw specs h
  | reset => cases hcall; exact inv_setRemaining (inv_reset hS) h.budgetWidth
  | popTouched =>
    cases hcall
    exact inv_setTouched h h.touchedDistinct.tail fun a ha => h.touchedRange a (List.mem_of_mem_tail ha)
  | readCell | formatCell | readState | readActivity => cases hcall; exact h

end

/-- Settles O58: the eleven operations, with O44 for the Step and the Step inside RunStep. -/
theorem hostCallsKeepTheInvariant : Obligations.HostCallsKeepTheInvariant :=
  fun draw c _ _ => inv_hostCall (by decide) stepKeepsTheInvariant draw c

end Sys2Proof.Machine

/-! The bytes of a cell word (20_memory.md R55): the little-endian number of its first n bytes is the word modulo
256 ^ n, and `wordBytes W` bytes hold every bit of it. -/

namespace Sys2Proof

theorem natOfBytes_concat (bs : List Byte) (b : Byte) :
    natOfBytes (bs ++ [b]) = natOfBytes bs + 256 ^ bs.length * b.toNat := by
  induction bs with
  | nil => simp [natOfBytes]
  | cons c bs ih =>
    simp only [List.cons_append, natOfBytes, ih, List.length_cons, pow_succ]
    ring

theorem natOfBytes_map_extractLsb' {N : Nat} (x : BitVec N) (n : Nat) :
    natOfBytes ((List.range n).map fun k => x.extractLsb' (8 * k) 8) = x.toNat % 256 ^ n := by
  induction n with
  | zero => simp [natOfBytes, Nat.mod_one]
  | succ n ih =>
    have hbyte : (x.extractLsb' (8 * n) 8).toNat = x.toNat / 256 ^ n % 256 := by
      simp [Nat.shiftRight_eq_div_pow, pow_mul]
    rw [List.range_succ, List.map_append, List.map_singleton, natOfBytes_concat, ih, hbyte, List.length_map,
      List.length_range, Nat.mod_pow_succ]

@[simp] theorem bytesOfWord_length (W : Nat) (w : CellWord W) : (bytesOfWord W w).length = wordBytes W := by
  simp [bytesOfWord]

theorem bytesOfWord_getElem? {W k : Nat} (w : CellWord W) (hk : k < wordBytes W) :
    (bytesOfWord W w)[k]? = some (w.extractLsb' (8 * k) 8) := by
  simp [bytesOfWord, hk]

theorem natOfBytes_bytesOfWord (W : Nat) (w : CellWord W) : natOfBytes (bytesOfWord W w) = w.toNat := by
  have hwidth : 2 ^ (16 + 2 * W) ≤ 256 ^ wordBytes W := by
    rw [show 256 = 2 ^ 8 from rfl, ← pow_mul]
    exact Nat.pow_le_pow_right (by omega) (by unfold wordBytes; omega)
  rw [bytesOfWord, natOfBytes_map_extractLsb', Nat.mod_eq_of_lt (w.isLt.trans_le hwidth)]

/-- The bytes of a word decode as the word does, for every field width (20_memory.md R55). -/
theorem decodeBytes_bytesOfWord (W : Nat) (w : CellWord W) : decodeBytes W (bytesOfWord W w) = decode W w := by
  rw [decodeBytes, if_pos (bytesOfWord_length W w), natOfBytes_bytesOfWord, BitVec.ofNat_toNat, BitVec.setWidth_eq]

theorem decodeBytes_of_length_ne {W : Nat} {bs : List Byte} (h : bs.length ≠ wordBytes W) :
    decodeBytes W bs = .error (.wrongLength bs.length) := if_neg h

/-- Settles O5: this hardware's word is ten bytes, and decoding gives back the number they spell. -/
theorem bytesDecodeAsTheirWord : Obligations.BytesDecodeAsTheirWord :=
  ⟨fun w => ⟨bytesOfWord_length 32 w, fun _ hk => bytesOfWord_getElem? w hk, decodeBytes_bytesOfWord 32 w⟩,
    fun _ h => decodeBytes_of_length_ne h⟩

end Sys2Proof

/-! The address unit (20_memory.md R52, R53): a wrapped address is fixed by being in the arena and congruent to the exact
sum, and a residue inside a residue drops out. -/

namespace Sys2Proof.Machine

theorem wrap_congruent (P : Params) (h : 0 < P.coresize) (a : Nat) (d : Int) :
    (P.coresize : Int) ∣ (wrap P a d : Int) - ((a : Int) + d) := by
  rw [wrap_cast P h]
  exact (Int.mod_modEq _ _).symm.dvd

theorem eq_wrap_of_congruent {P : Params} {a r : Nat} {d : Int} (hr : r < P.coresize)
    (h : (P.coresize : Int) ∣ (r : Int) - ((a : Int) + d)) : r = wrap P a d := by
  have hrem : ((a : Int) + d) % P.coresize = r % P.coresize := Int.modEq_iff_dvd.mpr h
  rw [wrap, hrem]
  exact_mod_cast (Nat.mod_eq_of_lt hr).symm

/-- The source's formula: the first remainder may be negative, and adding S makes the second one Euclidean. -/
theorem wrap_eq_tmod (P : Params) (h : 0 < P.coresize) (a : Nat) (d : Int) :
    (wrap P a d : Int) = (((a : Int) + d).tmod P.coresize + P.coresize).tmod P.coresize := by
  have hS : (0 : Int) < P.coresize := by omega
  have hlow : -(P.coresize : Int) < ((a : Int) + d).tmod P.coresize := Int.lt_tmod_of_pos _ hS
  rw [wrap_cast P h, Int.tmod_eq_emod_of_nonneg (by omega), Int.add_emod_right, Int.tmod_def, Int.sub_mul_emod_self_left]

/-- Settles O6: the residue is in the arena and congruent, hence the only such address and the source's. -/
theorem wrapIsTheResidue : Obligations.WrapIsTheResidue := by
  refine ⟨fun P a d ha => ?_, by decide, by decide⟩
  have hS : 0 < P.coresize := by omega
  exact ⟨wrap_lt P hS a d, wrap_congruent P hS a d, fun _ => eq_wrap_of_congruent, wrap_eq_tmod P hS a d⟩

theorem wrap_wrap (P : Params) (h : 0 < P.coresize) (a : Nat) (x y : Int) :
    wrap P (wrap P a x) y = wrap P a (x + y) := by
  have hcast : (wrap P (wrap P a x) y : Int) = wrap P a (x + y) := by
    rw [wrap_cast P h, wrap_cast P h, wrap_cast P h, Int.emod_add_emod, add_assoc]
  exact_mod_cast hcast

/-- Settles O7: the inner residue may be replaced by the sum it is the residue of. -/
theorem wrapComposes : Obligations.WrapComposes :=
  ⟨fun P a x y h => wrap_wrap P h a x y, by decide, by decide⟩

end Sys2Proof.Machine

/-! The arena frame of an instruction (20_memory.md R57, 40_execution_cycle.md R116, R128): which cells each phase
leaves as they were, however the phase ends. -/

namespace Sys2Proof.Machine

/-- The state in which a phase ends, with a value or without. -/
def Phase.state {α : Type} (p : Phase α) : State :=
  match p with
  | .done _ s => s
  | .raised _ s => s
  | .fatal s => s

/-- However the phase ends, the cell at x reads as it did in s. -/
def KeepsCell {α : Type} (x : Nat) (s : State) (p : Phase α) : Prop := p.state.arena.read x = s.arena.read x

theorem endStep_arena (P : Params) (e : Entry) (op : BitVec 5) (p : Phase Result) :
    (endStep P e op p).arena = p.state.arena := by
  cases p with
  | done r s => exact commit_arena P e op r s
  | raised r s => exact commit_arena P e op r.result s
  | fatal s => rfl

section
variable {P : Params} {e : Entry} {x : Nat} {s : State}

theorem KeepsCell.done {α : Type} (v : α) : KeepsCell x s (.done v s) := rfl

theorem KeepsCell.raised {α : Type} (r : Raise) : KeepsCell x s (.raised r s : Phase α) := rfl

theorem KeepsCell.andThen {α β : Type} {p : Phase α} {k : α → State → Phase β} (hp : KeepsCell x s p)
    (hk : ∀ v t, p = .done v t → KeepsCell x t (k v t)) : KeepsCell x s (p.andThen k) := by
  cases p with
  | done v t => exact (hk v t rfl).trans hp
  | raised r t => exact hp
  | fatal t => exact hp

/-! ## Accesses -/

theorem keepsCell_memRead (a : Nat) : KeepsCell x s (memRead P e a s) := by
  unfold memRead
  split <;> rfl

theorem keepsCell_memWrite {a : Nat} (h : x ≠ a) (c : Cell) : KeepsCell x s (memWrite P e a c s) := by
  unfold memWrite
  split
  · exact Memory.read_write_other s.arena c h
  · rfl

theorem keepsCell_fieldWrite {a : Nat} (h : x ≠ a) (ws : List (Field × Int)) :
    KeepsCell x s (fieldWrite P e a ws s) := keepsCell_memWrite h _

theorem keepsCell_writePointer {ptr : Nat} (h : x ≠ ptr) (sel : Field) (p : Int) :
    KeepsCell x s (writePointer P e ptr sel p s) := by
  unfold writePointer
  split
  · exact keepsCell_fieldWrite h _
  · exact .raised _

/-! ## Operand resolution -/

theorem keepsCell_snapshot (a : Nat) : KeepsCell x s (snapshot P e a s) :=
  (keepsCell_memRead a).andThen fun _ _ _ => .done _

theorem keepsCell_resolveIndirect (sel : Field) (f : Int) : KeepsCell x s (resolveIndirect P e sel f s) :=
  (keepsCell_memRead _).andThen fun _ _ _ => keepsCell_snapshot _

theorem keepsCell_resolvePreDecrement {f : Int} (h : x ≠ wrap P e.pc f) (sel : Field) :
    KeepsCell x s (resolvePreDecrement P e sel f s) :=
  (keepsCell_memRead _).andThen fun _ _ _ =>
    (keepsCell_writePointer h sel _).andThen fun _ _ _ => keepsCell_snapshot _

theorem keepsCell_resolvePostIncrement {f : Int} (h : x ≠ wrap P e.pc f) (sel : Field) :
    KeepsCell x s (resolvePostIncrement P e sel f s) :=
  (keepsCell_memRead _).andThen fun _ _ _ =>
    (keepsCell_snapshot _).andThen fun _ _ _ => (keepsCell_writePointer h sel _).andThen fun _ _ _ => .done _

/-- Resolution writes at most the pointer cell of an increment or decrement mode (40_execution_cycle.md R116). -/
theorem keepsCell_resolveOperand {o : Operand} (h : ¬Expect.pointerWritten e o x) :
    KeepsCell x s (resolveOperand .hardware e o s) := by
  obtain ⟨mode, f⟩ := o
  have hptr (hm : mode ∈ [Mode.aPreDecrement, .aPostIncrement, .bPreDecrement, .bPostIncrement]) :
      x ≠ wrap .hardware e.pc f := fun hx => h ⟨hm, hx⟩
  cases mode with
  | immediate => exact keepsCell_snapshot _
  | direct => exact keepsCell_snapshot _
  | aIndirect => exact keepsCell_resolveIndirect .a f
  | bIndirect => exact keepsCell_resolveIndirect .b f
  | aPreDecrement => exact keepsCell_resolvePreDecrement (hptr (by decide)) .a
  | aPostIncrement => exact keepsCell_resolvePostIncrement (hptr (by decide)) .a
  | bPreDecrement => exact keepsCell_resolvePreDecrement (hptr (by decide)) .b
  | bPostIncrement => exact keepsCell_resolvePostIncrement (hptr (by decide)) .b

theorem keepsCell_resolveOperands {a b : Operand} (ha : ¬Expect.pointerWritten e a x)
    (hb : ¬Expect.pointerWritten e b x) : KeepsCell x s (resolveOperands .hardware e a b s) :=
  (keepsCell_resolveOperand ha).andThen fun _ _ _ => (keepsCell_resolveOperand hb).andThen fun _ _ _ => .done _

/-! ## Execute phases -/

variable {src dst : Resolved}

theorem keepsCell_movEffect (h : x ≠ dst.addr) (m : Modifier) : KeepsCell x s (movEffect P m e src dst s) := by
  refine KeepsCell.andThen ?_ fun _ _ _ => .done _
  split
  · exact keepsCell_memWrite h _
  · exact keepsCell_fieldWrite h _

theorem keepsCell_arith (h : x ≠ dst.addr) (divides : Bool) (op : Int → Int → Int) (m : Modifier) :
    KeepsCell x s (arith P divides op m e src dst s) := by
  unfold arith
  split
  · exact .raised _
  · split
    · exact (keepsCell_fieldWrite h _).andThen fun _ _ _ => .done _
    · exact .raised _

theorem keepsCell_djnEffect (h : x ≠ src.addr) (m : Modifier) : KeepsCell x s (djnEffect P m e src dst s) := by
  unfold djnEffect
  split
  · split
    · exact (keepsCell_fieldWrite h _).andThen fun _ _ _ => .done _
    · exact .raised _
  · exact .done _

/-- The execute phase writes at most the address its opcode stores to (40_execution_cycle.md R128). -/
theorem keepsCell_effectOf {i : Instr} (h : Expect.storesTo i src dst ≠ some x) :
    KeepsCell x s (effectOf P i e src dst s) := by
  have hne {a : Nat} (ha : some a ≠ some x) : x ≠ a := fun hx => ha (congrArg some hx.symm)
  cases i with
  | mov m _ _ => exact keepsCell_movEffect (hne h) m
  | add m _ _ | sub m _ _ | mul m _ _ => exact keepsCell_arith (hne h) false _ m
  | div m _ _ | mod m _ _ => exact keepsCell_arith (hne h) true _ m
  | djn m _ _ => exact keepsCell_djnEffect (hne h) m
  | dat | nop | jmp | jmz | jmn | cmp | seq | sne | slt => exact .done _
  | djz | ldp | stp | spl => exact .raised _

end

/-- Settles O35: the resolution keeps every cell that is no written pointer, and the execute phase, which runs only where
both operands resolve, every cell but the one it stores to. -/
theorem arenaFrame : Obligations.ArenaFrame := by
  intro i s t e x he hexec ha hb hstore
  rw [exec_eq he] at hexec
  obtain rfl : _ = t := by injection hexec
  rw [endStep_arena]
  exact (keepsCell_resolveOperands ha hb).andThen fun sd u hu => keepsCell_effectOf (hstore sd.1 sd.2 u hu)

end Sys2Proof.Machine

/-! The host's reads (20_memory.md R58, 60_exceptions.md R263, R265). -/

namespace Sys2Proof.Machine

theorem wrap_hardware_zero (d : Int) : wrap .hardware 0 d = (d % 8000).toNat := by
  simp [wrap]

/-- Settles O50: an address from outside is a delta from address 0. -/
theorem hostReadsChangeNothing : Obligations.HostReadsChangeNothing := by
  intro draw a s
  rw [← wrap_hardware_zero]
  exact ⟨rfl, rfl, rfl, rfl⟩

end Sys2Proof.Machine

/-! Decoding and encoding are inverse (30_encoding.md R86, R87), shown on cells: a cell is ILLEGAL or holds an
instruction, and `encodeCell` keeps the codes of an ILLEGAL one, so it inverts `decodeCell` on every word. -/

namespace Sys2Proof

/-! ## An instruction and the cell that holds it -/

theorem instr_cell_instr (i : Instr) : i.cell.instr = some i := by cases i <;> rfl

theorem cell_instr_eq_some {c : Cell} {i : Instr} : c.instr = some i ↔ c = i.cell := by
  refine ⟨fun h => ?_, fun h => h ▸ instr_cell_instr i⟩
  obtain ⟨⟨o, m⟩ | _, a, b⟩ := c
  · obtain rfl : o.instr m a b = i := Option.some.inj h
    exact (instr_cell_of_opcode o m a b).symm
  · cases h

theorem decode_of_legal {W : Nat} {w : CellWord W} {o : Opcode} {m : Modifier}
    (h : (decodeCell W w).head = .legal o m) :
    decode W w = .ok (o.instr m (decodeCell W w).a (decodeCell W w).b) := by simp only [decode, h]

theorem decode_of_illegal {W : Nat} {w : CellWord W} {op : BitVec 5} {m : BitVec 3} {rsv : BitVec 2}
    (h : (decodeCell W w).head = .illegal op m rsv) : decode W w = .error (Head.error op m rsv) := by
  simp only [decode, h]

theorem decode_eq_ok {W : Nat} {w : CellWord W} {i : Instr} : decode W w = .ok i ↔ decodeCell W w = i.cell := by
  rw [← cell_instr_eq_some, Cell.instr]
  cases hhead : (decodeCell W w).head with
  | legal o m => simp [decode_of_legal hhead]
  | illegal op m rsv => simp [decode_of_illegal hhead]

/-! ## The head: legal codes and the reserved space -/

theorem exists_opcode_code {c : BitVec 5} (h : ¬20 ≤ c.toNat) : ∃ o : Opcode, o.code = c := by
  obtain ⟨o, ho⟩ := Option.ne_none_iff_exists'.mp (mt (opcode_ofCode_none c).mp h)
  exact ⟨o, opcode_code_of_ofCode c o ho⟩

theorem exists_modifier_code {c : BitVec 3} (h : c ≠ 7) : ∃ m : Modifier, m.code = c := by
  obtain ⟨m, hm⟩ := Option.ne_none_iff_exists'.mp (mt (modifier_ofCode_none c).mp h)
  exact ⟨m, modifier_code_of_ofCode c m hm⟩

@[simp] theorem decodeHead_legal (o : Opcode) (m : Modifier) : decodeHead o.code m.code 0#2 = .legal o m := by
  simp [decodeHead]

section
variable {op : BitVec 5} {m : BitVec 3} {rsv : BitVec 2}

theorem decodeHead_illegal (h : 20 ≤ op.toNat ∨ m = 7 ∨ rsv ≠ 0) : decodeHead op m rsv = .illegal op m rsv := by
  unfold decodeHead
  rcases h with hop | hm | hrsv
  · simp [(opcode_ofCode_none op).mpr hop]
  · simp [(modifier_ofCode_none m).mpr hm]
  · exact if_neg hrsv

theorem exists_decodeHead_legal (h : ¬(20 ≤ op.toNat ∨ m = 7 ∨ rsv ≠ 0)) :
    ∃ (o : Opcode) (k : Modifier), o.code = op ∧ k.code = m ∧ rsv = 0#2 ∧ decodeHead op m rsv = .legal o k := by
  obtain ⟨hop, hm, hrsv⟩ : ¬20 ≤ op.toNat ∧ m ≠ 7 ∧ rsv = 0#2 := by simpa using h
  obtain ⟨o, rfl⟩ := exists_opcode_code hop
  obtain ⟨k, rfl⟩ := exists_modifier_code hm
  subst hrsv
  exact ⟨o, k, rfl, rfl, rfl, decodeHead_legal o k⟩

/-- A head keeps the three codes it was read from, the reserved space included. -/
theorem decodeHead_codes (op : BitVec 5) (m : BitVec 3) (rsv : BitVec 2) :
    (decodeHead op m rsv).opCode = op ∧ (decodeHead op m rsv).modifierCode = m ∧
      (decodeHead op m rsv).reserved = rsv := by
  by_cases h : 20 ≤ op.toNat ∨ m = 7 ∨ rsv ≠ 0
  · rw [decodeHead_illegal h]
    exact ⟨rfl, rfl, rfl⟩
  · obtain ⟨o, k, rfl, rfl, rfl, hhead⟩ := exists_decodeHead_legal h
    rw [hhead]
    exact ⟨rfl, rfl, rfl⟩

end

/-! ## The round trips of a cell -/

theorem encodeCell_decodeCell (W : Nat) (w : CellWord W) : encodeCell W (decodeCell W w) = w := by
  obtain ⟨hop, hm, hrsv⟩ := decodeHead_codes (CellWord.op W w) (CellWord.modifier W w) (CellWord.rsv W w)
  apply cellWord_ext
  · exact (op_encodeCell W _).trans hop
  · exact (modifier_encodeCell W _).trans hm
  · exact (am_encodeCell W _).trans (mode_code_ofCode _)
  · exact (bm_encodeCell W _).trans (mode_code_ofCode _)
  · exact (rsv_encodeCell W _).trans hrsv
  · exact (af_encodeCell W _).trans BitVec.ofInt_toInt
  · exact (bf_encodeCell W _).trans BitVec.ofInt_toInt

/-- Two's complement of W bits holds every field that fits (30_encoding.md R85). -/
theorem toInt_ofInt_of_fits {P : Params} (hW : 0 < P.fieldBits) {x : Int} (h : P.Fits x) :
    (BitVec.ofInt P.fieldBits x).toInt = x := by
  obtain ⟨hlo, hhi⟩ := h
  simp only [Params.fmin, Params.fmax] at hlo hhi
  push_cast at hlo hhi
  exact BitVec.toInt_ofInt_eq_self hW hlo (by omega)

theorem decodeCell_encodeCell {P : Params} (hW : 0 < P.fieldBits) {c : Cell} (h : c.WellFormed P) :
    decodeCell P.fieldBits (encodeCell P.fieldBits c) = c := by
  obtain ⟨hinstr, ha, hb⟩ := h
  obtain ⟨head, ⟨am, af⟩, ⟨bm, bf⟩⟩ := c
  cases head with
  | legal o m =>
    simp [decodeCell, Head.opCode, Head.modifierCode, Head.reserved, toInt_ofInt_of_fits hW ha,
      toInt_ofInt_of_fits hW hb]
  | illegal op m rsv => cases hinstr

/-! ## The round trips of an instruction -/

theorem instr_cell_wellFormed {P : Params} {i : Instr} : i.cell.WellFormed P ↔ i.WellFormed P := by
  simp [Cell.WellFormed, Instr.WellFormed, instr_cell_instr]

theorem decode_encode {P : Params} (hW : 0 < P.fieldBits) {i : Instr} (h : i.WellFormed P) :
    decode P.fieldBits (encode P.fieldBits i) = .ok i :=
  decode_eq_ok.mpr (decodeCell_encodeCell hW (instr_cell_wellFormed.mpr h))

theorem encode_of_decode {W : Nat} {w : CellWord W} {i : Instr} (h : decode W w = .ok i) : encode W i = w := by
  rw [encode, ← decode_eq_ok.mp h, encodeCell_decodeCell]

theorem wellFormed_of_decode {P : Params} {w : CellWord P.fieldBits} {i : Instr} (h : decode P.fieldBits w = .ok i) :
    i.WellFormed P := by
  have hcell : (decodeCell P.fieldBits w).WellFormed P :=
    Machine.decodeCell_wellFormed (decodeCell_instr_ne_none.mpr ⟨i, h⟩)
  rw [decode_eq_ok.mp h] at hcell
  exact instr_cell_wellFormed.mp hcell

/-- Settles O1: a cell survives the round trip where its head is legal and its fields fit. -/
theorem decodeGivesBackTheEncoded : Obligations.DecodeGivesBackTheEncoded :=
  fun _ => decode_encode (P := .hardware) (by decide)

/-- Settles O2: the cell of a word keeps its seven slices, which are the whole word. -/
theorem encodeGivesBackTheDecoded : Obligations.EncodeGivesBackTheDecoded :=
  fun _ _ h => ⟨encode_of_decode h, wellFormed_of_decode (P := .hardware) h⟩

/-- Settles O3: the codes outside the reserved space are those of an opcode and a modifier, and the rest of the cell is
read from its slices as it stands. -/
theorem decoderReadsTheSlices : Obligations.DecoderReadsTheSlices := by
  intro w
  dsimp only
  split
  · next h => exact ⟨_, decode_of_illegal (decodeHead_illegal h)⟩
  · next h =>
    obtain ⟨o, k, ho, hk, -, hhead⟩ := exists_decodeHead_legal h
    exact ⟨o, k, _, _, ho, hk, mode_code_ofCode _, mode_code_ofCode _, decode_of_legal hhead⟩

/-- Settles O4: each word is evaluated, the negative fields as two's complement. -/
theorem wordsOfTheVectorsDecode : Obligations.WordsOfTheVectorsDecode := ⟨rfl, rfl, rfl, rfl, rfl, rfl, rfl, rfl⟩

end Sys2Proof

/-! FormatCell (30_encoding.md R91). -/

namespace Sys2Proof.Machine

/-- Settles O51: each address is wrapped and the cell there printed, 8005 at 5 and -1 at 7999. -/
theorem formatCellOnTheVectors : Obligations.FormatCellOnTheVectors := ⟨rfl, rfl, rfl, rfl⟩

end Sys2Proof.Machine

/-! The guards and the fetch of a Step (40_execution_cycle.md R111-R115), and the placing of a word where the next Step
fetches it (log entry 6). -/

namespace Sys2Proof.Machine

/-- Settles O40: the first guard of Step. -/
theorem fatalGuard : Obligations.FatalGuard := fun _ => step_of_fatal

/-- Settles O41: the second guard of Step, before the queue is indexed. -/
theorem emptyQueueGuard : Obligations.EmptyQueueGuard := fun _ => step_of_empty

/-! ## The instruction a Step runs -/

/-- The execution of an instruction's cell is that of the instruction (40_execution_cycle.md R115). -/
theorem execCell_cell (P : Params) (run : Instr → State → Answer) (i : Instr) (s : State) :
    execCell P run i.cell s = run i s := by cases i <;> rfl

/-- Settles O38: the cell fetched is the one of the decoded instruction. -/
theorem stepRunsTheDecodedInstruction : Obligations.StepRunsTheDecodedInstruction := by
  intro s e w i hf he hpc hcell hdecode
  rw [step_eq_execCell hf he hpc, hcell, decode_eq_ok.mp hdecode, execCell_cell]
  rfl

/-! ## A placed word -/

theorem tableWord_toNat (w : CellWord 32) : tableWord 80 w.toNat = w := by
  have hmod : w.toNat % 2 ^ 80 = w.toNat := Nat.mod_eq_of_lt w.isLt
  rw [tableWord, hmod]
  exact (BitVec.ofNat_toNat _ w).trans (BitVec.setWidth_eq w)

theorem withActingEntry_fatal (s : State) : (withActingEntry s).fatal = s.fatal := by
  unfold withActingEntry
  split <;> rfl

theorem exists_acting_withActingEntry (s : State) : ∃ e, Acting (withActingEntry s) e := by
  unfold withActingEntry
  split
  · next e he => exact ⟨e, he⟩
  · cases hq : s.queue with
    | nil => exact ⟨⟨0, 0, true, true, 0⟩, rfl⟩
    | cons e q => exact ⟨e, rfl⟩

/-- Where a cell is placed: at the acting entry's pc, taken into the arena. -/
theorem placeCell_of_acting {P : Params} {c : Cell} {s t : State} {e : Entry}
    (ht : withActingEntry { s with fatal := false } = t) (he : Acting t e) : placeCell P c s =
      { t with
        queue := t.queue.set t.cur { e with pc := wrap P e.pc 0 }
        arena := t.arena.write (wrap P e.pc 0) c } := by
  have he' : t.queue[t.cur]? = some e := he
  simp only [placeCell, ht, he']

/-- After a cell is placed, the acting entry fetches it. -/
theorem exists_acting_placeCell {P : Params} (hS : 0 < P.coresize) (c : Cell) (s : State) :
    ∃ e, Acting (placeCell P c s) e ∧ e.pc < P.coresize ∧ (placeCell P c s).fatal = false ∧
      (placeCell P c s).arena.read e.pc = c := by
  have hfatal := withActingEntry_fatal { s with fatal := false }
  obtain ⟨e, he⟩ := exists_acting_withActingEntry { s with fatal := false }
  generalize ht : withActingEntry { s with fatal := false } = t at hfatal he
  have hcur : t.cur < t.queue.length := (List.getElem?_eq_some_iff.mp he).1
  rw [placeCell_of_acting ht he]
  exact ⟨{ e with pc := wrap P e.pc 0 }, List.getElem?_set_self hcur, wrap_lt P hS e.pc 0, hfatal,
    Memory.read_write_same t.arena _ c⟩

/-- Settles O39: the 80 bits of a word are the whole word, so the cell placed is its own. -/
theorem placedWordIsFetchedNext : Obligations.PlacedWordIsFetchedNext := by
  intro s w
  have hcell : s.withFetchWord 80 w.toNat = placeCell .hardware (decodeCell 32 w) s :=
    congrArg (fun x => placeCell .hardware (decodeCell 32 x) s) (tableWord_toNat w)
  rw [hcell]
  exact exists_acting_placeCell (P := .hardware) (by decide) (decodeCell 32 w) s

end Sys2Proof.Machine

/-! Operand resolution (40_execution_cycle.md R116-R127): the outcome of each kind of mode as an equation, and what one
operand can do, from which come the outcomes of the two in sequence. -/

namespace Sys2Proof.Machine

/-! ## Touches and pointer writes -/

/-- The pointer of an operand: field `sel` of the cell at `wrap(pc, f)` (40_execution_cycle.md R119). -/
abbrev pointer (P : Params) (e : Entry) (sel : Field) (f : Int) (s : State) : Int :=
  cellField (s.arena.read (wrap P e.pc f)) sel

/-- The state after a pointer field is written: that field of the cell as it stands, and a touch. -/
def pointerSet (e : Entry) (ptr : Nat) (sel : Field) (p : Int) (s : State) : State :=
  touch e.wid ptr { s with arena := s.arena.write ptr (withCellField (s.arena.read ptr) sel p) }

theorem pointerSet_read (e : Entry) (ptr : Nat) (sel : Field) (p : Int) (s : State) (x : Nat) :
    (pointerSet e ptr sel p s).arena.read x =
      if x = ptr then withCellField (s.arena.read ptr) sel p else s.arena.read x := Memory.read_write _ _ _ x

theorem pointerSet_touched (e : Entry) (ptr : Nat) (sel : Field) (p : Int) (s : State) :
    (pointerSet e ptr sel p s).touched = (touch e.wid ptr s).touched := rfl

/-- TOUCHED holds an address once (10_state.md R30). -/
theorem touch_touched_of_mem {a : Nat} {s : State} (h : a ∈ s.touched) (wid : Nat) :
    (touch wid a s).touched = s.touched := if_pos h

theorem touch_touched_congr {s t : State} (h : s.touched = t.touched) (wid a : Nat) :
    (touch wid a s).touched = (touch wid a t).touched := by simp only [touch_touched, h]

theorem mem_touch_touched {a b wid : Nat} {s : State} : b ∈ (touch wid a s).touched ↔ b = a ∨ b ∈ s.touched := by
  by_cases h : a ∈ s.touched
  · rw [touch_touched_of_mem h]
    exact ⟨.inr, fun hb => hb.elim (fun hba => hba ▸ h) id⟩
  · simp [h, or_comm]

/-- Accesses leave the queue, the tables and the registers as they were. -/
theorem Accessed.onlyCells {P : Params} {e : Entry} {s t : State} (h : Accessed P e s t) : OnlyCells s t where
  queue := h.queue
  cur := h.cur
  warriors := h.warriors
  running := h.running
  remaining := h.remaining
  cycles := h.cycles
  status := h.status
  fatal := h.fatal
  occ := h.occ

/-! ## The kinds of mode -/

section
variable {P : Params} {e : Entry} {s : State}

theorem snapshot_of_lt {a : Nat} (h : a < P.coresize) :
    snapshot P e a s = .done ⟨a, s.arena.read a⟩ (touch e.wid a s) := by
  rw [snapshot, memRead_of_lt e h, Phase.andThen]

theorem snapshot_ne_raised (a : Nat) (r : Raise) (t : State) : snapshot P e a s ≠ .raised r t := by
  unfold snapshot memRead
  split <;> exact nofun

theorem writePointer_of_fits {ptr : Nat} (hptr : ptr < P.coresize) {p : Int} (hp : P.Fits p) (sel : Field) :
    writePointer P e ptr sel p s = .done () (pointerSet e ptr sel p s) := by
  rw [writePointer, if_pos hp]
  exact memWrite_of_lt e hptr _ s

theorem writePointer_of_not_fits {p : Int} (hp : ¬P.Fits p) (ptr : Nat) (sel : Field) :
    writePointer P e ptr sel p s = .raised .overflow s := if_neg hp

variable (hS : 0 < P.coresize) (sel : Field) (f : Int)
include hS

theorem resolveIndirect_eq : resolveIndirect P e sel f s =
    .done ⟨wrap P e.pc (f + pointer P e sel f s), s.arena.read (wrap P e.pc (f + pointer P e sel f s))⟩
      (touch e.wid (wrap P e.pc (f + pointer P e sel f s)) (touch e.wid (wrap P e.pc f) s)) := by
  rw [resolveIndirect, memRead_of_lt e (wrap_lt P hS _ _), Phase.andThen, snapshot_of_lt (wrap_lt P hS _ _)]
  rfl

/-- Pre-decrement where the pointer fits: written, then used (40_execution_cycle.md R121, R122). -/
theorem resolvePreDecrement_of_fits (hp : P.Fits (pointer P e sel f s - 1)) : resolvePreDecrement P e sel f s =
    snapshot P e (wrap P e.pc (f + (pointer P e sel f s - 1)))
      (pointerSet e (wrap P e.pc f) sel (pointer P e sel f s - 1) (touch e.wid (wrap P e.pc f) s)) := by
  rw [resolvePreDecrement, memRead_of_lt e (wrap_lt P hS _ _), Phase.andThen,
    writePointer_of_fits (wrap_lt P hS _ _) hp, Phase.andThen]

theorem resolvePreDecrement_of_not_fits (hp : ¬P.Fits (pointer P e sel f s - 1)) :
    resolvePreDecrement P e sel f s = .raised .overflow (touch e.wid (wrap P e.pc f) s) := by
  rw [resolvePreDecrement, memRead_of_lt e (wrap_lt P hS _ _), Phase.andThen, writePointer_of_not_fits hp,
    Phase.andThen]

/-- Post-increment where the pointer fits: used, then written (40_execution_cycle.md R123, R124). -/
theorem resolvePostIncrement_of_fits (hp : P.Fits (pointer P e sel f s + 1)) : resolvePostIncrement P e sel f s =
    .done ⟨wrap P e.pc (f + pointer P e sel f s), s.arena.read (wrap P e.pc (f + pointer P e sel f s))⟩
      (pointerSet e (wrap P e.pc f) sel (pointer P e sel f s + 1)
        (touch e.wid (wrap P e.pc (f + pointer P e sel f s)) (touch e.wid (wrap P e.pc f) s))) := by
  rw [resolvePostIncrement, memRead_of_lt e (wrap_lt P hS _ _), Phase.andThen, snapshot_of_lt (wrap_lt P hS _ _),
    Phase.andThen, writePointer_of_fits (wrap_lt P hS _ _) hp, Phase.andThen]
  rfl

theorem resolvePostIncrement_of_not_fits (hp : ¬P.Fits (pointer P e sel f s + 1)) :
    resolvePostIncrement P e sel f s = .raised .overflow
      (touch e.wid (wrap P e.pc (f + pointer P e sel f s)) (touch e.wid (wrap P e.pc f) s)) := by
  rw [resolvePostIncrement, memRead_of_lt e (wrap_lt P hS _ _), Phase.andThen, snapshot_of_lt (wrap_lt P hS _ _),
    Phase.andThen, writePointer_of_not_fits hp, Phase.andThen]

end

/-! ## One operand -/

theorem hardware_coresize_pos : 0 < Params.hardware.coresize := by decide

/-- The modes that write their pointer field (40_execution_cycle.md R116). -/
abbrev movingModes : List Mode := [.aPreDecrement, .aPostIncrement, .bPreDecrement, .bPostIncrement]

/-- A fact about the four kinds of mode is one about every operand. -/
theorem resolveOperand_induction {motive : Phase Resolved → Prop} {e : Entry} {s : State} (o : Operand)
    (snap : ∀ a, motive (snapshot .hardware e a s))
    (indirect : ∀ sel, motive (resolveIndirect .hardware e sel o.field s))
    (preDecrement : o.mode ∈ movingModes → ∀ sel, motive (resolvePreDecrement .hardware e sel o.field s))
    (postIncrement : o.mode ∈ movingModes → ∀ sel, motive (resolvePostIncrement .hardware e sel o.field s)) :
    motive (resolveOperand .hardware e o s) := by
  obtain ⟨mode, f⟩ := o
  cases mode with
  | immediate | direct => exact snap _
  | aIndirect => exact indirect .a
  | bIndirect => exact indirect .b
  | aPreDecrement => exact preDecrement (by simp) .a
  | bPreDecrement => exact preDecrement (by simp) .b
  | aPostIncrement => exact postIncrement (by simp) .a
  | bPostIncrement => exact postIncrement (by simp) .b

/-- The only fault of an operand is the overflow of a pointer field that its mode moves by one
(40_execution_cycle.md R126). -/
theorem resolveOperand_raised {e : Entry} {o : Operand} {s t : State} {r : Raise}
    (h : resolveOperand .hardware e o s = .raised r t) :
    r = .overflow ∧ o.mode ∈ movingModes ∧ ∃ sel, ¬Params.hardware.Fits (pointer .hardware e sel o.field s - 1) ∨
      ¬Params.hardware.Fits (pointer .hardware e sel o.field s + 1) := by
  revert h
  refine resolveOperand_induction (motive := fun p => p = .raised r t → _) o (fun a h => ?_) (fun sel h => ?_)
    (fun hm sel h => ?_) (fun hm sel h => ?_)
  · exact absurd h (snapshot_ne_raised a r t)
  · rw [resolveIndirect_eq hardware_coresize_pos] at h
    cases h
  · by_cases hp : Params.hardware.Fits (pointer .hardware e sel o.field s - 1)
    · rw [resolvePreDecrement_of_fits hardware_coresize_pos sel o.field hp] at h
      exact absurd h (snapshot_ne_raised _ r t)
    · rw [resolvePreDecrement_of_not_fits hardware_coresize_pos sel o.field hp] at h
      cases h
      exact ⟨rfl, hm, sel, .inl hp⟩
  · by_cases hp : Params.hardware.Fits (pointer .hardware e sel o.field s + 1)
    · rw [resolvePostIncrement_of_fits hardware_coresize_pos sel o.field hp] at h
      cases h
    · rw [resolvePostIncrement_of_not_fits hardware_coresize_pos sel o.field hp] at h
      cases h
      exact ⟨rfl, hm, sel, .inr hp⟩

/-- Every field of n is within one of the same field of m. -/
def FieldsNear (m n : Memory) : Prop :=
  ∀ (x : Nat) (g : Field), cellField (m.read x) g - 1 ≤ cellField (n.read x) g ∧
    cellField (n.read x) g ≤ cellField (m.read x) g + 1

theorem FieldsNear.of_keepsCell {α : Type} {s : State} {p : Phase α} (h : ∀ x, KeepsCell x s p) :
    FieldsNear s.arena p.state.arena := by
  intro x g
  rw [show p.state.arena.read x = s.arena.read x from h x]
  omega

theorem FieldsNear.refl (m : Memory) : FieldsNear m m := fun _ _ => by omega

theorem FieldsNear.pointerSet {s : State} {ptr : Nat} {sel : Field} {p : Int}
    (hp : p = cellField (s.arena.read ptr) sel - 1 ∨ p = cellField (s.arena.read ptr) sel + 1) (e : Entry) :
    FieldsNear s.arena (pointerSet e ptr sel p s).arena := by
  intro x g
  rw [pointerSet_read]
  split
  · next hx =>
    subst hx
    rw [cellField_withCellField]
    split
    · next hg =>
      subst hg
      omega
    · omega
  · omega

/-- An operand moves a pointer field by at most one, however its resolution ends. -/
theorem resolveOperand_fieldsNear (e : Entry) (o : Operand) (s : State) :
    FieldsNear s.arena (resolveOperand .hardware e o s).state.arena := by
  refine resolveOperand_induction (motive := fun p => FieldsNear s.arena p.state.arena) o
    (fun a => .of_keepsCell fun _ => keepsCell_snapshot a)
    (fun sel => .of_keepsCell fun _ => keepsCell_resolveIndirect sel o.field) (fun _ sel => ?_) (fun _ sel => ?_)
  · by_cases hp : Params.hardware.Fits (pointer .hardware e sel o.field s - 1)
    · rw [resolvePreDecrement_of_fits hardware_coresize_pos sel o.field hp,
        snapshot_of_lt (wrap_lt _ hardware_coresize_pos _ _)]
      exact .pointerSet (s := touch e.wid _ s) (.inl rfl) e
    · rw [resolvePreDecrement_of_not_fits hardware_coresize_pos sel o.field hp]
      exact .refl _
  · by_cases hp : Params.hardware.Fits (pointer .hardware e sel o.field s + 1)
    · rw [resolvePostIncrement_of_fits hardware_coresize_pos sel o.field hp]
      exact .pointerSet (s := touch e.wid _ (touch e.wid _ s)) (.inr rfl) e
    · rw [resolvePostIncrement_of_not_fits hardware_coresize_pos sel o.field hp]
      exact .refl _

section
variable {e : Entry} {o : Operand} {s t : State}

theorem resolveOperand_done_onlyCells {r : Resolved} (h : resolveOperand .hardware e o s = .done r t) :
    OnlyCells s t :=
  ((resolveOperand_spec (V := False) hardware_coresize_pos o False.elim).done r t h).1.onlyCells

theorem resolveOperand_raised_onlyCells {r : Raise} (h : resolveOperand .hardware e o s = .raised r t) :
    OnlyCells s t :=
  ((resolveOperand_spec (V := False) hardware_coresize_pos o False.elim).raised r t h).1.onlyCells

end

/-- Settles O8: one snapshot, at the pc or at the wrapped sum. -/
theorem immediateAndDirectResolve : Obligations.ImmediateAndDirectResolve :=
  ⟨rfl, rfl, fun _ _ _ => ⟨fun hpc => snapshot_of_lt hpc, snapshot_of_lt (wrap_lt _ hardware_coresize_pos _ _)⟩⟩

/-- Settles O9: the pointer cell is read, then the target, neither of them written. -/
theorem indirectResolves : Obligations.IndirectResolves := by
  refine ⟨rfl, rfl, fun s e f sel => ?_⟩
  cases sel with
  | a => exact resolveIndirect_eq hardware_coresize_pos .a f
  | b => exact resolveIndirect_eq hardware_coresize_pos .b f

/-- Settles O10: the write of the pointer is between the read of its cell and the snapshot. -/
theorem preDecrementResolves : Obligations.PreDecrementResolves := by
  refine ⟨rfl, rfl, fun s e f sel => ?_⟩
  have hmode : resolveOperand .hardware e ⟨match sel with | .a => .aPreDecrement | .b => .bPreDecrement, f⟩ s =
      resolvePreDecrement .hardware e sel f s := by cases sel <;> rfl
  intro ptr p addr mode
  refine ⟨fun hp => ?_, fun hp => ?_⟩
  · have hdone := (hmode.trans (resolvePreDecrement_of_fits hardware_coresize_pos sel f hp)).trans
      (snapshot_of_lt (wrap_lt _ hardware_coresize_pos _ _))
    have hmem : ptr ∈ (touch e.wid ptr s).touched := mem_touch_touched.mpr (.inl rfl)
    have htouched : (pointerSet e ptr sel p (touch e.wid ptr s)).touched = (touch e.wid ptr s).touched :=
      (pointerSet_touched ..).trans (touch_touched_of_mem hmem e.wid)
    exact ⟨_, hdone, resolveOperand_done_onlyCells hdone, pointerSet_read e ptr sel p (touch e.wid ptr s),
      touch_touched_congr htouched e.wid addr⟩
  · have hraised := hmode.trans (resolvePreDecrement_of_not_fits hardware_coresize_pos sel f hp)
    exact ⟨_, hraised, resolveOperand_raised_onlyCells hraised, rfl⟩

/-- Settles O11: the write of the pointer is after the snapshot, its cell touched before. -/
theorem postIncrementResolves : Obligations.PostIncrementResolves := by
  refine ⟨rfl, rfl, fun s e f sel => ?_⟩
  have hmode : resolveOperand .hardware e ⟨match sel with | .a => .aPostIncrement | .b => .bPostIncrement, f⟩ s =
      resolvePostIncrement .hardware e sel f s := by cases sel <;> rfl
  intro ptr p addr mode
  refine ⟨fun hp => ?_, fun hp => ?_⟩
  · have hdone := hmode.trans (resolvePostIncrement_of_fits hardware_coresize_pos sel f hp)
    have hmem : ptr ∈ (touch e.wid addr (touch e.wid ptr s)).touched :=
      mem_touch_touched.mpr (.inr (mem_touch_touched.mpr (.inl rfl)))
    exact ⟨_, hdone, resolveOperand_done_onlyCells hdone, pointerSet_read e ptr sel (p + 1) _,
      (pointerSet_touched ..).trans (touch_touched_of_mem hmem e.wid)⟩
  · have hraised := hmode.trans (resolvePostIncrement_of_not_fits hardware_coresize_pos sel f hp)
    exact ⟨_, hraised, resolveOperand_raised_onlyCells hraised, rfl, rfl⟩

/-- Settles O12: `INCDEC_MUTATE` is the only thing that sets the four modes apart from the indirect ones. -/
theorem withoutMutationTheModesAreIndirect : Obligations.WithoutMutationTheModesAreIndirect := by
  intro P s e f h
  have hmode : ¬P.incdecMutate = true := by simp [h]
  exact ⟨if_neg hmode, if_neg hmode, if_neg hmode, if_neg hmode⟩

/-! ## Two phases in sequence, and the two operands -/

theorem andThen_eq_done {α β : Type} {p : Phase α} {k : α → State → Phase β} {w : β} {u : State} :
    p.andThen k = .done w u ↔ ∃ v t, p = .done v t ∧ k v t = .done w u := by
  cases p with
  | done v t | raised r t | fatal t => simp [Phase.andThen]

theorem andThen_eq_raised {α β : Type} {p : Phase α} {k : α → State → Phase β} {r : Raise} {u : State} :
    p.andThen k = .raised r u ↔ p = .raised r u ∨ ∃ v t, p = .done v t ∧ k v t = .raised r u := by
  cases p with
  | done v t | raised r t | fatal t => simp [Phase.andThen]

section
variable {P : Params} {e : Entry} {a b : Operand} {s u : State}

theorem resolveOperands_eq_done {src dst : Resolved} : resolveOperands P e a b s = .done (src, dst) u ↔
    ∃ v, resolveOperand P e a s = .done src v ∧ resolveOperand P e b v = .done dst u := by
  simp [resolveOperands, andThen_eq_done]

theorem resolveOperands_eq_raised {r : Raise} : resolveOperands P e a b s = .raised r u ↔
    resolveOperand P e a s = .raised r u ∨
      ∃ src v, resolveOperand P e a s = .done src v ∧ resolveOperand P e b v = .raised r u := by
  simp [resolveOperands, andThen_eq_raised]

/-- What the two operands can do, valid cells apart (40_execution_cycle.md R116, R127). -/
theorem resolveOperands_accesses (e : Entry) (a b : Operand) (s : State) :
    PhaseSpec .hardware e False s (fun sd _ => GoodOperand .hardware False sd.1 ∧ GoodOperand .hardware False sd.2)
      (resolveOperands .hardware e a b s) := resolveOperands_spec hardware_coresize_pos a b False.elim

theorem resolveOperands_raised {r : Raise} (h : resolveOperands .hardware e a b s = .raised r u) : r = .overflow := by
  rcases resolveOperands_eq_raised.mp h with ha | ⟨_, _, -, hb⟩
  · exact (resolveOperand_raised ha).1
  · exact (resolveOperand_raised hb).1

/-- With the pc in the arena no access is outside it, so the operands resolve or overflow (20_memory.md R54). -/
theorem resolves_or_overflow (a b : Operand) (s : State) (hpc : e.pc < 8000) :
    (∃ src dst u, Resolves e a b s src dst u) ∨ ∃ u, resolveOperands .hardware e a b s = .raised .overflow u := by
  cases h : resolveOperands .hardware e a b s with
  | done sd u => exact .inl ⟨sd.1, sd.2, u, h⟩
  | raised r u =>
    obtain rfl : r = .overflow := resolveOperands_raised h
    exact .inr ⟨u, rfl⟩
  | fatal u => exact absurd hpc ((resolveOperands_accesses e a b s).fatal u h).1

theorem resolves_of_ne_raised (hpc : e.pc < 8000)
    (h : ∀ u, resolveOperands .hardware e a b s ≠ .raised .overflow u) : ∃ src dst u, Resolves e a b s src dst u :=
  (resolves_or_overflow a b s hpc).resolve_right fun ⟨u, hu⟩ => h u hu

/-- Two fields moved by one each stay in range from 2 inside it: A moves its pointer, then B its own, or the same one. -/
theorem resolveOperands_ne_raised_of_margin
    (hm : ∀ (x : Nat) (f : Field), Params.hardware.Fits (cellField (s.arena.read x) f - 2) ∧
      Params.hardware.Fits (cellField (s.arena.read x) f + 2)) (r : Raise) :
    resolveOperands .hardware e a b s ≠ .raised r u := by
  have hfits (v : State) (hnear : FieldsNear s.arena v.arena) (o : Operand) :
      resolveOperand .hardware e o v ≠ .raised r u := by
    intro h
    obtain ⟨-, -, sel, hout⟩ := resolveOperand_raised h
    obtain ⟨hlo, hhi⟩ := hm (wrap .hardware e.pc o.field) sel
    obtain ⟨hdown, hup⟩ := hnear (wrap .hardware e.pc o.field) sel
    simp only [Params.Fits, pointer] at hlo hhi hout
    omega
  intro h
  rcases resolveOperands_eq_raised.mp h with ha | ⟨src, v, ha, hb⟩
  · exact hfits s (.refl _) a ha
  · have hnear := resolveOperand_fieldsNear e a s
    rw [ha] at hnear
    exact hfits v hnear b hb

end

/-- Settles O13: A's and B's accesses, of which the written ones are at their pointer cells. -/
theorem resolutionFrame : Obligations.ResolutionFrame := by
  intro s u e a b src dst h
  obtain ⟨hacc, -, hsrc, hdst⟩ := (resolveOperands_accesses e a b s).done (src, dst) u h
  refine ⟨hsrc.1, hdst.1, hacc.onlyCells, fun x ha hb => ?_⟩
  have hkeep := keepsCell_resolveOperands (s := s) ha hb
  rwa [KeepsCell, h] at hkeep

/-- Settles O14: the sequence of the two operands, each of which raises nothing but the overflow of its own pointer. -/
theorem operandsResolve : Obligations.OperandsResolve := by
  refine ⟨fun _ _ _ _ _ _ _ => resolveOperands_eq_done, fun _ _ _ _ _ _ => resolveOperands_eq_raised,
    fun s e a b hpc => ?_⟩
  refine ⟨resolves_or_overflow a b s hpc, fun ha hb => resolves_of_ne_raised hpc fun u h => ?_,
    fun hm => resolves_of_ne_raised hpc fun u => resolveOperands_ne_raised_of_margin hm .overflow⟩
  rcases resolveOperands_eq_raised.mp h with hA | ⟨_, _, -, hB⟩
  · exact ha (resolveOperand_raised hA).2.1
  · exact hb (resolveOperand_raised hB).2.1

end Sys2Proof.Machine

/-! Faults of the two phases of an instruction (40_execution_cycle.md R126, R130, 60_exceptions.md R243, R245). -/

namespace Sys2Proof.Machine

/-- A fault taken after accesses kills the acting process and accesses nothing more (60_exceptions.md R243). -/
theorem killed_takeFault {s u : State} {e : Entry} (he : Acting s e) (hu : Accessed .hardware e s u) (op : BitVec 5)
    (r : Raise) : Killed s e op r.code u (takeFault .hardware e op r u) where
  commit := by simpa [takeFault, Raise.result] using commit_committed he hu op r.result
  cells := ⟨commit_arena .., commit_act .., commit_touched ..⟩

/-- Where the operands raise a fault, it ends the phases: none of the opcode runs (60_exceptions.md R243). -/
theorem phases_of_raised {P : Params} {e : Entry} {a b : Operand} {s u : State} {r : Raise}
    (h : resolveOperands P e a b s = .raised r u) (x : Execute) : phases P e a b x s = .raised r u := by
  simp [phases, h, Phase.andThen]

/-- Settles O30: the fault of the resolution is taken whatever the execute phase would be. -/
theorem resolutionFaultKillsWhateverTheOpcode : Obligations.ResolutionFaultKillsWhateverTheOpcode := by
  intro s u e i r he h
  obtain rfl : r = .overflow := resolveOperands_raised h
  obtain ⟨hacc, -⟩ := (resolveOperands_accesses e i.cell.a i.cell.b s).raised .overflow u h
  refine ⟨rfl, _, ?_, killed_takeFault he hacc i.cell.head.opCode .overflow⟩
  rw [exec_eq he, phases_of_raised h]
  rfl

/-! ## Execute phases -/

section
variable {P : Params} {e : Entry} {src dst : Resolved} {s u : State} {r : Raise}

theorem memWrite_andThen_done_ne_raised (a : Nat) (c : Cell) (v : Result) :
    (memWrite P e a c s).andThen (fun _ t => .done v t) ≠ .raised r u := by
  unfold memWrite
  split <;> exact nofun

theorem movEffect_ne_raised (m : Modifier) : movEffect P m e src dst s ≠ .raised r u := by
  unfold movEffect
  split <;> exact memWrite_andThen_done_ne_raised _ _ _

/-- The checks of `Arith(op)` come before its one write (42_arithmetic.md R170). -/
theorem arith_raised {divides : Bool} {op : Int → Int → Int} {m : Modifier}
    (h : arith P divides op m e src dst s = .raised r u) : u = s := by
  unfold arith at h
  split at h
  · cases h; rfl
  · split at h
    · exact absurd h (memWrite_andThen_done_ne_raised _ _ _)
    · cases h; rfl

/-- The range check of DJN comes before its one write (43_jumps.md R193). -/
theorem djnEffect_raised {m : Modifier} (h : djnEffect P m e src dst s = .raised r u) : u = s := by
  unfold djnEffect at h
  split at h
  · split at h
    · exact absurd h (memWrite_andThen_done_ne_raised _ _ _)
    · cases h; rfl
  · cases h

end

/-- Settles O31: an opcode that writes raises only before its write, and one that does not write leaves the state. -/
theorem faultingExecuteWritesNothing : Obligations.FaultingExecuteWritesNothing := by
  intro P i e src dst s u r h
  cases i with
  | mov m _ _ => exact absurd h (movEffect_ne_raised m)
  | add m _ _ | sub m _ _ | mul m _ _ => exact arith_raised (divides := false) (m := m) h
  | div m _ _ | mod m _ _ => exact arith_raised (divides := true) (m := m) h
  | djn => exact djnEffect_raised h
  | dat | nop | jmp | jmz | jmn | cmp | seq | sne | slt => cases h
  | djz | ldp | stp | spl => cases h; rfl

end Sys2Proof.Machine

/-! One instruction whose operands resolve (40_execution_cycle.md R128-R136): it commits what its execute phase answers,
and an execute phase that completes has accessed nothing, or written one cell. -/

namespace Sys2Proof.Machine

/-! ## A written cell -/

/-- The state after MemWrite inside the arena: the cell replaced, and a touch (00_scope.md R10). -/
def cellSet (e : Entry) (a : Nat) (c : Cell) (s : State) : State :=
  touch e.wid a { s with arena := s.arena.write a c }

theorem memWrite_eq_cellSet {P : Params} {e : Entry} {a : Nat} (h : a < P.coresize) (c : Cell) (s : State) :
    memWrite P e a c s = .done () (cellSet e a c s) := memWrite_of_lt e h c s

theorem fieldWrite_eq_cellSet {P : Params} {e : Entry} {a : Nat} (h : a < P.coresize) (ws : List (Field × Int))
    (s : State) : fieldWrite P e a ws s = .done () (cellSet e a (withCellFields (s.arena.read a) ws) s) :=
  memWrite_eq_cellSet h _ s

theorem cellSet_accessed {P : Params} (e : Entry) {a : Nat} (h : a < P.coresize) (c : Cell) (s : State) :
    Accessed P e s (cellSet e a c s) := accessed_write e h c s

theorem cellSet_wroteCell (e : Entry) (a : Nat) (c : Cell) (s : State) : WroteCell e s a c (cellSet e a c s) where
  arena x := Memory.read_write s.arena a c x
  act x := Sparse.get_set none s.act a (some e.wid) x
  touched := rfl

/-! ## The commit accesses nothing -/

theorem commit_sameCells (P : Params) (e : Entry) (op : BitVec 5) (r : Result) (s : State) :
    SameCells s (commit P e op r s) where
  arena := commit_arena P e op r s
  act := commit_act P e op r s
  touched := commit_touched P e op r s

theorem wroteCell_of_sameCells {e : Entry} {s t u : State} {a : Nat} {c : Cell} (h : WroteCell e s a c t)
    (hu : SameCells t u) : WroteCell e s a c u where
  arena x := by rw [hu.arena, h.arena]
  act x := by rw [hu.act, h.act]
  touched := by rw [hu.touched, h.touched]

/-! ## From the execute phase to the next state -/

section
variable {s u v : State} {e : Entry} {i : Instr} {src dst : Resolved} {r : Result}

/-- Where the operands resolve, the end of the instruction is that of its execute phase. -/
theorem exec_of_resolves (he : Acting s e) (h : Resolves e i.cell.a i.cell.b s src dst u) :
    exec i s = .next (endStep .hardware e i.cell.head.opCode (effectOf .hardware i e src dst u)) := by
  rw [exec_eq he, phases_of_done h]

/-- An execute phase that completes after accesses is committed. -/
theorem exec_of_effect_done (he : Acting s e) (h : Resolves e i.cell.a i.cell.b s src dst u)
    (hv : Accessed .hardware e u v) (hx : effectOf .hardware i e src dst u = .done r v) :
    ∃ t, exec i s = .next t ∧
      Committed s e i.cell.head.opCode r.code (r.target.getD (wrap .hardware e.pc 1)) (e.processAlive && !r.killed) t ∧
      SameCells v t := by
  obtain ⟨hu, -⟩ := (resolveOperands_accesses e i.cell.a i.cell.b s).done (src, dst) u h
  exact ⟨_, by rw [exec_of_resolves he h, hx]; rfl, commit_committed he (hu.trans hv) _ r, commit_sameCells ..⟩

/-- An execute phase that writes one cell. -/
theorem exec_of_effect_cellSet {a : Nat} {c : Cell} (he : Acting s e) (h : Resolves e i.cell.a i.cell.b s src dst u)
    (ha : a < 8000) (hx : effectOf .hardware i e src dst u = .done r (cellSet e a c u)) :
    ∃ t, exec i s = .next t ∧
      Committed s e i.cell.head.opCode r.code (r.target.getD (wrap .hardware e.pc 1)) (e.processAlive && !r.killed) t ∧
      WroteCell e u a c t := by
  obtain ⟨t, hexec, hcommit, hcells⟩ := exec_of_effect_done he h (cellSet_accessed e ha c u) hx
  exact ⟨t, hexec, hcommit, wroteCell_of_sameCells (cellSet_wroteCell e a c u) hcells⟩

end

end Sys2Proof.Machine

/-! DAT and MOV (41_dat_mov.md). -/

namespace Sys2Proof.Machine

/-- Settles O15: the execute phase of DAT kills and accesses nothing, and the commit does the rest. -/
theorem datKillsTheActingProcess : Obligations.DatKillsTheActingProcess := by
  intro s u e m a b src dst he h
  obtain ⟨t, hexec, hcommit, hcells⟩ := exec_of_effect_done (i := .dat m a b) he h (.refl .hardware e u) rfl
  rw [Bool.not_true, Bool.and_false] at hcommit
  exact ⟨t, hexec, hcommit, hcells⟩

/-- The fields the modifier pairs, but for I, which copies the whole cell (41_dat_mov.md R151, 30_encoding.md R89). -/
theorem withCellFields_pairs_eq_moved {m : Modifier} (h : m ≠ .i) (S L : Cell) :
    withCellFields L ((pairs m).map fun p => (p.2, cellField S p.1)) = Expect.moved m S L := by
  cases m with
  | i => exact absurd rfl h
  | a | b | ab | ba | f | x => rfl

/-- The execute phase of MOV (41_dat_mov.md R151). -/
theorem movEffect_eq {P : Params} {dst : Resolved} (h : dst.addr < P.coresize) (m : Modifier) (e : Entry)
    (src : Resolved) (s : State) : movEffect P m e src dst s =
      .done ⟨none, false, .ok⟩ (cellSet e dst.addr (Expect.moved m src.cell (s.arena.read dst.addr)) s) := by
  by_cases hi : m = .i
  · subst hi
    rw [movEffect, if_pos rfl, memWrite_eq_cellSet h, Phase.andThen, Expect.moved]
  · rw [movEffect, if_neg hi, fieldWrite_eq_cellSet h, Phase.andThen, withCellFields_pairs_eq_moved hi]

/-- Settles O16: the Destination address is in the arena, so the one write of MOV is made. -/
theorem movCopies : Obligations.MovCopies := by
  intro s u e m a b src dst he h
  obtain ⟨-, hdst, -⟩ := resolutionFrame s u e a b src dst h
  obtain ⟨t, hexec, hcommit, hwrote⟩ := exec_of_effect_cellSet (i := .mov m a b) he h hdst (movEffect_eq hdst m e src u)
  rw [Bool.not_false, Bool.and_true] at hcommit
  exact ⟨t, hexec, hcommit, hwrote⟩

end Sys2Proof.Machine

/-! ADD, SUB, MUL, DIV and MOD (42_arithmetic.md). All five run one `Arith(op)` (R170), whose tests and writes go over the
pairs of the modifier: each is first put in the terms of the statements, and the outcome of an instruction that runs
`Arith(op)` is then said once, for every op. -/

namespace Sys2Proof.Machine

/-! ## The modifier's pairs -/

theorem everyResult_iff {p : Int → Prop} {op : Int → Int → Int} {m : Modifier} {S D : Cell} :
    Expect.everyResult p op m S D ↔ ∀ q ∈ pairs m, p (op (cellField D q.2) (cellField S q.1)) := by
  cases m <;> simp [Expect.everyResult, pairs, cellField]

theorem someDivisorZero_iff {m : Modifier} {S : Cell} :
    Expect.someDivisorZero m S ↔ ∃ q ∈ pairs m, cellField S q.1 = 0 := by
  cases m <;> simp [Expect.someDivisorZero, pairs, cellField]

theorem zeroDivisor_iff {m : Modifier} {S : Cell} : zeroDivisor m S = true ↔ Expect.someDivisorZero m S := by
  simp [zeroDivisor, someDivisorZero_iff]

theorem all_arithResults_iff {P : Params} {op : Int → Int → Int} {m : Modifier} {S D : Cell} :
    ((arithResults op m S D).all fun w => decide (P.Fits w.2)) = true ↔ Expect.everyResult P.Fits op m S D := by
  simp only [arithResults, List.all_map, List.all_eq_true, Function.comp_apply, decide_eq_true_eq, everyResult_iff]

theorem withCellFields_arithResults (op : Int → Int → Int) (m : Modifier) (S D L : Cell) :
    withCellFields L (arithResults op m S D) = Expect.combined op m S D L := by
  cases m <;> rfl

/-- A remainder is smaller than its divisor, so those by the fields of a well-formed cell fit (42_arithmetic.md R175). -/
theorem everyResult_tmod_fits {P : Params} {m : Modifier} {S : Cell} (hS : S.WellFormed P)
    (hzero : ¬Expect.someDivisorZero m S) (D : Cell) : Expect.everyResult P.Fits Int.tmod m S D := by
  refine everyResult_iff.mpr fun q hq => ?_
  have hne : cellField S q.1 ≠ 0 := fun h => hzero (someDivisorZero_iff.mpr ⟨q, hq, h⟩)
  rw [← trem_eq_tmod]
  exact fits_of_natAbs_lt (natAbs_trem_lt _ hne) (cellField_fits hS q.1)

/-! ## `Arith(op)` (42_arithmetic.md R170) -/

section
variable {P : Params} {divides : Bool} {op : Int → Int → Int} {m : Modifier} {src dst : Resolved}

theorem arith_of_zero (hzero : Expect.someDivisorZero m src.cell) (e : Entry) (s : State) :
    arith P true op m e src dst s = .raised .divZero s := by
  simp [arith, zeroDivisor_iff.mpr hzero]

/-- ADD, SUB and MUL do not make the divisor check; DIV and MOD pass it where no selected Source field is 0. -/
theorem divisorCheck_passes {S : Cell} (hzero : divides = true → ¬Expect.someDivisorZero m S) :
    ¬(divides && zeroDivisor m S) = true := by
  rwa [Bool.and_eq_true, zeroDivisor_iff, not_and]

theorem arith_of_fits (hdst : dst.addr < P.coresize) (hzero : divides = true → ¬Expect.someDivisorZero m src.cell)
    (hfits : Expect.everyResult P.Fits op m src.cell dst.cell) (e : Entry) (s : State) :
    arith P divides op m e src dst s = .done ⟨none, false, .ok⟩
      (cellSet e dst.addr (Expect.combined op m src.cell dst.cell (s.arena.read dst.addr)) s) := by
  rw [arith, if_neg (divisorCheck_passes hzero), if_pos (all_arithResults_iff.mpr hfits), fieldWrite_eq_cellSet hdst,
    Phase.andThen, withCellFields_arithResults]

theorem arith_of_not_fits (hzero : divides = true → ¬Expect.someDivisorZero m src.cell)
    (hfits : ¬Expect.everyResult P.Fits op m src.cell dst.cell) (e : Entry) (s : State) :
    arith P divides op m e src dst s = .raised .overflow s := by
  rw [arith, if_neg (divisorCheck_passes hzero), if_neg (mt all_arithResults_iff.mp hfits)]

end

/-- MOD's op is the remainder of the truncated division (00_scope.md R8). -/
theorem modEffect_eq (P : Params) (m : Modifier) : modEffect P m = arith P true Int.tmod m :=
  congrArg (arith P true · m) (funext₂ trem_eq_tmod)

/-! ## An instruction that runs `Arith(op)` -/

section
variable {s u : State} {e : Entry} {i : Instr} {src dst : Resolved} {divides : Bool} {op : Int → Int → Int}
  {m : Modifier}

/-- An execute phase that raises a fault and leaves the state: the fault is taken there (60_exceptions.md R243). -/
theorem exec_of_effect_raised {r : Raise} (he : Acting s e) (h : Resolves e i.cell.a i.cell.b s src dst u)
    (hx : effectOf .hardware i e src dst u = .raised r u) :
    ∃ t, exec i s = .next t ∧ Killed s e i.cell.head.opCode r.code u t := by
  obtain ⟨hu, -⟩ := (resolveOperands_accesses e i.cell.a i.cell.b s).done (src, dst) u h
  exact ⟨_, by rw [exec_of_resolves he h, hx]; rfl, killed_takeFault he hu i.cell.head.opCode r⟩

theorem exec_of_arith_zero (hi : effectOf .hardware i = arith .hardware true op m) (he : Acting s e)
    (h : Resolves e i.cell.a i.cell.b s src dst u) (hzero : Expect.someDivisorZero m src.cell) :
    ∃ t, exec i s = .next t ∧ Killed s e i.cell.head.opCode .arithDivZero u t :=
  exec_of_effect_raised he h (r := .divZero) (by rw [hi, arith_of_zero hzero])

theorem exec_of_arith_fits (hi : effectOf .hardware i = arith .hardware divides op m) (he : Acting s e)
    (h : Resolves e i.cell.a i.cell.b s src dst u) (hzero : divides = true → ¬Expect.someDivisorZero m src.cell)
    (hfits : Expect.everyResult Params.hardware.Fits op m src.cell dst.cell) :
    ∃ t, exec i s = .next t ∧
      Committed s e i.cell.head.opCode .ok (wrap .hardware e.pc 1) e.processAlive t ∧
      WroteCell e u dst.addr (Expect.combined op m src.cell dst.cell (u.arena.read dst.addr)) t := by
  obtain ⟨-, hdst, -⟩ := resolutionFrame s u e i.cell.a i.cell.b src dst h
  obtain ⟨t, hexec, hcommit, hwrote⟩ :=
    exec_of_effect_cellSet he h hdst (by rw [hi, arith_of_fits hdst hzero hfits])
  rw [Bool.not_false, Bool.and_true] at hcommit
  exact ⟨t, hexec, hcommit, hwrote⟩

theorem exec_of_arith_not_fits (hi : effectOf .hardware i = arith .hardware divides op m) (he : Acting s e)
    (h : Resolves e i.cell.a i.cell.b s src dst u) (hzero : divides = true → ¬Expect.someDivisorZero m src.cell)
    (hfits : ¬Expect.everyResult Params.hardware.Fits op m src.cell dst.cell) :
    ∃ t, exec i s = .next t ∧ Killed s e i.cell.head.opCode .arithOverflow u t :=
  exec_of_effect_raised he h (r := .overflow) (by rw [hi, arith_of_not_fits hzero hfits])

end

/-- Settles O17: three opcodes that run `Arith(op)` without the divisor check. -/
theorem addSubMulStoreOrOverflow : Obligations.AddSubMulStoreOrOverflow := by
  intro s u e m a b src dst he h
  have hadd : effectOf .hardware (.add m a b) = arith .hardware false (fun x y => x + y) m := rfl
  have hsub : effectOf .hardware (.sub m a b) = arith .hardware false (fun x y => x - y) m := rfl
  have hmul : effectOf .hardware (.mul m a b) = arith .hardware false (fun x y => x * y) m := rfl
  exact ⟨exec_of_arith_fits hadd he h nofun, exec_of_arith_not_fits hadd he h nofun,
    exec_of_arith_fits hsub he h nofun, exec_of_arith_not_fits hsub he h nofun,
    exec_of_arith_fits hmul he h nofun, exec_of_arith_not_fits hmul he h nofun⟩

/-- Settles O18: DIV and MOD run `Arith(op)` with the divisor check, and MOD never gets to an overflow. -/
theorem divModStoreOrFault : Obligations.DivModStoreOrFault := by
  intro s u e m a b src dst he h
  have hdiv : effectOf .hardware (.div m a b) = arith .hardware true Int.tdiv m := rfl
  have hmod : effectOf .hardware (.mod m a b) = arith .hardware true Int.tmod m := modEffect_eq .hardware m
  exact ⟨exec_of_arith_zero hdiv he h,
    fun hzero => exec_of_arith_fits hdiv he h fun _ => hzero,
    fun hzero => exec_of_arith_not_fits hdiv he h fun _ => hzero,
    exec_of_arith_zero hmod he h,
    fun hzero hsrc => exec_of_arith_fits hmod he h (fun _ => hzero) (everyResult_tmod_fits hsrc hzero dst.cell)⟩

end Sys2Proof.Machine

/-! JMP, JMZ, JMN and DJN (43_jumps.md). The four take one conditional transfer of control, so what its commit leaves is
said once, for every target; the tests and the decrement go over the tested fields of the modifier, and are first put in
the terms of the statements. -/

namespace Sys2Proof.Machine

/-! ## The tested fields -/

section
variable {m : Modifier} {c : Cell}

theorem everyTested_iff {p : Int → Prop} : Expect.everyTested p m c ↔ ∀ f ∈ tfields m, p (cellField c f) := by
  cases m <;> simp [Expect.everyTested, tfields, cellField]

theorem allZero_iff : allZero m c = true ↔ Expect.everyTested (fun v => v = 0) m c := by
  simp only [allZero, List.all_eq_true, beq_iff_eq, everyTested_iff]

theorem allNonzero_iff : allNonzero m c = true ↔ Expect.everyTested (fun v => v ≠ 0) m c := by
  simp only [allNonzero, List.all_eq_true, bne_iff_ne, everyTested_iff]

/-- A test of every value DJN writes is one of every tested field less one (43_jumps.md R193). -/
theorem all_decremented_iff {q : Int → Bool} :
    ((decremented m c).all fun w => q w.2) = true ↔ Expect.everyTested (fun v => q (v - 1) = true) m c := by
  simp only [decremented, List.all_map, List.all_eq_true, Function.comp_apply, everyTested_iff]

theorem decremented_fit_iff {P : Params} :
    ((decremented m c).all fun w => decide (P.Fits w.2)) = true ↔
      Expect.everyTested (fun v => P.Fits (v - 1)) m c := by
  simp only [all_decremented_iff (q := fun v => decide (P.Fits v)), decide_eq_true_eq]

theorem decremented_nonzero_iff :
    ((decremented m c).all fun w => w.2 != 0) = true ↔ Expect.everyTested (fun v => v - 1 ≠ 0) m c := by
  simp only [all_decremented_iff (q := fun v => v != 0), bne_iff_ne]

end

theorem withCellFields_decremented (m : Modifier) (S L : Cell) :
    withCellFields L (decremented m S) = Expect.decremented m S L := by
  cases m <;> rfl

/-! ## A conditional transfer of control (40_execution_cycle.md R131) -/

section
variable {s u t : State} {e : Entry} {i : Instr} {src dst : Resolved} {c : Bool} {taken : Prop} {a : Nat}

/-- What the commit of a conditional transfer leaves: the target where the condition holds, the next cell otherwise. -/
theorem committed_branch {op : BitVec 5} {next : Nat} (hc : c = true ↔ taken)
    (h : Committed s e op .ok ((if c then some a else none).getD next) (e.processAlive && !false) t) :
    (taken → Committed s e op .ok a e.processAlive t) ∧ (¬taken → Committed s e op .ok next e.processAlive t) := by
  rw [Bool.not_false, Bool.and_true] at h
  refine ⟨fun ht => ?_, fun ht => ?_⟩
  · rwa [if_pos (hc.mpr ht)] at h
  · rwa [if_neg (mt hc.mp ht)] at h

/-- An execute phase that only decides a conditional transfer. -/
theorem exec_of_effect_branch (he : Acting s e) (h : Resolves e i.cell.a i.cell.b s src dst u) (hc : c = true ↔ taken)
    (hx : effectOf .hardware i e src dst u = .done ⟨if c then some a else none, false, .ok⟩ u) :
    ∃ t, exec i s = .next t ∧ Expect.Goes s e i.cell.head.opCode taken a u t := by
  obtain ⟨t, hexec, hcommit, hcells⟩ := exec_of_effect_done he h (.refl .hardware e u) hx
  obtain ⟨htaken, hnot⟩ := committed_branch hc hcommit
  exact ⟨t, hexec, htaken, hnot, hcells⟩

end

/-- Settles O20: three conditional transfers to the Source address, JMP's on a condition that always holds. -/
theorem jumpsGoToTheSourceAddress : Obligations.JumpsGoToTheSourceAddress := by
  intro s u e m a b src dst he h
  exact ⟨exec_of_effect_branch (i := .jmp m a b) he h (iff_true_intro rfl) rfl,
    exec_of_effect_branch (i := .jmz m a b) he h allZero_iff rfl,
    exec_of_effect_branch (i := .jmn m a b) he h allNonzero_iff rfl⟩

/-! ## DJN -/

section
variable {P : Params} {m : Modifier} {src : Resolved}

theorem djnEffect_of_fits (hP : P.djnDecrement = true) (hsrc : src.addr < P.coresize)
    (hfits : Expect.everyTested (fun v => P.Fits (v - 1)) m src.cell) (e : Entry) (dst : Resolved) (s : State) :
    djnEffect P m e src dst s = .done (jumpIf ((decremented m src.cell).all fun w => w.2 != 0) src)
      (cellSet e src.addr (Expect.decremented m src.cell (s.arena.read src.addr)) s) := by
  rw [djnEffect, if_pos hP, if_pos (decremented_fit_iff.mpr hfits), fieldWrite_eq_cellSet hsrc, Phase.andThen,
    withCellFields_decremented]

theorem djnEffect_of_not_fits (hP : P.djnDecrement = true)
    (hfits : ¬Expect.everyTested (fun v => P.Fits (v - 1)) m src.cell) (e : Entry) (dst : Resolved) (s : State) :
    djnEffect P m e src dst s = .raised .overflow s := by
  rw [djnEffect, if_pos hP, if_neg (mt decremented_fit_iff.mp hfits)]

theorem djnEffect_of_no_decrement (hP : P.djnDecrement = false) (e : Entry) (dst : Resolved) (s : State) :
    djnEffect P m e src dst s = jmnEffect P m e src dst s := if_neg (by simp [hP])

end

/-- Settles O21: the Source address is in the arena, so where the values fit the one write of DJN is made, and the
transfer is on the values written. -/
theorem djnDecrementsAndJumps : Obligations.DjnDecrementsAndJumps := by
  intro s u e m a b src dst he h
  obtain ⟨hsrc, -⟩ := resolutionFrame s u e a b src dst h
  refine ⟨fun hfits => ?_, fun hfits => ?_⟩
  · obtain ⟨t, hexec, hcommit, hwrote⟩ :=
      exec_of_effect_cellSet (i := .djn m a b) he h hsrc (djnEffect_of_fits rfl hsrc hfits e dst u)
    obtain ⟨htaken, hnot⟩ := committed_branch decremented_nonzero_iff hcommit
    exact ⟨t, hexec, htaken, hnot, hwrote⟩
  · exact exec_of_effect_raised (i := .djn m a b) he h (djnEffect_of_not_fits rfl hfits e dst u)

/-- Settles O22: `DJN_DECREMENT` is the only thing that sets DJN apart from JMN. -/
theorem withoutDecrementDjnIsJmn : Obligations.WithoutDecrementDjnIsJmn :=
  fun _ _ _ _ e _ dst s hP => djnEffect_of_no_decrement hP e dst s

end Sys2Proof.Machine

/-! CMP, SEQ, SNE and SLT (44_skips.md). The four take one skip, each on a comparison of the two snapshots, which is first
put in the terms of the statements; CMP and SEQ have the same execute phase, so all that tells them apart is the opcode
the commit reports. -/

namespace Sys2Proof.Machine

/-! ## The comparisons -/

section
variable {m : Modifier} {S D : Cell}

/-- With I all six parts are compared: the opcode and the modifier are one part of the cell here (00_scope.md R9). -/
theorem isSame_i_iff : Expect.isSame .i S D ↔ S = D := by
  obtain ⟨head, ⟨am, af⟩, bm, bf⟩ := S
  obtain ⟨head', ⟨am', af'⟩, bm', bf'⟩ := D
  simp [Expect.isSame, and_assoc]

theorem isSame_iff_of_ne_i (h : m ≠ .i) :
    Expect.isSame m S D ↔ ∀ q ∈ pairs m, cellField S q.1 = cellField D q.2 := by
  cases m with
  | i => exact absurd rfl h
  | a | b | ab | ba | f | x => simp [Expect.isSame, pairs, cellField]

theorem same_iff : same m S D = true ↔ Expect.isSame m S D := by
  by_cases hi : m = .i
  · subst hi
    rw [same, if_pos rfl, decide_eq_true_eq, isSame_i_iff]
  · rw [same, if_neg hi, isSame_iff_of_ne_i hi]
    simp only [List.all_eq_true, beq_iff_eq]

theorem not_same_iff : (!same m S D) = true ↔ ¬Expect.isSame m S D := by
  rw [Bool.not_eq_true', ← Bool.not_eq_true, same_iff]

theorem isLess_iff : Expect.isLess m S D ↔ ∀ q ∈ pairs m, cellField S q.1 < cellField D q.2 := by
  cases m <;> simp [Expect.isLess, pairs, cellField]

theorem less_iff : less m S D = true ↔ Expect.isLess m S D := by
  simp only [less, List.all_eq_true, decide_eq_true_eq, isLess_iff]

end

/-! ## The skip on this hardware -/

/-- Settles O23: CMP and SEQ are conditional transfers to `wrap(pc, 2)`, on one condition. -/
theorem cmpAndSeqSkipWhereTheSame : Obligations.CmpAndSeqSkipWhereTheSame := by
  intro s u e m a b src dst he h
  exact ⟨exec_of_effect_branch (i := .cmp m a b) he h same_iff rfl,
    exec_of_effect_branch (i := .seq m a b) he h same_iff rfl⟩

/-- Settles O24: SNE and SLT are the same transfer, on the negation of CMP's condition and on `Less(mod)`. -/
theorem sneAndSltSkip : Obligations.SneAndSltSkip := by
  intro s u e m a b src dst he h
  exact ⟨exec_of_effect_branch (i := .sne m a b) he h not_same_iff rfl,
    exec_of_effect_branch (i := .slt m a b) he h less_iff rfl⟩

/-! ## The skip for every value of SKIP_TARGET (44_skips.md R210) -/

theorem skipAddress_of_pcPlus2 {P : Params} (hP : P.skipTarget = .pcPlus2) (e : Entry) (src : Resolved) :
    skipAddress P e src = wrap P e.pc 2 := by
  rw [skipAddress, hP]

theorem skipAddress_of_srcPlus1 {P : Params} (hP : P.skipTarget = .srcPlus1) (e : Entry) (src : Resolved) :
    skipAddress P e src = wrap P src.addr 1 := by
  rw [skipAddress, hP]

/-- An execute phase that is a skip on the test `c`, which decides `cond`. -/
theorem done_skipIf_targets {P : Params} {c : Bool} {cond : Prop} (hc : c = true ↔ cond) (e : Entry) (src : Resolved)
    (s : State) :
    (cond → P.skipTarget = .pcPlus2 → Phase.done (skipIf P e c src) s = .done ⟨some (wrap P e.pc 2), false, .ok⟩ s) ∧
    (cond → P.skipTarget = .srcPlus1 →
      Phase.done (skipIf P e c src) s = .done ⟨some (wrap P src.addr 1), false, .ok⟩ s) ∧
    (¬cond → Phase.done (skipIf P e c src) s = .done ⟨none, false, .ok⟩ s) := by
  refine ⟨fun h hP => ?_, fun h hP => ?_, fun h => ?_⟩
  · rw [skipIf, if_pos (hc.mpr h), skipAddress_of_pcPlus2 hP]
  · rw [skipIf, if_pos (hc.mpr h), skipAddress_of_srcPlus1 hP]
  · rw [skipIf, if_neg (mt hc.mp h)]

/-- Settles O26: each of the four is a skip on its condition, and the parameter decides only where a taken one goes. -/
theorem skipTargetFollowsTheParameter : Obligations.SkipTargetFollowsTheParameter := by
  intro P m a b e src dst s i cond hi
  simp only [List.mem_cons, Prod.mk.injEq, List.not_mem_nil, or_false] at hi
  obtain ⟨rfl, rfl⟩ | ⟨rfl, rfl⟩ | ⟨rfl, rfl⟩ | ⟨rfl, rfl⟩ := hi
  · exact done_skipIf_targets same_iff e src s
  · exact done_skipIf_targets same_iff e src s
  · exact done_skipIf_targets not_same_iff e src s
  · exact done_skipIf_targets less_iff e src s

/-! ## CMP and SEQ (44_skips.md R213) -/

/-- The opcode code of an instruction gets nowhere but into STATUS (40_execution_cycle.md R133). -/
theorem commit_op (P : Params) (e : Entry) (op op' : BitVec 5) (r : Result) (s : State) :
    commit P e op' r s = { commit P e op r s with status := { (commit P e op r s).status with op := op' } } := by
  unfold commit
  split <;> rfl

theorem endStep_op {P : Params} {e : Entry} {p : Phase Result} (hp : ∀ u, p ≠ .fatal u) (op op' : BitVec 5) :
    endStep P e op' p = { endStep P e op p with status := { (endStep P e op p).status with op := op' } } := by
  cases p with
  | done r u => exact commit_op P e op op' r u
  | raised r u => exact commit_op P e op op' r.result u
  | fatal u => exact absurd rfl (hp u)

/-- Only the acting entry's instruction answers a next state. -/
theorem exists_acting_of_exec {i : Instr} {s t : State} (h : exec i s = .next t) : ∃ e, Acting s e := by
  rw [exec_eq_execWith, execWith, runInstr] at h
  split at h
  · cases h
  · exact ⟨_, ‹_›⟩

/-- Phases that latch FATAL report it, and there is no commit to write STATUS again (60_exceptions.md R247). -/
theorem code_of_phases_fatal {e : Entry} {i : Instr} {s u : State}
    (h : phases .hardware e i.cell.a i.cell.b (effectOf .hardware i) s = .fatal u) : u.status.code = .fatalIndex := by
  have hspec := phases_spec hardware_coresize_pos e i.cell.a i.cell.b (effectOf_spec hardware_coresize_pos i)
    (V := False) (s := s) False.elim
  obtain ⟨-, v, -, rfl⟩ := hspec.fatal u h
  rfl

/-- Two instructions with the same operands and the same execute phase do the same, but for the opcode in STATUS. -/
theorem exec_of_same_effect {i j : Instr} {s t : State} (ha : j.cell.a = i.cell.a) (hb : j.cell.b = i.cell.b)
    (hx : effectOf .hardware j = effectOf .hardware i) (h : exec i s = .next t) (hcode : t.status.code ≠ .fatalIndex) :
    exec j s = .next { t with status := { t.status with op := j.cell.head.opCode } } := by
  obtain ⟨e, he⟩ := exists_acting_of_exec h
  rw [exec_eq he] at h
  cases h
  have hp (u : State) : phases .hardware e i.cell.a i.cell.b (effectOf .hardware i) s ≠ .fatal u := by
    intro hfatal
    rw [hfatal] at hcode
    exact hcode (code_of_phases_fatal hfatal)
  rw [exec_eq he, ha, hb, hx, endStep_op hp i.cell.head.opCode]

/-- Settles O25: the execute phase of SEQ is that of CMP. -/
theorem cmpAndSeqDifferOnlyInStatusOp : Obligations.CmpAndSeqDifferOnlyInStatusOp :=
  fun _ _ m a b => exec_of_same_effect (i := .cmp m a b) (j := .seq m a b) rfl rfl rfl

end Sys2Proof.Machine

/-! NOP, the unsupported opcodes and ILLEGAL words (45_nop_unsupported.md), and how far a Step reaches. NOP's execute
phase completes where it starts; the others all raise the one fault there, so an ILLEGAL word differs from an unsupported
opcode only in how a Step gets to it. A Step ends in a commit, which keeps what the `Committed` of its acting entry says,
or in a write of FATAL, STATUS and TOUCHED alone. -/

namespace Sys2Proof.Machine

/-! ## Instructions -/

/-- Settles O27: the execute phase of NOP accesses nothing and takes no target, so the commit alone is left. -/
theorem nopOnlyAdvances : Obligations.NopOnlyAdvances := by
  intro s u e m a b src dst he h
  obtain ⟨t, hexec, hcommit, hcells⟩ := exec_of_effect_done (i := .nop m a b) he h (.refl .hardware e u) rfl
  rw [Bool.not_false, Bool.and_true] at hcommit
  exact ⟨t, hexec, hcommit, hcells⟩

/-- An instruction whose operands resolve and whose execute phase is `raise UnsupportedOpcodeError`: the fault is taken
in the state the operands left (60_exceptions.md R242, R243). -/
theorem runInstr_raiseUnsupported_killed {s u : State} {e : Entry} {a b : Operand} {src dst : Resolved}
    (he : Acting s e) (h : Resolves e a b s src dst u) (op : BitVec 5) :
    ∃ t, runInstr .hardware op a b raiseUnsupported s = .next t ∧ Killed s e op .unsupportedOpcode u t := by
  obtain ⟨hu, -⟩ := (resolveOperands_accesses e a b s).done (src, dst) u h
  refine ⟨_, ?_, killed_takeFault he hu op .unsupported⟩
  rw [runInstr_eq he, phases_of_done h]
  rfl

/-- Settles O28: the four opcodes have that execute phase, each with its own code. -/
theorem unsupportedOpcodesFault : Obligations.UnsupportedOpcodesFault := by
  intro s u e m a b src dst he h
  have faults (op : Opcode) := runInstr_raiseUnsupported_killed he h op.code
  exact ⟨faults .spl, faults .ldp, faults .stp, faults .djz⟩

/-! ## ILLEGAL words (45_nop_unsupported.md R235) -/

/-- The cell of a word the decoder refuses keeps the word's bits 4:0 as its opcode code (30_encoding.md R86). -/
theorem head_of_decode_error {W : Nat} {w : CellWord W} {err : DecodeError} (h : decode W w = .error err) :
    ∃ (m : BitVec 3) (rsv : BitVec 2), (decodeCell W w).head = .illegal (CellWord.op W w) m rsv := by
  cases hhead : (decodeCell W w).head with
  | legal o m => rw [decode_of_legal hhead] at h; cases h
  | illegal op m rsv =>
    obtain ⟨hop, -⟩ := decodeHead_codes (CellWord.op W w) (CellWord.modifier W w) (CellWord.rsv W w)
    have hcode : (decodeCell W w).head.opCode = CellWord.op W w := hop
    rw [hhead] at hcode
    exact ⟨m, rsv, by rw [← hcode, Head.opCode]⟩

/-- A commit is judged by the queue, the cursor, the tables and the registers it started from, so accesses before it
make no difference. -/
theorem committed_of_onlyCells {s v t : State} {e : Entry} {op : BitVec 5} {code : StatusCode} {pc : Nat} {alive : Bool}
    (h : Committed v e op code pc alive t) (hv : OnlyCells s v) : Committed s e op code pc alive t where
  queueLength := hv.queue ▸ h.queueLength
  acting := hv.cur ▸ h.acting
  others := hv.queue ▸ hv.cur ▸ h.others
  programs := h.programs
  cursor := hv.queue ▸ hv.cur ▸ h.cursor
  status := h.status
  cycles := hv.cycles ▸ h.cycles
  fatal := hv.fatal ▸ h.fatal
  warriors := hv.warriors ▸ h.warriors
  running := hv.running ▸ h.running
  remaining := hv.remaining ▸ h.remaining
  occ := hv.occ ▸ h.occ

theorem fetched_onlyCells (e : Entry) (s : State) : OnlyCells s (fetched e s) :=
  ⟨rfl, rfl, rfl, rfl, rfl, rfl, rfl, rfl, rfl⟩

/-- Settles O29: the cell fetched is ILLEGAL, and its fault is taken in the state the fetch left. -/
theorem illegalWordFaults : Obligations.IllegalWordFaults := by
  rintro s u e w src dst hf he hpc hcell ⟨err, herr⟩ h
  obtain ⟨m, rsv, hhead⟩ := head_of_decode_error herr
  have he' : Acting (fetched e s) e := he
  obtain ⟨t, hexec, hcommit, hcells⟩ := runInstr_raiseUnsupported_killed he' h (CellWord.op 32 w)
  refine ⟨t, ?_, committed_of_onlyCells hcommit (fetched_onlyCells e s), hcells⟩
  rw [step_eq_execCell hf he hpc, hcell, execCell, hhead]
  exact hexec

/-! ## Confinement (45_nop_unsupported.md R236) -/

/-- What a Step does to the entry `x` at one index of the queue, which is `y` afterwards (40_execution_cycle.md R132). -/
structure EntryConfined (acting : Prop) (x y : Entry) : Prop where
  wid : y.wid = x.wid
  pid : y.pid = x.pid
  noRevival : y.processAlive = true → x.processAlive = true
  others : ¬acting → y.pc = x.pc ∧ y.processAlive = x.processAlive

/-- What a Step leaves as it was, the acting entry being the one the cursor names (10_state.md R24-R29). -/
structure Confined (s t : State) : Prop where
  warriors : t.warriors = s.warriors
  occ : t.occ = s.occ
  running : t.running = s.running
  remaining : t.remaining = s.remaining
  queueLength : t.queue.length = s.queue.length
  entries : ∀ (k : Nat) (x : Entry), s.queue[k]? = some x → ∃ y, t.queue[k]? = some y ∧ EntryConfined (k = s.cur) x y

theorem EntryConfined.refl (acting : Prop) (x : Entry) : EntryConfined acting x x := ⟨rfl, rfl, id, fun _ => ⟨rfl, rfl⟩⟩

/-- A Step that ends without a commit writes FATAL, STATUS and TOUCHED at most (40_execution_cycle.md R111, R112,
60_exceptions.md R247). -/
theorem confined_of_no_commit (s : State) (st : Status) (fatal : Bool) (touched : List Nat) :
    Confined s { s with status := st, fatal := fatal, touched := touched } where
  warriors := rfl
  occ := rfl
  running := rfl
  remaining := rfl
  queueLength := rfl
  entries k x hx := ⟨x, hx, .refl (k = s.cur) x⟩

/-- A commit that leaves the acting process alive only where it was alive before. -/
theorem confined_of_committed {s t : State} {e : Entry} {op : BitVec 5} {code : StatusCode} {pc : Nat} {alive : Bool}
    (h : Committed s e op code pc alive t) (he : Acting s e) (halive : alive = true → e.processAlive = true) :
    Confined s t where
  warriors := h.warriors
  occ := h.occ
  running := h.running
  remaining := h.remaining
  queueLength := h.queueLength
  entries k x hx := by
    by_cases hk : k = s.cur
    · subst hk
      obtain rfl : e = x := Option.some.inj (he.symm.trans hx)
      obtain ⟨y, hy, hwid, hpid, -, hy_alive⟩ := h.acting
      exact ⟨y, hy, hwid, hpid, fun hya => halive (hy_alive ▸ hya), fun hne => absurd rfl hne⟩
    · obtain ⟨y, hy, hwid, hpid, hpc, hy_alive, -⟩ := h.others k x hk hx
      exact ⟨y, hy, hwid, hpid, fun hya => hy_alive ▸ hya, fun _ => ⟨hpc, hy_alive⟩⟩

/-- Step where the cursor names no entry of a non-empty queue (log entry 4). -/
theorem step_of_no_entry {s : State} (hf : s.fatal = false) (hq : s.queue ≠ []) (he : s.queue[s.cur]? = none) :
    step s = .fault .noActingEntry := by simp [step, stepBy, hf, hq, he]

/-- The guards and the pc outside the arena end a Step with no commit; every other Step is one commit after accesses. -/
theorem step_confined {s t : State} (h : step s = .next t) : Confined s t := by
  by_cases hf : s.fatal = true
  · rw [step_of_fatal hf] at h
    cases h
    exact confined_of_no_commit s _ s.fatal s.touched
  rw [Bool.not_eq_true] at hf
  by_cases hq : s.queue = []
  · rw [step_of_empty hf hq] at h
    cases h
    exact confined_of_no_commit s _ s.fatal s.touched
  cases he : s.queue[s.cur]? with
  | none => rw [step_of_no_entry hf hq he] at h; cases h
  | some e =>
    by_cases hpc : e.pc < 8000
    · obtain ⟨op, r, u, hu, -, -, -, rfl⟩ := step_cases hf he hpc h
      have hcommit := commit_committed (s := { s with touched := [] }) he hu op r
      have hcells : OnlyCells s { s with touched := [] } := ⟨rfl, rfl, rfl, rfl, rfl, rfl, rfl, rfl, rfl⟩
      exact confined_of_committed (committed_of_onlyCells hcommit hcells) he fun halive =>
        (Bool.and_eq_true_iff.mp halive).1
    · rw [step_of_pc_outside hf he hpc] at h
      cases h
      exact confined_of_no_commit s _ true []

/-- Settles O37: the clauses of `Confined`, entry by entry. -/
theorem stepIsConfinedToItsProcess : Obligations.StepIsConfinedToItsProcess := by
  intro s t h
  obtain ⟨hwarriors, hocc, hrunning, hremaining, hlength, hentries⟩ := step_confined h
  refine ⟨hwarriors, hocc, hrunning, hremaining, hlength, fun k x hx => ?_⟩
  obtain ⟨y, hy, hwid, hpid, hnoRevival, hothers⟩ := hentries k x hx
  exact ⟨y, hy, hwid, hpid, hnoRevival, hothers⟩

end Sys2Proof.Machine

/-! Faults, the scheduler and run control (60_exceptions.md R240-R267). A Step for an acting entry always answers a next
state; where it fetches, that state is one commit after accesses that begin with the fetch. The rules of the scheduler,
of FATAL, of TOUCHED and of the budget follow from that. -/

namespace Sys2Proof.Machine

/-! ## No instruction stops (60_exceptions.md R240, R243) -/

theorem exec_answers_next {s : State} {e : Entry} (he : Acting s e) (i : Instr) : ∃ t, exec i s = .next t :=
  ⟨_, exec_eq he i⟩

theorem execCell_answers_next {s : State} {e : Entry} (he : Acting s e) (c : Cell) :
    ∃ t, execCell .hardware exec c s = .next t := by
  unfold execCell
  split
  · exact exec_answers_next he _
  · exact ⟨_, runInstr_eq he ..⟩

/-- A Step of an acting entry ends in a next state, its pc in the arena or not. -/
theorem step_answers_next {s : State} {e : Entry} (hf : s.fatal = false) (he : Acting s e) : ∃ t, step s = .next t := by
  by_cases hpc : e.pc < 8000
  · rw [step_eq_execCell hf he hpc]
    have he' : Acting (fetched e s) e := he
    exact execCell_answers_next he' _
  · exact ⟨_, step_of_pc_outside hf he hpc⟩

/-- Settles O34: a Step that passes both guards has an acting entry or a cursor that names none. -/
theorem noInstructionStops : Obligations.NoInstructionStops := by
  refine ⟨fun i s e he => exec_answers_next he i, fun s => ?_⟩
  by_cases hf : s.fatal = true
  · exact .inl ⟨_, step_of_fatal hf⟩
  rw [Bool.not_eq_true] at hf
  by_cases hq : s.queue = []
  · exact .inl ⟨_, step_of_empty hf hq⟩
  cases he : s.queue[s.cur]? with
  | some e => exact .inl (step_answers_next hf he)
  | none => exact .inr ⟨step_of_no_entry hf hq he, hf, hq, List.getElem?_eq_none_iff.mp he⟩

/-! ## The scheduler (60_exceptions.md R251, R252) -/

/-- A Step that fetches is committed (40_execution_cycle.md R131-R134). -/
theorem step_committed {s t : State} {e : Entry} (hf : s.fatal = false) (he : Acting s e) (hpc : e.pc < 8000)
    (h : step s = .next t) : ∃ op code pc alive, Committed s e op code pc alive t := by
  obtain ⟨op, r, u, hu, -, -, -, rfl⟩ := step_cases hf he hpc h
  have hcommit := commit_committed (s := { s with touched := [] }) he hu op r
  exact ⟨_, _, _, _, committed_of_onlyCells hcommit ⟨rfl, rfl, rfl, rfl, rfl, rfl, rfl, rfl, rfl⟩⟩

/-- The cursor of a well-formed state with entries names one (10_state.md R24). -/
theorem cur_lt_of_inv {P : Params} {s : State} (h : Inv P s) (hq : s.queue ≠ []) : s.cur < s.queue.length :=
  h.cursor.resolve_right fun hempty => hq hempty.1

/-- One Step from a well-formed state with entries: the cursor goes to the next entry, and CYCLES counts
(40_execution_cycle.md R133, 60_exceptions.md R251). -/
theorem step_advances {s : State} (h : Inv .hardware s) (hq : s.queue ≠ []) :
    ∃ t, step s = .next t ∧ t.cur = (s.cur + 1) % s.queue.length ∧ t.queue.length = s.queue.length ∧
      t.cycles = (s.cycles + 1) % 2 ^ 64 := by
  have hcur := cur_lt_of_inv h hq
  have he : Acting s s.queue[s.cur] := List.getElem?_eq_getElem hcur
  obtain ⟨t, hstep⟩ := step_answers_next h.noFatal he
  obtain ⟨_, _, _, _, hcommit⟩ := step_committed h.noFatal he (h.pcInArena _ (List.getElem_mem hcur)) hstep
  exact ⟨t, hstep, hcommit.cursor, hcommit.queueLength, hcommit.cycles⟩

/-- A run whose first step completes goes on from there. -/
theorem run_succ_of_step {M : Host.Core} {s t : M.State} (h : M.step s = .next t) (k : Nat) :
    M.run (k + 1) s = M.run k t := by rw [Host.Core.run, h]

/-- Settles O46: by induction on the number of Steps, the first of which keeps the invariant (O44) and the length. -/
theorem roundRobin : Obligations.RoundRobin := by
  intro k
  induction k with
  | zero =>
    intro s h hq
    exact ⟨s, rfl, (Nat.mod_eq_of_lt (cur_lt_of_inv h hq)).symm, rfl, (Nat.mod_eq_of_lt h.cyclesWidth).symm⟩
  | succ k ih =>
    intro s h hq
    obtain ⟨t, hstep, hcur, hlength, hcycles⟩ := step_advances h hq
    have hqt : t.queue ≠ [] := by rwa [← List.length_pos_iff, hlength, List.length_pos_iff]
    obtain ⟨u, hrun, hcur', hlength', hcycles'⟩ := ih t (stepKeepsTheInvariant s t h hstep) hqt
    rw [hlength] at hcur' hlength'
    refine ⟨u, (run_succ_of_step (M := Sys2Proof.core) hstep k).trans hrun, ?_, hlength', ?_⟩
    · rw [hcur', hcur, Nat.mod_add_mod, Nat.add_assoc, Nat.add_comm 1 k]
    · rw [hcycles', hcycles, Nat.mod_add_mod, Nat.add_assoc, Nat.add_comm 1 k]

/-! ## The activity signal of a Step (60_exceptions.md R262) -/

/-- The execution of a cell for an acting entry in the arena: one commit after accesses. -/
theorem execCell_cases {s t : State} {e : Entry} (he : Acting s e) (hpc : e.pc < 8000) {c : Cell}
    (h : execCell .hardware exec c s = .next t) : ∃ op r u, Accessed .hardware e s u ∧ t = commit .hardware e op r u := by
  unfold execCell at h
  split at h
  · obtain ⟨r, u, hu, -, -, ht⟩ := (exec_cases he h).resolve_right fun hfatal => hfatal.1 hpc
    exact ⟨_, r, u, hu, ht⟩
  · obtain ⟨r, u, hu, -, -, ht⟩ :=
      (runInstr_cases he (raiseUnsupported_spec _) h).resolve_right fun hfatal => hfatal.1 hpc
    exact ⟨_, r, u, hu, ht⟩

/-- `step_cases` from the fetch on: the pc is already in TOUCHED when the other accesses begin. -/
theorem step_accesses_after_fetch {s t : State} {e : Entry} (hf : s.fatal = false) (he : Acting s e) (hpc : e.pc < 8000)
    (h : step s = .next t) : ∃ op r u, Accessed .hardware e (fetched e s) u ∧ t = commit .hardware e op r u := by
  rw [step_eq_execCell hf he hpc] at h
  have he' : Acting (fetched e s) e := he
  exact execCell_cases he' hpc h

/-- Settles O36: the fetch touches the pc first, and with TOUCHED empty before it every access of the Step is recorded. -/
theorem stepTouchesAreRecorded : Obligations.StepTouchesAreRecorded := by
  intro s t e hf he hpc h
  obtain ⟨op, r, u, hafter, rfl⟩ := step_accesses_after_fetch hf he hpc h
  have hall : Accessed .hardware e { s with touched := [] } u :=
    (accessed_touch (P := .hardware) e hpc { s with touched := [] }).trans hafter
  simp only [commit_touched, commit_arena, commit_act]
  refine ⟨?_, hall.nodup List.nodup_nil, ?_, hall.owned (List.forall_mem_nil _), fun x hx => ⟨hall.arena x hx, ?_⟩⟩
  · obtain ⟨l, hl, -⟩ := hafter.touched
    rw [hl]
    rfl
  · obtain ⟨l, hl, hlt⟩ := hall.touched
    rw [hl]
    exact hlt
  · exact (hall.act x).resolve_right fun htouched => hx htouched.1

/-! ## FATAL (60_exceptions.md R247) -/

theorem runStep_of_fatal {s : State} (hf : s.fatal = true) :
    runStep s = .next { s with status := { s.status with code := .fatalIndex } } := by simp [runStep, runStepBy, hf]

/-- Settles O32: the three accesses, the fetch, and the guards of Step and RunStep. -/
theorem indexErrorLatchesFatal : Obligations.IndexErrorLatchesFatal :=
  ⟨fun _ e _ c ws s ha => ⟨memRead_of_not_lt e ha s, memWrite_of_not_lt e ha c s,
      memWrite_of_not_lt e ha (withCellFields (s.arena.read _) ws) s⟩,
    fun _ _ => step_of_pc_outside, fun _ hf => ⟨step_of_fatal hf, runStep_of_fatal hf⟩⟩

theorem loadWarriors_fatal {P : Params} (hS : 0 < P.coresize) (draw : Nat → Nat → Nat)
    (specs : List (WarriorSpec P.fieldBits)) (s : State) : (loadWarriors P draw specs s).1.fatal = s.fatal := by
  rcases loadWarriors_cases hS draw specs s with ⟨hsame, -⟩ | ⟨-, -, cs, occ', -, hloaded⟩
  · rw [hsame]
  · obtain ⟨-, -, -, -, -, hfatal⟩ := commitAll_registers specs cs s
    rw [hloaded]
    exact hfatal

/-- Step and RunStep meet their FATAL guard, and the other operations do not write FATAL. -/
theorem fatal_of_hardwareCall {draw : Nat → Nat → Nat} {c : HostCall .hardware} {s t : State} (hc : c ≠ .reset)
    (hf : s.fatal = true) (h : (hardwareCall draw c s).1 = .next t) : t.fatal = true := by
  cases c with
  | step => cases (step_of_fatal hf).symm.trans h; exact hf
  | runStep => cases (runStep_of_fatal hf).symm.trans h; exact hf
  | loadWarriors specs => cases h; exact (loadWarriors_fatal hardware_coresize_pos draw specs s).trans hf
  | reset => exact absurd rfl hc
  | setRunning | setCycleBudget | readCell | formatCell | readState | popTouched | readActivity => cases h; exact hf

/-- Settles O33: Reset clears FATAL, and no other operation does. -/
theorem onlyResetClearsFatal : Obligations.OnlyResetClearsFatal := by
  intro draw c s t hf h
  constructor
  · intro hclear
    by_contra hc
    exact Bool.false_ne_true (hclear.symm.trans (fatal_of_hardwareCall hc hf h))
  · rintro rfl
    cases h
    rfl

/-! ## DEAD_DISPATCH (60_exceptions.md R254, R256) -/

/-- Settles O42: the third guard of Step, before the fetch. -/
theorem idleDispatchOfADeadEntry : Obligations.IdleDispatchOfADeadEntry := by
  intro P s e hP hf he hdead
  have hacting : s.queue[s.cur]? = some e := he
  have hq : s.queue ≠ [] := List.ne_nil_of_mem (List.mem_of_getElem? hacting)
  have hidle : stepWith P s = .next (idleDispatch P e s) := by simp [stepWith, stepBy, hf, hq, hacting, hdead, hP]
  exact hidle

/-- The queue after the acting entry is written, before any removal: another entry keeps its place, its warrior and its
pc. -/
theorem refreshed_entry_of_ne {q : List Entry} {i k : Nat} {x : Entry} (hk : k ≠ i) (hx : q[k]? = some x) (wid : Nat)
    (e : Entry) : ∃ y, (refreshProgramAlive wid (q.set i e))[k]? = some y ∧ y.wid = x.wid ∧ y.pc = x.pc := by
  rw [refreshProgramAlive_getElem, List.getElem?_set_ne hk.symm, hx]
  refine ⟨_, rfl, ?_⟩
  dsimp only
  split <;> exact ⟨rfl, rfl⟩

theorem last_of_eraseIdx_eq_nil {q : List Entry} {i : Nat} (hi : i < q.length) (h : q.eraseIdx i = []) :
    i + 1 = q.length := by
  have hlength := List.length_eraseIdx_add_one hi
  rw [h, List.length_nil] at hlength
  omega

section
variable {P : Params} {s : State} {e : Entry} {op : BitVec 5} {r : Result} (hP : P.deadDispatch = .prune)
  (hdead : (e.after P r).processAlive = false)
include hP hdead

theorem commit_queue_of_prune : (commit P e op r s).queue =
    (refreshProgramAlive e.wid (s.queue.set s.cur (e.after P r))).eraseIdx s.cur := by
  rw [commit, if_pos ⟨hP, hdead⟩]
  rfl

/-- The queue is empty after the removal only where the entry was the last, so the second case of `Remove` is in the
first. -/
theorem commit_cur_of_prune (hcur : s.cur < s.queue.length) :
    (commit P e op r s).cur = if s.cur + 1 = s.queue.length then 0 else s.cur := by
  have hlength : (refreshProgramAlive e.wid (s.queue.set s.cur (e.after P r))).length = s.queue.length := by simp
  rw [commit, if_pos ⟨hP, hdead⟩, removeActing_cur, countCycle_queue, countCycle_cur, ← hlength]
  exact if_congr (or_iff_left_of_imp (last_of_eraseIdx_eq_nil (hlength ▸ hcur))) rfl rfl

end

/-- Settles O43: the entry is written, then erased, and erasing shifts only the entries after it. -/
theorem pruneRemovesTheKilledEntry : Obligations.PruneRemovesTheKilledEntry := by
  intro P s e op r hP he hkilled
  have hcur : s.cur < s.queue.length := (List.getElem?_eq_some_iff.mp he).1
  have hdead : (e.after P r).processAlive = false := by
    rw [entry_after_alive]
    rcases hkilled with halive | hkill
    · rw [halive, Bool.false_and]
    · rw [hkill, Bool.not_true, Bool.and_false]
  have hqueue := commit_queue_of_prune (s := s) (op := op) hP hdead
  refine ⟨?_, fun k x hk hx => ?_, fun k x hk hx => ?_, commit_cur_of_prune hP hdead hcur, commit_arena ..,
    commit_warriors ..⟩
  · rw [hqueue, List.length_eraseIdx_add_one (by simpa using hcur), refreshProgramAlive_length, List.length_set]
  · rw [hqueue, List.getElem?_eraseIdx_of_lt hk]
    exact refreshed_entry_of_ne hk.ne hx ..
  · rw [hqueue, List.getElem?_eraseIdx_of_ge (Nat.le_sub_one_of_lt hk), Nat.sub_add_cancel (Nat.one_le_of_lt hk)]
    exact refreshed_entry_of_ne hk.ne' hx ..

/-! ## Run control (60_exceptions.md R257, R258, R264) -/

/-- Settles O48: each setter is the update of its one register. -/
theorem settersWriteOneRegister : Obligations.SettersWriteOneRegister := fun _ _ _ => ⟨rfl, rfl, rfl⟩

theorem spendBudget_of_unbounded {s : State} (h : s.remaining = .unbounded) : spendBudget s = s := by
  simp only [spendBudget, h]

theorem spendBudget_of_count {s : State} {n : Nat} (h : s.remaining = .count (n + 1)) :
    spendBudget s = { s with remaining := .count n, running := if n = 0 then false else s.running } := by
  simp only [spendBudget, h, Nat.add_sub_cancel]

section
variable {s : State} (hf : s.fatal = false)
include hf

theorem runStep_of_not_running (hr : s.running = false) :
    runStep s = .next { s with status := { s.status with code := .notRun } } := by simp [runStep, runStepBy, hf, hr]

theorem runStep_of_no_budget (hr : s.running = true) (hb : s.remaining = .count 0) :
    runStep s = .next { s with running := false, status := { s.status with code := .notRun } } := by
  simp [runStep, runStepBy, hf, hr, hb]

theorem runStep_of_step {t : State} (hr : s.running = true) (hb : s.remaining ≠ .count 0) (h : step s = .next t) :
    runStep s = .next (spendBudget t) := by simp [runStep, runStepBy, hf, hr, hb, h]

end

/-- Settles O49: a Step leaves RUNNING and REMAINING (O37), so the budget is spent as it stood before the Step. -/
theorem runStepIsGated : Obligations.RunStepIsGated := by
  intro s hf
  refine ⟨runStep_of_not_running hf, runStep_of_no_budget hf, fun t hr hb h => ?_, fun t n hr hb h => ?_⟩
  · have hremaining : t.remaining = .unbounded := (step_confined h).remaining.trans hb
    rw [runStep_of_step hf hr (by simp [hb]) h, spendBudget_of_unbounded hremaining]
    exact ⟨hremaining, rfl⟩
  · have hremaining : t.remaining = .count (n + 1) := (step_confined h).remaining.trans hb
    have hrunning : t.running = true := (step_confined h).running.trans hr
    rw [runStep_of_step hf hr (by simp [hb]) h, spendBudget_of_count hremaining, hrunning]

/-- Settles O52: the head and the tail of TOUCHED. -/
theorem popTouchedTakesTheFirst : Obligations.PopTouchedTakesTheFirst := by
  intro s a rest
  constructor <;> intro h
  · have hsame : { s with touched := [] } = s := h ▸ rfl
    rw [popTouched, h, List.tail_nil, hsame, List.head?_nil]
  · rw [popTouched, h, List.tail_cons, List.head?_cons]

end Sys2Proof.Machine

/-! Reset and the checks of the loader (70_reset_and_hazards.md R280-R286, R291). -/

namespace Sys2Proof.Machine

/-- Settles O47: every array after Reset lists nothing, and every register but REMAINING is that of power-on. -/
theorem resetEmptiesTheCore : Obligations.ResetEmptiesTheCore := by
  intro s a
  have hword : encode 32 (.dat .f ⟨.direct, 0⟩ ⟨.direct, 0⟩) = 0x0980 := by decide
  exact ⟨rfl, hword, rfl, rfl, rfl, rfl, rfl, rfl, rfl, rfl, rfl, rfl, rfl⟩

theorem loadWarriors_nil (P : Params) (draw : Nat → Nat → Nat) (s : State) : loadWarriors P draw [] s = (s, none) := rfl

/-- A check that fails is the answer of LoadWarriors, and nothing is placed (70_reset_and_hazards.md R286). -/
theorem loadWarriors_of_check_error {P : Params} {specs : List (WarriorSpec P.fieldBits)} {s : State}
    {err : PlacementError} (hne : specs ≠ []) (hcheck : loadCheck P specs s = some err) (draw : Nat → Nat → Nat) :
    loadWarriors P draw specs s = (s, some err) := by
  simp only [loadWarriors, if_neg hne, hcheck]

/-- Settles O53: the one way LoadWarriors writes the state answers Ok. -/
theorem loadErrorChangesNothing : Obligations.LoadErrorChangesNothing := by
  refine fun draw specs s => ⟨loadWarriors_nil .hardware draw s, fun herror => ?_⟩
  rcases loadWarriors_cases hardware_coresize_pos draw specs s with ⟨hsame, -⟩ | ⟨-, hok, -⟩
  · exact hsame
  · exact absurd hok herror

/-! ## The checks before placement, one equation for each outcome (70_reset_and_hazards.md R286) -/

section
variable {P : Params} {specs : List (WarriorSpec P.fieldBits)} {s : State}

theorem any_code_isEmpty : (specs.any fun w => w.code.isEmpty) = true ↔ ∃ w ∈ specs, w.code = [] := by simp

theorem decodeCell_instr_eq_none {W : Nat} {x : CellWord W} :
    (decodeCell W x).instr = none ↔ ∃ err, decode W x = .error err := by
  rw [← not_iff_not, ← ne_eq, decodeCell_instr_ne_none]
  cases decode W x <;> simp

theorem any_word_illegal : (specs.any fun w => w.code.any fun x => (decodeCell _ x).instr.isNone) = true ↔
    ∃ w ∈ specs, ∃ x ∈ w.code, ∃ err, decode P.fieldBits x = .error err := by
  simp only [List.any_eq_true, Option.isNone_iff_eq_none, decodeCell_instr_eq_none]

theorem loadCheck_of_tooMany (h : P.queueCap < s.queue.length + specs.length) :
    loadCheck P specs s = some .tooMany := if_pos h

variable (hroom : ¬P.queueCap < s.queue.length + specs.length)
include hroom

theorem loadCheck_of_empty (h : ∃ w ∈ specs, w.code = []) : loadCheck P specs s = some .emptyWarrior := by
  rw [loadCheck, if_neg hroom, if_pos (any_code_isEmpty.mpr h)]

variable (hcode : ¬∃ w ∈ specs, w.code = [])
include hcode

theorem loadCheck_of_illegal (h : ∃ w ∈ specs, ∃ x ∈ w.code, ∃ err, decode P.fieldBits x = .error err) :
    loadCheck P specs s = some .invalidInstruction := by
  rw [loadCheck, if_neg hroom, if_neg (mt any_code_isEmpty.mp hcode), if_pos (any_word_illegal.mpr h)]

variable (hlegal : ¬∃ w ∈ specs, ∃ x ∈ w.code, ∃ err, decode P.fieldBits x = .error err)
include hlegal

/-- Where the first three checks pass the last one decides. -/
theorem loadCheck_of_legal : loadCheck P specs s =
    if P.coresize < occupiedCount P s.occ + (specs.map fun w => w.code.length).sum then some .tooLarge else none := by
  rw [loadCheck, if_neg hroom, if_neg (mt any_code_isEmpty.mp hcode), if_neg (mt any_word_illegal.mp hlegal)]

end

/-- Where the checks pass, the placement alone decides between Ok and RETRIES_EXHAUSTED
(70_reset_and_hazards.md R285, R290). -/
theorem loadWarriors_reply_of_check {P : Params} {specs : List (WarriorSpec P.fieldBits)} {s : State} (hne : specs ≠ [])
    (hcheck : loadCheck P specs s = none) (draw : Nat → Nat → Nat) :
    (loadWarriors P draw specs s).2 = none ∨ (loadWarriors P draw specs s).2 = some .retriesExhausted := by
  rw [loadWarriors_of_check hne hcheck]
  cases placeAll P draw 0 specs s.occ with
  | none => exact .inr rfl
  | some placed => exact .inl rfl

/-- Settles O54: the equation of each outcome of the checks, in their order. -/
theorem loadChecksInOrder : Obligations.LoadChecksInOrder := by
  intro draw specs s hne
  have herror {err : PlacementError} (h : loadCheck .hardware specs s = some err) :
      (loadWarriors .hardware draw specs s).2 = some err := by rw [loadWarriors_of_check_error hne h]
  refine ⟨fun hmany => herror (loadCheck_of_tooMany hmany),
    fun hroom hempty => herror (loadCheck_of_empty hroom hempty),
    fun hroom hcode hillegal => herror (loadCheck_of_illegal hroom hcode hillegal),
    fun hroom hcode hlegal hlarge => herror ((loadCheck_of_legal hroom hcode hlegal).trans (if_pos hlarge)),
    fun hroom hcode hlegal hfits =>
      loadWarriors_reply_of_check hne ((loadCheck_of_legal hroom hcode hlegal).trans (if_neg hfits)) draw⟩

end Sys2Proof.Machine

/-! The footprints of the loaded warriors (70_reset_and_hazards.md R288). They are read from the warrior table and the
bitmap alone, so every operation that keeps those two keeps them apart; the loader adds one at a time, where it is
free. -/

namespace Sys2Proof.Machine

section
variable {P : Params} {s t : State}

theorem footprintsApart_of_tables_eq (h : FootprintsApart P s) (hw : t.warriors = s.warriors) (ho : t.occ = s.occ) :
    FootprintsApart P t where
  marked := by rw [hw, ho]; exact h.marked
  apart := by rw [hw]; exact h.apart

theorem footprintsApart_of_no_warriors (h : s.warriors = []) : FootprintsApart P s where
  marked := by rw [h]; exact List.forall_mem_nil _
  apart := by rw [h]; exact .nil

/-- The commit of one placed spec: its footprint was free, and those before it were marked
(70_reset_and_hazards.md R285, R288, R289). -/
theorem footprintsApart_commitWarrior {occ : List (Nat × Bool)} (h : FootprintsApart P { s with occ := occ })
    {w : WarriorSpec P.fieldBits} {c : Nat} (hfree : ∀ a ∈ footprint P c w.code.length, occupied occ a = false) :
    FootprintsApart P { commitWarrior P w c s with occ := mark occ (footprint P c w.code.length) } := by
  have hnew : (⟨s.warriors.length, w.title, w.tag, w.code.map (decodeCell _), c⟩ : Warrior).footprint P =
      footprint P c w.code.length := by rw [Warrior.footprint, List.length_map]
  constructor
  case marked =>
    refine List.forall_mem_append.mpr ⟨fun v hv a ha => ?_, List.forall_mem_singleton.mpr fun a ha => ?_⟩
    · rw [occupied_mark, h.marked v hv a ha, Bool.or_true]
    · rw [hnew] at ha
      rw [occupied_mark, decide_eq_true ha, Bool.true_or]
  case apart =>
    refine List.pairwise_append.mpr ⟨h.apart, List.pairwise_singleton .., fun v hv => ?_⟩
    refine List.forall_mem_singleton.mpr fun a ha hin => ?_
    rw [hnew] at hin
    have hmarked : occupied occ a = true := h.marked v hv a ha
    exact Bool.false_ne_true ((hfree a hin).symm.trans hmarked)

/-- LoadWarriors keeps the footprints apart, whatever the random source. -/
theorem footprintsApart_loadWarriors (hS : 0 < P.coresize) (draw : Nat → Nat → Nat)
    (specs : List (WarriorSpec P.fieldBits)) (h : FootprintsApart P s) :
    FootprintsApart P (loadWarriors P draw specs s).1 := by
  rcases loadWarriors_cases hS draw specs s with ⟨hsame, -⟩ | ⟨-, -, cs, occ', hp, hloaded⟩
  · rwa [hsame]
  · have hall : FootprintsApart P { commitAll P specs cs s with occ := occ' } :=
      hp.commitAll (motive := fun occ u => FootprintsApart P { u with occ := occ })
        (fun _ _ _ _ _ _ hfree hu => footprintsApart_commitWarrior hu hfree) h
    rw [hloaded]
    exact footprintsApart_of_tables_eq hall rfl rfl

theorem footprintsApart_spendBudget (h : FootprintsApart P s) : FootprintsApart P (spendBudget s) := by
  unfold spendBudget
  split
  · exact h
  · exact footprintsApart_of_tables_eq h rfl rfl

/-- RunStep keeps the footprints apart where the Step it gates does (60_exceptions.md R258). -/
theorem footprintsApart_runStepBy {stepper : State → Answer}
    (hstepper : ∀ u, stepper s = .next u → FootprintsApart P u) (h : FootprintsApart P s)
    (hrun : runStepBy stepper s = .next t) : FootprintsApart P t := by
  unfold runStepBy at hrun
  split at hrun
  · cases hrun; exact footprintsApart_of_tables_eq h rfl rfl
  split at hrun
  · cases hrun; exact footprintsApart_of_tables_eq h rfl rfl
  split at hrun
  · cases hrun; exact footprintsApart_of_tables_eq h rfl rfl
  split at hrun
  · next u hu => cases hrun; exact footprintsApart_spendBudget (hstepper u hu)
  · cases hrun
  · cases hrun

/-- A Step reaches neither the warrior table nor the bitmap (O37). -/
theorem footprintsApart_step (h : FootprintsApart P s) (hstep : step s = .next t) : FootprintsApart P t :=
  footprintsApart_of_tables_eq h (step_confined hstep).warriors (step_confined hstep).occ

end

/-- Settles O57: the loader places each spec where it is free, Reset empties the table, and no other operation writes
the table or the bitmap. -/
theorem footprintsStayApart : Obligations.FootprintsStayApart := by
  intro draw c s t h hcall
  cases c with
  | step => exact footprintsApart_step h hcall
  | runStep => exact footprintsApart_runStepBy (fun _ => footprintsApart_step h) h hcall
  | loadWarriors specs => cases hcall; exact footprintsApart_loadWarriors hardware_coresize_pos draw specs h
  | reset => cases hcall; exact footprintsApart_of_no_warriors rfl
  | setRunning | setCycleBudget | popTouched => cases hcall; exact footprintsApart_of_tables_eq h rfl rfl
  | readCell | formatCell | readState | readActivity => cases hcall; exact h

end Sys2Proof.Machine

/-! LoadWarriors with the checks passed (70_reset_and_hazards.md R285, R287-R290). The statements say what a spec meets
in terms of the starts of the specs before it, the loader in terms of the bitmap it has marked so far; `markAll` is that
bitmap, and every spec is placed in it at its first free candidate. -/

namespace Sys2Proof.Machine

/-! ## The bitmap after some specs are placed -/

/-- The bitmap with the footprints of the specs marked, the i-th of them started at `st (j + i)`
(70_reset_and_hazards.md R285). -/
def markAll (P : Params) (st : Nat → Nat) :
    (j : Nat) → List (WarriorSpec P.fieldBits) → List (Nat × Bool) → List (Nat × Bool)
  | _, [], occ => occ
  | j, w :: ws, occ => markAll P st (j + 1) ws (mark occ (footprint P (st j) w.code.length))

section
variable {P : Params} {st : Nat → Nat} {draw : Nat → Nat → Nat}

theorem occupied_markAll {specs : List (WarriorSpec P.fieldBits)} {j a : Nat} {occ : List (Nat × Bool)} :
    occupied (markAll P st j specs occ) a = true ↔ occupied occ a = true ∨
      ∃ (i : Nat) (v : WarriorSpec P.fieldBits), specs[i]? = some v ∧ a ∈ footprint P (st (j + i)) v.code.length := by
  induction specs generalizing j occ with
  | nil => simp [markAll]
  | cons w ws ih =>
    rw [markAll, ih, occupied_mark, Bool.or_eq_true, decide_eq_true_eq]
    constructor
    · rintro ((hin | hocc) | ⟨i, v, hv, ha⟩)
      · exact .inr ⟨0, w, rfl, hin⟩
      · exact .inl hocc
      · exact .inr ⟨i + 1, v, hv, by rwa [← Nat.add_assoc, Nat.add_right_comm]⟩
    · rintro (hocc | ⟨_ | i, v, hv, ha⟩)
      · exact .inl (.inr hocc)
      · obtain rfl : w = v := Option.some.inj hv
        exact .inl (.inl ha)
      · exact .inr ⟨i, v, hv, by rwa [Nat.add_right_comm, Nat.add_assoc]⟩

theorem occupied_markAll_take {specs : List (WarriorSpec P.fieldBits)} {j n a : Nat} {occ : List (Nat × Bool)} :
    occupied (markAll P st j (specs.take n) occ) a = true ↔ occupied occ a = true ∨
      ∃ (i : Nat) (v : WarriorSpec P.fieldBits), i < n ∧ specs[i]? = some v ∧
        a ∈ footprint P (st (j + i)) v.code.length := by
  simp only [occupied_markAll, List.getElem?_take, Option.ite_none_right_eq_some, and_assoc]

/-- The j-th spec, `w`, is placed at its start where the specs before it are (70_reset_and_hazards.md R285). -/
def PlacedInTurn (P : Params) (draw : Nat → Nat → Nat) (st : Nat → Nat) (j : Nat) (w : WarriorSpec P.fieldBits)
    (occ : List (Nat × Bool)) : Prop :=
  place P draw j w.code.length w.start occ (1 + P.placeRetries) 0 = some (st j)

theorem placeAll_of_placedInTurn {specs : List (WarriorSpec P.fieldBits)} {j : Nat} {occ : List (Nat × Bool)}
    (h : ∀ (i : Nat) (w : WarriorSpec P.fieldBits), specs[i]? = some w →
      PlacedInTurn P draw st (j + i) w (markAll P st j (specs.take i) occ)) :
    placeAll P draw j specs occ = some (specs.mapIdx fun i _ => st (j + i), markAll P st j specs occ) := by
  induction specs generalizing j occ with
  | nil => rfl
  | cons w ws ih =>
    have hrest := ih (j := j + 1) (occ := mark occ (footprint P (st j) w.code.length)) fun i v hv => by
      rw [Nat.add_right_comm]
      exact h (i + 1) v hv
    have hfirst : PlacedInTurn P draw st j w occ := h 0 w rfl
    rw [placeAll_cons ws hfirst, hrest]
    simp [markAll, List.mapIdx_cons, Nat.add_right_comm, Nat.add_assoc]

/-- One spec without a free candidate ends the placement, those before it placed (70_reset_and_hazards.md R290). -/
theorem placeAll_of_exhausted {specs : List (WarriorSpec P.fieldBits)} {j n : Nat} {w : WarriorSpec P.fieldBits}
    {occ : List (Nat × Bool)} (hn : specs[n]? = some w)
    (hbefore : ∀ (i : Nat) (v : WarriorSpec P.fieldBits), i < n → specs[i]? = some v →
      PlacedInTurn P draw st (j + i) v (markAll P st j (specs.take i) occ))
    (hnone : place P draw (j + n) w.code.length w.start (markAll P st j (specs.take n) occ) (1 + P.placeRetries) 0 =
      none) :
    placeAll P draw j specs occ = none := by
  induction specs generalizing j n occ with
  | nil => cases hn
  | cons v ws ih =>
    cases n with
    | zero =>
      obtain rfl : v = w := Option.some.inj hn
      exact placeAll_exhausted ws hnone
    | succ n =>
      have hrest : placeAll P draw (j + 1) ws (mark occ (footprint P (st j) v.code.length)) = none := by
        refine ih (n := n) hn (fun i u hi hu => ?_) ?_
        · rw [Nat.add_right_comm]
          exact hbefore (i + 1) u (Nat.succ_lt_succ hi) hu
        · rw [Nat.add_right_comm]
          exact hnone
      have hfirst : PlacedInTurn P draw st j v occ := hbefore 0 v n.succ_pos rfl
      rw [placeAll_cons ws hfirst, hrest, Option.map_none]

end

/-! ## The commits of specs placed in turn -/

/-- What LoadWarriors leaves in t, from s, where every spec is placed, the j-th at `st j`: the cells, the activity and
the bitmap of each footprint, one record and one entry a spec, and nothing else (70_reset_and_hazards.md R285, R289). -/
structure Loaded (P : Params) (st : Nat → Nat) (specs : List (WarriorSpec P.fieldBits)) (s t : State) : Prop where
  cells : ∀ (j : Nat) (w : WarriorSpec P.fieldBits), specs[j]? = some w →
    ∀ (i : Nat) (x : CellWord P.fieldBits), w.code[i]? = some x →
      t.arena.read (wrap P (st j) i) = decodeCell P.fieldBits x ∧
      Sparse.get none t.act (wrap P (st j) i) = some (s.warriors.length + j) ∧
      occupied t.occ (wrap P (st j) i) = true
  frame : ∀ a, (∀ (j : Nat) (w : WarriorSpec P.fieldBits), specs[j]? = some w → a ∉ footprint P (st j) w.code.length) →
    t.arena.read a = s.arena.read a ∧ Sparse.get none t.act a = Sparse.get none s.act a ∧
    occupied t.occ a = occupied s.occ a
  queue : t.queue = s.queue ++ specs.mapIdx (fun j _ => ⟨s.warriors.length + j, 0, true, true, st j⟩)
  warriors : t.warriors = s.warriors ++ specs.mapIdx (fun j w =>
    ⟨s.warriors.length + j, w.title, w.tag, w.code.map (decodeCell P.fieldBits), st j⟩)
  touched : t.touched = []
  registers : t.cur = s.cur ∧ t.running = s.running ∧ t.remaining = s.remaining ∧ t.cycles = s.cycles ∧
    t.status = s.status ∧ t.fatal = s.fatal

section
variable {P : Params} {st : Nat → Nat} {draw : Nat → Nat → Nat} {specs : List (WarriorSpec P.fieldBits)} {s : State}

/-- A spec's footprint is outside those of the specs before it (70_reset_and_hazards.md R288). -/
theorem not_mem_footprint_of_placedInTurn {n m a : Nat} {v w : WarriorSpec P.fieldBits} {occ : List (Nat × Bool)}
    (hw : PlacedInTurn P draw st m w (markAll P st 0 (specs.take m) occ)) (hnm : n < m) (hv : specs[n]? = some v)
    (ha : a ∈ footprint P (st n) v.code.length) : a ∉ footprint P (st m) w.code.length := by
  intro hin
  have hfree : occupied (markAll P st 0 (specs.take m) occ) a = false := (place_some hw).2 a hin
  have hmarked : occupied (markAll P st 0 (specs.take m) occ) a = true :=
    occupied_markAll_take.mpr (.inr ⟨n, v, hnm, hv, by rwa [Nat.zero_add]⟩)
  exact Bool.false_ne_true (hfree.symm.trans hmarked)

/-- Nothing but the footprints is marked. -/
theorem occupied_markAll_other {occ : List (Nat × Bool)} {a : Nat}
    (h : ∀ (j : Nat) (w : WarriorSpec P.fieldBits), specs[j]? = some w → a ∉ footprint P (st j) w.code.length) :
    occupied (markAll P st 0 specs occ) a = occupied occ a := by
  refine Bool.eq_iff_iff.mpr (occupied_markAll.trans (or_iff_left ?_))
  rintro ⟨i, v, hv, ha⟩
  rw [Nat.zero_add] at ha
  exact h i v hv ha

theorem loaded_commitAll (hlen : ∀ w ∈ specs, w.code.length ≤ P.coresize)
    (hplaced : ∀ (j : Nat) (w : WarriorSpec P.fieldBits), specs[j]? = some w →
      PlacedInTurn P draw st j w (markAll P st 0 (specs.take j) s.occ)) :
    Loaded P st specs s { commitAll P specs (specs.mapIdx fun j _ => st j) s with
      occ := markAll P st 0 specs s.occ, touched := [] } where
  cells j w hw i x hx := by
    have hin : wrap P (st j) i ∈ footprint P (st j) w.code.length :=
      mem_footprint.mpr ⟨i, (List.getElem?_eq_some_iff.mp hx).1, rfl⟩
    have hcommit := commitAll_at specs st 0 s hw hx (hlen w (List.mem_of_getElem? hw)) fun m v hm hv => by
      rw [Nat.zero_add, Nat.zero_add]
      exact not_mem_footprint_of_placedInTurn (hplaced m v hv) hm hw hin
    simp only [Nat.zero_add] at hcommit
    exact ⟨hcommit.1, hcommit.2, occupied_markAll.mpr (.inr ⟨j, w, hw, by rwa [Nat.zero_add]⟩)⟩
  frame a ha := by
    have hcommit := commitAll_other specs st 0 s (a := a) fun i w hw => by
      rw [Nat.zero_add]
      exact ha i w hw
    simp only [Nat.zero_add] at hcommit
    exact ⟨hcommit.1, hcommit.2, occupied_markAll_other ha⟩
  queue := by simpa only [Nat.zero_add] using (commitAll_tables specs st 0 s).1
  warriors := by simpa only [Nat.zero_add] using (commitAll_tables specs st 0 s).2
  touched := rfl
  registers := commitAll_registers specs _ s

/-- LoadWarriors where the checks pass and every spec is placed in turn (70_reset_and_hazards.md R285). -/
theorem loadWarriors_loaded (hne : specs ≠ []) (hcheck : loadCheck P specs s = none)
    (hlen : ∀ w ∈ specs, w.code.length ≤ P.coresize)
    (hplaced : ∀ (j : Nat) (w : WarriorSpec P.fieldBits), specs[j]? = some w →
      PlacedInTurn P draw st j w (markAll P st 0 (specs.take j) s.occ)) :
    (loadWarriors P draw specs s).2 = none ∧ Loaded P st specs s (loadWarriors P draw specs s).1 := by
  have hplace := placeAll_of_placedInTurn (specs := specs) (j := 0) (occ := s.occ) fun i w hw => by
    rw [Nat.zero_add]
    exact hplaced i w hw
  simp only [Nat.zero_add] at hplace
  rw [loadWarriors_of_check hne hcheck, hplace]
  exact ⟨rfl, loaded_commitAll hlen hplaced⟩

/-- LoadWarriors where the checks pass and the n-th spec has no free candidate, those before it placed
(70_reset_and_hazards.md R285, R290). -/
theorem loadWarriors_exhausted {n : Nat} {w : WarriorSpec P.fieldBits} (hcheck : loadCheck P specs s = none)
    (hn : specs[n]? = some w)
    (hbefore : ∀ (i : Nat) (v : WarriorSpec P.fieldBits), i < n → specs[i]? = some v →
      PlacedInTurn P draw st i v (markAll P st 0 (specs.take i) s.occ))
    (hnone : place P draw n w.code.length w.start (markAll P st 0 (specs.take n) s.occ) (1 + P.placeRetries) 0 =
      none) :
    loadWarriors P draw specs s = (s, some .retriesExhausted) := by
  have hplace : placeAll P draw 0 specs s.occ = none :=
    placeAll_of_exhausted (st := st) hn (fun i v hi hv => by rw [Nat.zero_add]; exact hbefore i v hi hv)
      (by rwa [Nat.zero_add])
  rw [loadWarriors_of_check (List.ne_nil_of_mem (List.mem_of_getElem? hn)) hcheck, hplace]

end

/-! ## The statements' terms at this hardware's CORESIZE -/

theorem wrap_hardware_nat (c i : Nat) : wrap .hardware c (i : Int) = (c + i) % 8000 := by
  rw [wrap, hardware_coresize]
  omega

theorem mem_footprint_hardware {c len a : Nat} : a ∈ footprint .hardware c len ↔ Expect.covers c len a := by
  simp only [mem_footprint, wrap_hardware_nat, Expect.covers]

theorem candidate_hardware (draw : Nat → Nat → Nat) (j t : Nat) (w : WarriorSpec 32) :
    candidate .hardware draw j t w.start = Expect.candidateOf draw j t w := by
  unfold candidate Expect.candidateOf
  cases w.start with
  | fixed k => exact wrap_hardware_zero k
  | random => exact (wrap_hardware_nat 0 _).trans (by rw [Nat.zero_add])

section
variable {draw : Nat → Nat → Nat} {specs : List (WarriorSpec 32)} {s : State} {starts : Nat → Nat} {j : Nat}
  {w : WarriorSpec 32}

/-- A spec collides where its footprint meets the bitmap that the specs before it have marked. -/
theorem collides_iff {c : Nat} : Expect.collides s specs starts j w c ↔ ∃ a ∈ footprint .hardware c w.code.length,
    occupied (markAll .hardware starts 0 (specs.take j) s.occ) a = true := by
  refine exists_congr fun a => and_congr mem_footprint_hardware.symm (Iff.trans ?_ occupied_markAll_take.symm)
  simp only [Nat.zero_add, mem_footprint_hardware]
  rfl

/-- The first candidate that collides with nothing is the loader's (70_reset_and_hazards.md R285, R290). -/
theorem placedInTurn_of_chosen (h : Expect.Chosen draw s specs starts j w) :
    PlacedInTurn .hardware draw starts j w (markAll .hardware starts 0 (specs.take j) s.occ) := by
  obtain ⟨t, ht, hstart, hfree, hbusy⟩ := h
  have hcand (t : Nat) : candidate .hardware draw j (0 + t) w.start = Expect.candidateOf draw j t w := by
    rw [Nat.zero_add, candidate_hardware]
  refine (place_first (Nat.lt_one_add_iff.mpr ht) (fun a ha => ?_) fun t' ht' => ?_).trans
    (congrArg some ((hcand t).trans hstart.symm))
  · rw [hcand, ← hstart] at ha
    exact Bool.eq_false_iff.mpr fun hocc => hfree (collides_iff.mpr ⟨a, ha, hocc⟩)
  · rw [hcand]
    exact collides_iff.mp (hbusy t' ht')

theorem place_none_of_collisions
    (h : ∀ t, t ≤ 1000 → Expect.collides s specs starts j w (Expect.candidateOf draw j t w)) :
    place .hardware draw j w.code.length w.start (markAll .hardware starts 0 (specs.take j) s.occ)
      (1 + Params.hardware.placeRetries) 0 = none := by
  refine place_none.mpr fun t ht => ?_
  rw [Nat.zero_add, candidate_hardware]
  exact collides_iff.mp (h t (Nat.lt_one_add_iff.mp ht))

/-- The checks of R286 pass under the statements' hypotheses. -/
theorem loadCheck_hardware_none (hroom : s.queue.length + specs.length ≤ 8000) (hcode : ∀ w ∈ specs, w.code ≠ [])
    (hdecode : ∀ w ∈ specs, ∀ x ∈ w.code, ∃ i, decode 32 x = .ok i)
    (hfits : occupiedCount .hardware s.occ + (specs.map fun w => w.code.length).sum ≤ 8000) :
    loadCheck .hardware specs s = none :=
  loadCheck_none.mpr ⟨hroom, hcode, fun w hw x hx => decodeCell_instr_ne_none.mpr (hdecode w hw x hx), hfits⟩

theorem code_length_le_of_fits
    (hfits : occupiedCount .hardware s.occ + (specs.map fun w => w.code.length).sum ≤ 8000) :
    ∀ w ∈ specs, w.code.length ≤ 8000 := by
  intro w hw
  have hle := List.le_sum_of_mem (List.mem_map_of_mem (f := fun w : WarriorSpec 32 => w.code.length) hw)
  omega

end

/-- Settles O56: a chosen start is the place the loader finds, and a spec with none ends the placement. -/
theorem specsAreLoadedInOrder : Obligations.SpecsAreLoadedInOrder := by
  intro draw specs s starts hne hroom hcode hdecode hfits
  have hcheck := loadCheck_hardware_none hroom hcode hdecode hfits
  refine ⟨fun hchosen => ?_, fun j w hj hbefore hbusy => ?_⟩
  · obtain ⟨hok, hloaded⟩ := loadWarriors_loaded (st := starts) hne hcheck (code_length_le_of_fits hfits)
      fun j w hw => placedInTurn_of_chosen (hchosen j w hw)
    refine ⟨hok, fun j w hw i x hx => ?_, fun a ha => ?_, hloaded.queue, hloaded.warriors, hloaded.touched,
      hloaded.registers⟩
    · rw [← wrap_hardware_nat]
      exact hloaded.cells j w hw i x hx
    · exact hloaded.frame a fun j w hw => mt mem_footprint_hardware.mp (ha j w hw)
  · exact loadWarriors_exhausted hcheck hj (fun i v hi hv => placedInTurn_of_chosen (hbefore i v hi hv))
      (place_none_of_collisions hbusy)

/-! ## One spec at a FIXED start -/

section
variable {P : Params} (draw : Nat → Nat → Nat) (j t : Nat) {len fuel : Nat} {k : Int} {occ : List (Nat × Bool)}

/-- A free FIXED start is the first candidate (70_reset_and_hazards.md R287). -/
theorem place_fixed_of_free (h : ∀ a ∈ footprint P (wrap P 0 k) len, occupied occ a = false) :
    place P draw j len (.fixed k) occ (1 + fuel) t = some (wrap P 0 k) :=
  place_first (k := 0) (by omega) h fun _ hk => absurd hk (Nat.not_lt_zero _)

/-- Every candidate of a FIXED start is the same one (70_reset_and_hazards.md R287, R290). -/
theorem place_fixed_of_occupied (h : ∃ a ∈ footprint P (wrap P 0 k) len, occupied occ a = true) :
    place P draw j len (.fixed k) occ fuel t = none := place_none.mpr fun _ _ => h

end

/-- Settles O55: the one spec is placed where its FIXED start is free, and exhausts its retries where it is not. -/
theorem fixedWarriorIsLoaded : Obligations.FixedWarriorIsLoaded := by
  intro draw w k s hstart hroom hcode hdecode hfits
  have hfits' : occupiedCount .hardware s.occ + ([w].map fun w => w.code.length).sum ≤ 8000 := by simpa using hfits
  have hcheck : loadCheck .hardware [w] s = none :=
    loadCheck_hardware_none hroom (List.forall_mem_singleton.mpr hcode) (List.forall_mem_singleton.mpr hdecode) hfits'
  have honly {j : Nat} {v : WarriorSpec 32} (hv : [w][j]? = some v) : j = 0 ∧ w = v := by
    simpa [List.getElem?_singleton] using hv
  refine ⟨fun hfree => ?_, fun ⟨i, hi, hocc⟩ => ?_⟩
  · have hplace : place .hardware draw 0 w.code.length w.start s.occ (1 + Params.hardware.placeRetries) 0 =
        some (wrap .hardware 0 k) := by
      rw [hstart]
      refine place_fixed_of_free draw 0 0 fun a ha => ?_
      obtain ⟨i, hi, rfl⟩ := mem_footprint.mp ha
      exact hfree i hi
    obtain ⟨hok, hloaded⟩ := loadWarriors_loaded (draw := draw) (st := fun _ => wrap .hardware 0 k)
      (List.cons_ne_nil w []) hcheck (code_length_le_of_fits hfits') fun j v hv => by
        obtain ⟨rfl, rfl⟩ := honly hv
        exact hplace
    refine ⟨hok, hloaded.cells 0 w rfl, fun a ha => hloaded.frame a fun j v hv hin => ?_, hloaded.queue,
      hloaded.warriors, hloaded.touched, hloaded.registers⟩
    obtain ⟨rfl, rfl⟩ := honly hv
    obtain ⟨i, hi, haddr⟩ := mem_footprint.mp hin
    exact ha i hi haddr
  · have hnone : place .hardware draw 0 w.code.length w.start s.occ (1 + Params.hardware.placeRetries) 0 = none := by
      rw [hstart]
      exact place_fixed_of_occupied draw 0 0 ⟨_, mem_footprint.mpr ⟨i, hi, rfl⟩, hocc⟩
    exact loadWarriors_exhausted (st := fun _ => wrap .hardware 0 k) hcheck (n := 0) rfl
      (fun _ _ hi => absurd hi (Nat.not_lt_zero _)) hnone

end Sys2Proof.Machine
